-- ==== Sys2Proof/Word.lean ====
section
/-! DEFINITION. The word types of the block, each at the width the spec gives it (10_state.md rule R20,
30_encoding.md rules R70 to R78). All quantities are unsigned (rule R8). -/

namespace Sys2Proof

/-- One data byte, bit 0 the least significant (rules R8, R58). -/
abbrev Byte := BitVec 8

/-- An input symbol, a palette index: `SYMW = 8` bits (rule R4). -/
abbrev Symbol := BitVec 8

/-- An LZW code: at most `MAXW = 12` bits (rules R4, R78). -/
abbrev Code := BitVec 12

/-- A count of codes, 13 bits so that it can hold 4096 (rules R28, R33). -/
abbrev CodeCount := BitVec 13

/-- A minimum code size, 4 bits (rules R27, R72). -/
abbrev MinCodeSize := BitVec 4

/-- A host command word: `CMDW = 16` bits (rule R71). -/
abbrev CommandWord := BitVec 16

/-- A packer token as a word: 16 bits (rule R76). -/
abbrev TokenWord := BitVec 16

/-- An output token as a word: 9 bits (rule R77). -/
abbrev OutWord := BitVec 9

end Sys2Proof
end

