-- ==== Sys2Proof/Config.lean ====
section
/-! DEFINITION. The fixed parameters of the block (00_scope.md rule R4) and the model's one free value. -/

namespace Sys2Proof.Config

/-- `MAXW`: the largest code width in bits (rule R4). -/
abbrev maxW : Nat := 12

/-- `CAP`: the number of codes the dictionary can hold, literal and reserved codes included (rule R4). -/
abbrev cap : Nat := 4096

/-- `BLK`: the largest sub-block payload in bytes (rule R4). -/
abbrev blk : Nat := 255

/-- `SYMW`: the width of an input symbol (rule R4). -/
abbrev symW : Nat := 8

/-- `MCS_MIN`: the smallest legal minimum code size (rule R4). -/
abbrev mcsMin : Nat := 2

/-- `MCS_MAX`: the largest legal minimum code size (rule R4). -/
abbrev mcsMax : Nat := 8

/-- `CMDW`: the width of a host command word (rule R4). -/
abbrev cmdW : Nat := 16

/-- What a block-buffer cell holds that nothing has written: a FREE VALUE, nothing constrains it. Rule R56 says
such a cell is never observed, and no reachable state reads one (log 6). -/
opaque unwrittenBlkCell : Nat → Byte

end Sys2Proof.Config
end

