-- ==== Sys2Proof/Syntax.lean ====
section
/-! DEFINITION. The commands and tokens of the block (one constructor per row of spec/opcode_table.json), and the
output token. -/

namespace Sys2Proof

/-- The four host commands of the H format (30_encoding.md rules R71 to R75) and the three packer tokens of the
P format (rule R76). Operands are unsigned fields taken as they stand (rule R83). -/
inductive Instr where
  /-- `START mcs` (rule R104). -/
  | start (m : MinCodeSize)
  /-- `SYM s` (rule R105). -/
  | sym (s : Symbol)
  /-- `FINISH` (rule R106). -/
  | finish
  /-- `ABORT` (rule R107). -/
  | abort
  /-- `PINIT m`, LZ to BP (rule R130). -/
  | pinit (m : MinCodeSize)
  /-- `PUT c`, LZ to BP (rule R131). -/
  | put (c : Code)
  /-- `PFLUSH`, LZ to BP (rule R132). -/
  | pflush
  deriving DecidableEq, Repr

/-- The two 16-bit formats: H is host to LZ, P is LZ to BP (rule R70). -/
inductive Format where
  | h
  | p
  deriving DecidableEq, Repr

/-- The format an instruction belongs to (rules R71, R76; the "format" column of the opcode table). -/
def Instr.format : Instr → Format
  | .start _ => .h
  | .sym _ => .h
  | .finish => .h
  | .abort => .h
  | .pinit _ => .p
  | .put _ => .p
  | .pflush => .p

/-- An output token: a byte and the `last` bit (rules R57, R77). -/
structure OutToken where
  byte : Byte
  last : Bool
  deriving DecidableEq, Repr

end Sys2Proof
end

