-- ==== Sys2Proof/WellFormed.lean ====
section
/-! DEFINITION. Which instructions may be sent. A host may present any command (70_reset_and_hazards.md rule R214:
every case has a rule, and a bad operand faults when the command runs, rule R86). The LzwEncoder sends `PINIT m`
only with a legal minimum code size (41_bitpacker.md rule R130: `2 ≤ m ≤ 8`, the caller has checked it). -/

namespace Sys2Proof

/-- `2 ≤ m ≤ 8`, the legal minimum code sizes (rules R4, R27). -/
def legalMcs (m : MinCodeSize) : Bool :=
  decide (Config.mcsMin ≤ m.toNat) && decide (m.toNat ≤ Config.mcsMax)

/-- Well-formed instructions: all host commands, every `PUT` and `PFLUSH`, and `PINIT` with a legal operand. -/
def Instr.wellFormed : Instr → Bool
  | .start _ => true
  | .sym _ => true
  | .finish => true
  | .abort => true
  | .pinit m => legalMcs m
  | .put _ => true
  | .pflush => true

end Sys2Proof
end

