-- ==== Sys2Proof/Decode.lean ====
section
/-! DEFINITION. Decoding and encoding of the H, P and O formats (30_encoding.md rules R70 to R77, R83 to R85).
The decoders are total: a word is one instruction or is rejected by name. -/

namespace Sys2Proof

/-- Why a word is no instruction of its format. -/
inductive DecodeError where
  /-- The operation field `[15:12]` names no operation of the format (rules R84, R87). -/
  | unusedOperation (op : BitVec 4)
  /-- The operation is used, but a bit is set where it has no operand bit (rules R71, R84). -/
  | strayOperandBits (op : BitVec 4)
  deriving DecidableEq, Repr

/-- `cw[15:12]`, the operation field of both 16-bit formats (rules R71, R76). -/
def opField (w : BitVec 16) : BitVec 4 := w.extractLsb' 12 4

/-- `cw[11:0]`, the operand field (rules R71, R76); a `PUT`'s code is all of it. -/
def argField (w : BitVec 16) : BitVec 12 := w.extractLsb' 0 12

/-- `cw[3:0]`, the minimum code size of `START` and `PINIT` (rules R72, R83). -/
def mcsField (w : BitVec 16) : MinCodeSize := w.extractLsb' 0 4

/-- `cw[7:0]`, the symbol of `SYM` (rules R73, R83). -/
def symField (w : BitVec 16) : Symbol := w.extractLsb' 0 8

/-- `[11:4]`, the bits `START` and `PINIT` leave zero (rules R72, R76). -/
def aboveMcsField (w : BitVec 16) : BitVec 8 := w.extractLsb' 4 8

/-- `[11:8]`, the bits `SYM` leaves zero (rule R73). -/
def aboveSymField (w : BitVec 16) : BitVec 4 := w.extractLsb' 8 4

/-- The H-format decoder, what the host port reads: rule R84, tested in its order. An `error` is an illegal word
(rule R85). -/
def decodeCommand (cw : CommandWord) : Except DecodeError Instr :=
  let op := opField cw
  if op = 0x1#4 then
    if aboveMcsField cw = 0 then .ok (.start (mcsField cw)) else .error (.strayOperandBits op)
  else if op = 0x2#4 then
    if aboveSymField cw = 0 then .ok (.sym (symField cw)) else .error (.strayOperandBits op)
  else if op = 0x3#4 then
    if argField cw = 0 then .ok .finish else .error (.strayOperandBits op)
  else if op = 0xF#4 then
    if argField cw = 0 then .ok .abort else .error (.strayOperandBits op)
  else .error (.unusedOperation op)

/-- The P-format decoder, what the BitPacker reads (rules R76, R135: it accepts no other token). -/
def decodeToken (tk : TokenWord) : Except DecodeError Instr :=
  let op := opField tk
  if op = 0x1#4 then
    if aboveMcsField tk = 0 then .ok (.pinit (mcsField tk)) else .error (.strayOperandBits op)
  else if op = 0x2#4 then .ok (.put (argField tk))
  else if op = 0x3#4 then
    if argField tk = 0 then .ok .pflush else .error (.strayOperandBits op)
  else .error (.unusedOperation op)

/-- The decoder of a format. -/
def decode : Format → BitVec 16 → Except DecodeError Instr
  | .h => decodeCommand
  | .p => decodeToken

/-- The word of an instruction in its own format (rules R72 to R76). -/
def encode : Instr → BitVec 16
  | .start m => 0x1#4 ++ 0#8 ++ m
  | .sym s => 0x2#4 ++ 0#4 ++ s
  | .finish => 0x3000#16
  | .abort => 0xF000#16
  | .pinit m => 0x1#4 ++ 0#8 ++ m
  | .put c => 0x2#4 ++ c
  | .pflush => 0x3000#16

/-- An output token as its 9-bit word: `ot[8]` is `last`, `ot[7:0]` the byte (rule R77). -/
def encodeOut (t : OutToken) : OutWord := BitVec.ofBool t.last ++ t.byte

/-- The output token a 9-bit word stands for (rule R77). -/
def decodeOut (w : OutWord) : OutToken := { byte := w.extractLsb' 0 8, last := w.getLsbD 8 }

/-- The command word whose low `nbits` bits are `w`, the rest zero (the numbering of spec/opcode_table.json). -/
def tableWord (nbits w : Nat) : CommandWord := BitVec.ofNat 16 (w % 2 ^ nbits)

/-- The instruction the block reads from a word at its host port, the only port words come in at (rules R66, R76:
the host cannot send a P token). A P row of the table has the bits of an H row (`PINIT` those of `START`, `PUT`
those of `SYM` or of illegal words, `PFLUSH` those of `FINISH`): such a word is read as the H command or rejected
(log 4). -/
def decodeTableWord (nbits w : Nat) : Option Instr :=
  match decodeCommand (tableWord nbits w) with
  | .ok i => some i
  | .error _ => none

end Sys2Proof
end

