-- ==== Sys2Proof/Machine/State.lean ====
section
/-! DEFINITION. The state of the block (10_state.md rule R20), its reset value (70_reset_and_hazards.md rule R201),
and the reasons a step can stop. -/

namespace Sys2Proof.Machine

/-- `mode`, the sequencing state (rule R21). The value 3 is never written, so it has no name here (93 U8). -/
inductive Mode where
  /-- 0: no frame open. -/
  | idle
  /-- 1: a frame is open. -/
  | active
  /-- 2: a fault was raised and not yet cleared. -/
  | fault
  deriving DecidableEq, Repr

/-- `cause` (rule R23). The values 5 to 7 are never written, so they have no name here (93 U8). -/
inductive Cause where
  /-- 0: no fault. -/
  | none
  /-- 1: `SYM s` in Active mode with `s ≥ minDictLen` (rule R181). -/
  | encodingError
  /-- 2: a command the mode does not allow (rule R189). -/
  | protocolError
  /-- 3: `START m` in Idle mode with `m` outside 2..8 (rule R189). -/
  | paramError
  /-- 4: an illegal word in Idle or Active mode (rule R182). -/
  | illegalCommand
  deriving DecidableEq, Repr

/-- What the host does next: present a command word, or raise hardware reset (rules R200, R214). -/
inductive Input where
  | command (cw : CommandWord)
  | reset
  deriving DecidableEq, Repr

/-- A sparse memory: (key, value) pairs with keys strictly rising; a key not listed is absent (log 9). -/
abbrev Memory (α : Type) := List (Nat × α)

/-- The whole state of the block, field by field the table of rule R20, and after it the model's own `pending`. -/
structure State where
  /-- Sequencing state (rule R21). -/
  mode : Mode
  /-- Cause of the fault the block is in (rule R23). -/
  cause : Cause
  /-- The command word that faulted (rule R24). -/
  finfo : CommandWord
  /-- Minimum code size of the frame (rule R27). -/
  mcs : MinCodeSize
  /-- Next assignable code (rule R28). -/
  next : CodeCount
  /-- `have`: a current match exists (rule R29). -/
  have_ : Bool
  /-- Current match (rule R30). -/
  cur : Code
  /-- The dictionary, keyed by `dictKey p s` (rule R36). -/
  dict : Memory Code
  /-- Bits packed and not yet output as bytes, the oldest at bit 0 (rule R31). -/
  acc : BitVec 19
  /-- Number of valid bits in `acc` (rule R32). -/
  nbits : BitVec 5
  /-- The packer's own copy of the growth schedule (rule R33). -/
  pk_next : CodeCount
  /-- The next match code is the first after a Clear (rule R34). -/
  pk_first : Bool
  /-- Number of bytes in the block buffer (rule R35). -/
  blen : BitVec 8
  /-- The block buffer, cell 0 first (rule R37). -/
  blk : List Byte
  /-- Every output token so far, oldest first (rule R38). -/
  out : List OutToken
  /-- THE MODEL'S OWN: what the host will present, next first (log 1). No rule of the block reads it but the fetch. -/
  pending : List Input
  deriving DecidableEq, Repr

/-- The state right after hardware reset (rule R201); `pending` empty is the model's choice (log 1). -/
def State.reset : State where
  mode := .idle
  cause := .none
  finfo := 0
  mcs := 0
  next := 0
  have_ := false
  cur := 0
  dict := []
  acc := 0
  nbits := 0
  pk_next := 0
  pk_first := false
  blen := 0
  blk := []
  out := []
  pending := []

/-- Reasons the machine stops with a fault. There is none: the spec gives every word in every mode an outcome
(92 D24, rule R214), and the block's own four faults are entered as Fault mode, a next state (rule R185). -/
inductive Fault where
  deriving DecidableEq, Repr

/-- Reasons a meaning is refused. -/
inductive Refusal where
  /-- Raised only by an arm of `exec` whose instruction has no meaning yet (safe); no arm raises it. -/
  | notModelled (mnemonic : String)
  deriving DecidableEq, Repr

end Sys2Proof.Machine
end

