-- ==== Sys2Proof/Machine/Memory.lean ====
section
/-! DEFINITION. Sparse memories in canonical form (the dictionary is one), and the two private memories of the
block with their primitives (20_memory.md rules R50 to R57; 00_scope.md rule R10). -/

namespace Sys2Proof.Machine

/-- What the memory holds at key `k`; `none` where nothing is listed. -/
def Memory.read {α : Type} (mem : Memory α) (k : Nat) : Option α :=
  match mem with
  | [] => none
  | (k', v) :: rest => if k' = k then some v else Memory.read rest k

/-- Write `v` at key `k`, keeping the keys strictly rising. -/
def Memory.write {α : Type} (mem : Memory α) (k : Nat) (v : α) : Memory α :=
  match mem with
  | [] => [(k, v)]
  | (k', v') :: rest =>
    if k < k' then (k, v) :: (k', v') :: rest
    else if k = k' then (k, v) :: rest
    else (k', v') :: Memory.write rest k v

/-- Every listed key is above `b`, and the keys rise strictly. -/
def Memory.risesAbove {α : Type} (b : Nat) : Memory α → Bool
  | [] => true
  | (k, _) :: rest => decide (b < k) && Memory.risesAbove k rest

/-- The canonical form: keys strictly rising. An unlisted key is absent, so no listed entry equals what an
unlisted key reads as. -/
def Memory.wf {α : Type} : Memory α → Bool
  | [] => true
  | (k, _) :: rest => Memory.risesAbove k rest

/-- The key of the dictionary cell `(p, s)`: the 20-bit number `{p, s}` (rule R50). -/
def dictKey (p : Code) (s : Symbol) : Nat := (p ++ s).toNat

/-- `DictLookup(p, s)` (rule R51). -/
def dictLookup (p : Code) (s : Symbol) (st : State) : Option Code := st.dict.read (dictKey p s)

/-- `DictInsert(p, s, c)` (rule R52). -/
def dictInsert (p : Code) (s : Symbol) (c : Code) (st : State) : State :=
  { st with dict := st.dict.write (dictKey p s) c }

/-- `DictClear()` (rule R53). -/
def dictClear (st : State) : State := { st with dict := [] }

/-- `BlkRead(i)` (rule R56). A cell that nothing has written gives the free value of Config; the rule says it is
never read (log 6). -/
def blkRead (i : Nat) (st : State) : Byte := st.blk.getD i (Config.unwrittenBlkCell i)

/-- `BlkWrite(i, b)` (rule R56), called only with `i = blen`, the length of the buffer: the byte becomes cell `i`,
and no cell above it is state (rules R37, D29). -/
def blkWrite (i : Nat) (b : Byte) (st : State) : State := { st with blk := st.blk.take i ++ [b] }

/-- `Out(b, last)` (rule R57). -/
def outToken (b : Byte) (last : Bool) (st : State) : State :=
  { st with out := st.out ++ [{ byte := b, last := last }] }

end Sys2Proof.Machine
end

