-- ==== Sys2Proof/Machine/Operands.lean ====
section
/-! DEFINITION. The per-frame constants, the literal map and the width function (00_scope.md rules R5, R6;
40_lzw_encoder.md rule R101). -/

namespace Sys2Proof.Machine

/-- `minDictLen = 2^mcs`, the number of literal codes (rule R5). -/
def minDictLen (m : MinCodeSize) : Nat := 2 ^ m.toNat

/-- `ClearCode = minDictLen` (rule R5), as a code. -/
def clearCode (m : MinCodeSize) : Code := BitVec.ofNat 12 (minDictLen m)

/-- `EndCode = minDictLen + 1` (rule R5), as a code. -/
def endCode (m : MinCodeSize) : Code := BitVec.ofNat 12 (minDictLen m + 1)

/-- `First = minDictLen + 2` (rule R5), as a value of `next` or `pk_next`. -/
def firstCode (m : MinCodeSize) : CodeCount := BitVec.ofNat 13 (minDictLen m + 2)

/-- The literal code of a symbol is the symbol itself (rule R101). -/
def literalCode (s : Symbol) : Code := s.setWidth 12

/-- `W(n)`: the least `w` with `2^w ≥ n`, capped at 12 (rules R4, R6). On the range `2 ≤ n ≤ 4096` of rule R6
the cap never binds (log 11). -/
def codeWidth (n : Nat) : Nat :=
  ((List.range Config.maxW).find? (fun w => decide (n ≤ 2 ^ w))).getD Config.maxW

/-- Whether the code is a match code, neither Clear nor End (rules R78, R131). -/
def isMatchCode (m : MinCodeSize) (c : Code) : Bool := c != clearCode m && c != endCode m

/-- Whether the symbol is in the table's range, `s < minDictLen` (rules R105, R181, D30). -/
def symbolInRange (m : MinCodeSize) (s : Symbol) : Bool := decide (s.toNat < minDictLen m)

/-- The dictionary has capacity: `next < 4096` (rules R28, R105, D7). -/
def hasRoom (st : State) : Bool := decide (st.next.toNat < Config.cap)

end Sys2Proof.Machine
end

