-- ==== Sys2Proof/Machine/Flags.lean ====
section
/-! DEFINITION. The one-bit state (10_state.md rule R41: the block has no condition codes), and the status word and
fault output the host reads (rules R25, R26). -/

namespace Sys2Proof.Machine

/-- The 2-bit value of `mode` (rule R21). -/
def Mode.bits : Mode → BitVec 2
  | .idle => 0
  | .active => 1
  | .fault => 2

/-- The 3-bit value of `cause` (rules R23, R180). -/
def Cause.bits : Cause → BitVec 3
  | .none => 0
  | .encodingError => 1
  | .protocolError => 2
  | .paramError => 3
  | .illegalCommand => 4

/-- `STATUS`, the 32-bit read-only word the host reads: `[1:0]` mode, `[4:2]` cause, `[15:5]` zero, `[31:16]`
finfo. A read has no side effect (rule R25). -/
def State.status (st : State) : BitVec 32 := st.finfo ++ 0#11 ++ st.cause.bits ++ st.mode.bits

/-- `fault_o`, the fault output (rules R26, R190). -/
def State.faultO (st : State) : Bool := decide (st.mode = .fault)

/-- `pk_first` and `pk_next` as a code is about to be packed (rule R131, first lines): Clear and End do not move the
schedule; the first match code after a Clear only lowers `pk_first`; any other match code counts the insertion
that followed the match code before it, unless the dictionary was full. -/
def moveSchedule (c : Code) (st : State) : State :=
  if isMatchCode st.mcs c then
    if st.pk_first then { st with pk_first := false }
    else if st.pk_next.toNat < Config.cap then { st with pk_next := st.pk_next + 1 }
    else st
  else st

/-- `pk_first` and `pk_next` once a code is packed (rule R131, last lines): a Clear restarts the schedule. -/
def restartSchedule (c : Code) (st : State) : State :=
  if c = clearCode st.mcs then { st with pk_next := firstCode st.mcs, pk_first := true } else st

end Sys2Proof.Machine
end

