-- ==== Sys2Proof/Machine/Ops.lean ====
section
/-! DEFINITION. The operations the commands share: fault entry and the return from it (60_exceptions.md), hardware
reset (70_reset_and_hazards.md), the BitPacker's procedures (41_bitpacker.md rules R130 to R134), `Emit`
(40_lzw_encoder.md rule R100), and taking the host's next input. -/

namespace Sys2Proof.Machine

/-! ### Faults and reset -/

/-- `raise X(cw)`: fault entry, exactly these three writes (rule R185). Every caller raises before its first write
(rule R184). -/
def raiseFault (x : Cause) (cw : CommandWord) (st : State) : State :=
  { st with cause := x, finfo := cw, mode := .fault }

/-- The return from a fault and from anything else: what `ABORT` writes (rules R107, R187). -/
def returnToIdle (st : State) : State :=
  { dictClear st with
    mcs := 0, next := 0, have_ := false, cur := 0
    acc := 0, nbits := 0, pk_next := 0, pk_first := false, blen := 0, blk := []
    cause := .none, finfo := 0
    mode := .idle }

/-- Hardware reset: every register, memory and the output history at the reset value (rules R200, R201). What the
host will present later is not the block's to clear (log 3). -/
def hardwareReset (st : State) : State := { State.reset with pending := st.pending }

/-- An illegal word: dropped in Fault mode (rule R186), `IllegalCommand` in Idle and Active (rule R182). -/
def illegalWord (cw : CommandWord) (st : State) : State :=
  match st.mode with
  | .fault => st
  | .idle => raiseFault .illegalCommand cw st
  | .active => raiseFault .illegalCommand cw st

/-! ### The BitPacker -/

/-- The tokens of the payload: `BlkRead(i)` for `i` in `0 .. blen−1`, each with `last = 0` (rule R134). -/
def payloadTokens (st : State) : List OutToken :=
  (List.range st.blen.toNat).map fun i => { byte := blkRead i st, last := false }

/-- `FlushBlock()` (rule R134). -/
def flushBlock (st : State) : State :=
  { st with
    out := (outToken st.blen false st).out ++ payloadTokens st
    blen := 0
    blk := [] }

/-- The first two lines of `PushByte(b)` (rule R133): the byte becomes cell `blen`, and `blen` counts it. -/
def storeByte (b : Byte) (st : State) : State :=
  { blkWrite st.blen.toNat b st with blen := st.blen + 1 }

/-- The last line of `PushByte(b)` (rule R133): eager, on the 255th byte. -/
def flushFull (st : State) : State := if st.blen.toNat = Config.blk then flushBlock st else st

/-- `PushByte(b)` (rule R133). -/
def pushByte (b : Byte) (st : State) : State := flushFull (storeByte b st)

/-- `PInit(m)` (rule R130). -/
def pInit (m : MinCodeSize) (st : State) : State :=
  { st with
    acc := 0, nbits := 0
    pk_next := firstCode m
    pk_first := true
    blen := 0, blk := [] }

/-- The code's bits go above the bits already waiting (rule R131): bit `i` of `c` becomes bit `nbits + i` of `acc`. -/
def appendCode (c : Code) (st : State) : State :=
  { st with
    acc := st.acc ||| (c.setWidth 19 <<< st.nbits.toNat)
    nbits := st.nbits + BitVec.ofNat 5 (codeWidth st.pk_next.toNat) }

/-- One turn of the loop of rule R131: the low byte of `acc` goes to the block buffer. -/
def drainByte (st : State) : State :=
  { pushByte (st.acc.setWidth 8) st with acc := st.acc >>> 8, nbits := st.nbits - 8 }

/-- `n` turns of the loop. -/
def drainBytes : Nat → State → State
  | 0, st => st
  | n + 1, st => drainBytes n (drainByte st)

/-- The loop `while nbits ≥ 8` of rule R131, which runs once per complete byte. -/
def drainComplete (st : State) : State := drainBytes (st.nbits.toNat / 8) st

/-- `Put(c)` (rule R131). -/
def putCode (c : Code) (st : State) : State :=
  restartSchedule c (drainComplete (appendCode c (moveSchedule c st)))

/-- The pad of rule R132: if bits are left, they go out as one byte with zeros above them. -/
def padLastByte (st : State) : State :=
  if st.nbits.toNat > 0 then { pushByte (st.acc.setWidth 8) st with acc := 0, nbits := 0 } else st

/-- The last sub-block of rule R132, if it has any byte. -/
def flushRest (st : State) : State := if st.blen.toNat > 0 then flushBlock st else st

/-- `PFlush()` (rule R132): pad, last sub-block, terminator with `last = 1`. -/
def pFlush (st : State) : State :=
  { outToken 0x00 true (flushRest (padLastByte st)) with pk_next := 0, pk_first := false }

/-! ### The LzwEncoder's side -/

/-- `Emit(c)`: the code goes to the BitPacker at once (rules R100, R160). -/
def emit (c : Code) (st : State) : State := putCode c st

/-! ### The host's next input -/

/-- The input taken, and the state without it. -/
def takeInput (st : State) : Option (Input × State) :=
  match st.pending with
  | [] => none
  | i :: rest => some (i, { st with pending := rest })

end Sys2Proof.Machine
end

