-- ==== Sys2Proof/Machine/Lzw.lean ====
section
/-! DEFINITION. The meanings of the four host commands (40_lzw_encoder.md rules R103 to R107). In Fault mode every
command but `ABORT` is dropped before anything else is looked at (rules R103, R186); then the mode, then the
operand is tested (rule R183). A fault reports the command word (rule R185), which is the encoding of the command. -/

namespace Sys2Proof.Machine

/-- The LzwEncoder's registers and dictionary at the start of a frame (rule R104, from `mcs <- m` to
`DictClear()`). -/
def beginFrame (m : MinCodeSize) (st : State) : State :=
  dictClear { st with mcs := m, next := firstCode m, have_ := false, cur := 0 }

/-- A `START` accepted (rule R104, from `mcs <- m` on). -/
def openFrame (m : MinCodeSize) (st : State) : State :=
  emit (clearCode m) { pInit m (beginFrame m st) with mode := .active }

/-- `START m` (rule R104). -/
def execStart (m : MinCodeSize) (st : State) : Host.Outcome State Fault Refusal :=
  match st.mode with
  | .fault => .next st
  | .active => .next (raiseFault .protocolError (encode (.start m)) st)
  | .idle =>
    if legalMcs m then .next (openFrame m st)
    else .next (raiseFault .paramError (encode (.start m)) st)

/-- A miss with room (rule R105): the pair (current match, `b`) gets the next assignable code. -/
def enterPair (b : Symbol) (st : State) : State :=
  { dictInsert st.cur b (st.next.setWidth 12) st with next := st.next + 1 }

/-- A miss with `next = 4096` (rule R105): emit Clear and reset the dictionary to its initial state. -/
def resetDictionary (st : State) : State :=
  { dictClear (emit (clearCode st.mcs) st) with next := firstCode st.mcs }

/-- What follows the match code of a miss: one or the other (rule R105). -/
def growOrReset (b : Symbol) (st : State) : State :=
  if hasRoom st then enterPair b st else resetDictionary st

/-- A miss (rule R105): emit the match, then grow or reset; in either case the new match is the literal of `b`. -/
def missSymbol (b : Symbol) (st : State) : State :=
  { growOrReset b (emit st.cur st) with cur := literalCode b }

/-- A `SYM` accepted (rule R105, from the test of `have` on). -/
def consumeSymbol (s : Symbol) (st : State) : State :=
  if st.have_ then
    match dictLookup st.cur s st with
    | some c => { st with cur := c }
    | none => missSymbol s st
  else { st with cur := literalCode s, have_ := true }

/-- `SYM s` (rule R105). -/
def execSym (s : Symbol) (st : State) : Host.Outcome State Fault Refusal :=
  match st.mode with
  | .fault => .next st
  | .idle => .next (raiseFault .protocolError (encode (.sym s)) st)
  | .active =>
    if symbolInRange st.mcs s then .next (consumeSymbol s st)
    else .next (raiseFault .encodingError (encode (.sym s)) st)

/-- The last match of the frame, if there is one (rule R106). -/
def emitMatch (st : State) : State := if st.have_ then emit st.cur st else st

/-- The LzwEncoder's registers and dictionary back at their Idle values (rule R106, its last three lines). -/
def endFrame (st : State) : State :=
  { dictClear st with mcs := 0, next := 0, have_ := false, cur := 0, mode := .idle }

/-- A `FINISH` accepted (rule R106, from the test of `have` on). -/
def closeFrame (st : State) : State := endFrame (pFlush (emit (endCode st.mcs) (emitMatch st)))

/-- `FINISH` (rule R106). -/
def execFinish (st : State) : Host.Outcome State Fault Refusal :=
  match st.mode with
  | .fault => .next st
  | .idle => .next (raiseFault .protocolError (encode .finish) st)
  | .active => .next (closeFrame st)

/-- `ABORT` (rule R107): legal in every mode, never faults. -/
def execAbort (st : State) : Host.Outcome State Fault Refusal := .next (returnToIdle st)

end Sys2Proof.Machine
end

