-- ==== Sys2Proof/Machine/Packer.lean ====
section
/-! DEFINITION. The meanings of the BitPacker's three tokens (41_bitpacker.md rules R130 to R132, R135). None can
fault, and none looks at `mode` (log 5). -/

namespace Sys2Proof.Machine

/-- `PINIT m` (rule R130). -/
def execPinit (m : MinCodeSize) (st : State) : Host.Outcome State Fault Refusal := .next (pInit m st)

/-- `PUT c` (rule R131). -/
def execPut (c : Code) (st : State) : Host.Outcome State Fault Refusal := .next (putCode c st)

/-- `PFLUSH` (rule R132). -/
def execPflush (st : State) : Host.Outcome State Fault Refusal := .next (pFlush st)

end Sys2Proof.Machine
end

