-- ==== Sys2Proof/Machine/Dispatch.lean ====
section
/-! DEFINITION. One arm per instruction (40_lzw_encoder.md rule R103 step 3, 41_bitpacker.md rule R135). -/

namespace Sys2Proof.Machine

def exec (i : Instr) (s : State) : Host.Outcome State Fault Refusal :=
  match i with
  | .start m => Sys2Proof.Machine.execStart m s
  | .sym b => Sys2Proof.Machine.execSym b s
  | .finish => Sys2Proof.Machine.execFinish s
  | .abort => Sys2Proof.Machine.execAbort s
  | .pinit m => Sys2Proof.Machine.execPinit m s
  | .put c => Sys2Proof.Machine.execPut c s
  | .pflush => Sys2Proof.Machine.execPflush s

end Sys2Proof.Machine
end

