-- ==== Sys2Proof/Machine/Port.lean ====
section
/-! DEFINITION. The command port: what the block does with a command word (40_lzw_encoder.md rule R103). -/

namespace Sys2Proof.Machine

/-- A command word at the host port: decoded, then executed (rule R103). In Fault mode a decoded command other than
`ABORT` is dropped by its own meaning and an illegal word by `illegalWord`, so the order of rule R103 is kept. -/
def executeWord (cw : CommandWord) (s : State) : Host.Outcome State Fault Refusal :=
  match decodeCommand cw with
  | .ok i => exec i s
  | .error _ => .next (illegalWord cw s)

/-- An input of the host: a command word or hardware reset (rules R200, R214). -/
def executeInput (i : Input) (s : State) : Host.Outcome State Fault Refusal :=
  match i with
  | .command cw => executeWord cw s
  | .reset => .next (hardwareReset s)

end Sys2Proof.Machine
end

