-- ==== Sys2Proof/Machine/Step.lean ====
section
/-! DEFINITION. One step of the block: the host's next input, executed whole (00_scope.md rule R7, 42_composition.md
rule R160). There is no program counter and no fetch from memory (10_state.md rule R21, 20_memory.md rule R66): the
step takes the head of `pending`. -/

namespace Sys2Proof.Machine

/-- One step. With no input the block waits, unchanged (rule R203; log 2). -/
def step (s : State) : Host.Outcome State Fault Refusal :=
  match takeInput s with
  | none => .next s
  | some (i, s') => executeInput i s'

/-- The state in which the host presents next the command word whose low `nbits` bits are `w`; what it would present
after that is unchanged (log 1). -/
def State.withFetchWord (s : State) (nbits w : Nat) : State :=
  { s with pending := .command (tableWord nbits w) :: s.pending }

end Sys2Proof.Machine
end

