-- ==== Sys2Proof/Machine/Assembler.lean ====
section
/-! DEFINITION. The assembler syntax of command lines, the pseudo-instructions and the trace notation
(30_encoding.md rules R88 to R90). Text is a list of characters. -/

namespace Sys2Proof.Assembler

/-- The text of a line before its comment (rule R88: an optional comment after `;`). -/
def beforeComment (line : List Char) : List Char := line.takeWhile (· != ';')

/-- Cut a text at its spaces (log 17); `word` holds the letters of the word being read, last first. -/
def splitFrom (word : List Char) : List Char → List (List Char)
  | [] => if word.isEmpty then [] else [word.reverse]
  | c :: rest =>
    if c = ' ' then (if word.isEmpty then splitFrom [] rest else word.reverse :: splitFrom [] rest)
    else splitFrom (c :: word) rest

/-- The value of a decimal digit. -/
def decDigit (c : Char) : Option Nat :=
  if '0'.toNat ≤ c.toNat ∧ c.toNat ≤ '9'.toNat then some (c.toNat - '0'.toNat) else none

/-- The value of a hexadecimal digit, in either case (log 17). -/
def hexDigit (c : Char) : Option Nat :=
  if 'A'.toNat ≤ c.toNat ∧ c.toNat ≤ 'F'.toNat then some (c.toNat - 'A'.toNat + 10)
  else if 'a'.toNat ≤ c.toNat ∧ c.toNat ≤ 'f'.toNat then some (c.toNat - 'a'.toNat + 10)
  else decDigit c

/-- The number that digits in a base stand for, the first the most significant. -/
def digits (base : Nat) (digit : Char → Option Nat) : Nat → List Char → Option Nat
  | n, [] => some n
  | n, c :: rest => (digit c).bind fun d => digits base digit (n * base + d) rest

/-- A decimal number, at least one digit. -/
def decimal (text : List Char) : Option Nat := if text.isEmpty then none else digits 10 decDigit 0 text

/-- `0x` and exactly `k` hexadecimal digits. -/
def hexadecimal (k : Nat) (text : List Char) : Option Nat :=
  match text with
  | '0' :: 'x' :: ds => if ds.length = k then digits 16 hexDigit 0 ds else none
  | _ => none

/-- A number no greater than `max`. -/
def atMost (max : Nat) (n : Option Nat) : Option Nat := n.bind fun v => if v ≤ max then some v else none

/-- One line of a program as its command word (rule R88): `START n`, `SYM n`, `FINISH`, `ABORT`, `.word n`. -/
def assembleLine (line : List Char) : Option CommandWord :=
  match splitFrom [] (beforeComment line) with
  | [op] =>
    if op = ['F', 'I', 'N', 'I', 'S', 'H'] then some (encode .finish)
    else if op = ['A', 'B', 'O', 'R', 'T'] then some (encode .abort)
    else none
  | [op, arg] =>
    if op = ['S', 'T', 'A', 'R', 'T'] then
      (atMost 15 (decimal arg)).map fun n => encode (.start (BitVec.ofNat 4 n))
    else if op = ['S', 'Y', 'M'] then
      (atMost 255 ((decimal arg).or (hexadecimal 2 arg))).map fun n => encode (.sym (BitVec.ofNat 8 n))
    else if op = ['.', 'w', 'o', 'r', 'd'] then (hexadecimal 4 arg).map (BitVec.ofNat 16)
    else none
  | _ => none

/-- `SYMS s1 ... sn` (rule R89). -/
def syms (ss : List Symbol) : List CommandWord := ss.map fun s => encode (.sym s)

/-- `SYMR s, n` (rule R89). -/
def symr (s : Symbol) (n : Nat) : List CommandWord := List.replicate n (encode (.sym s))

/-- `FRAME mcs, [s1, ..., sn]` (rule R89). -/
def frame (m : MinCodeSize) (ss : List Symbol) : List CommandWord :=
  encode (.start m) :: (syms ss ++ [encode .finish])

/-- One hexadecimal digit in capitals, as the vectors of 95_test_vectors.md are written. -/
def hexChar (n : Nat) : Char := if n < 10 then Char.ofNat ('0'.toNat + n) else Char.ofNat ('A'.toNat + (n - 10))

/-- An output token in trace notation: two hexadecimal digits, and `*` if `last = 1` (rule R90). -/
def traceToken (t : OutToken) : List Char :=
  [hexChar (t.byte.toNat / 16), hexChar (t.byte.toNat % 16)] ++ if t.last then ['*'] else []

/-- An emitted code in trace notation, `c/w` in decimal (rule R90). -/
def traceCode (c w : Nat) : List Char := Nat.toDigits 10 c ++ ['/'] ++ Nat.toDigits 10 w

/-- A packer token in trace notation (rule R90); `none` for a host command. -/
def traceTk (i : Instr) : Option (List Char) :=
  match i with
  | .pinit m => some (['P', 'I', 'N', 'I', 'T', ' '] ++ Nat.toDigits 10 m.toNat)
  | .put c => some (['P', 'U', 'T', ' '] ++ Nat.toDigits 10 c.toNat)
  | .pflush => some ['P', 'F', 'L', 'U', 'S', 'H']
  | .start _ => none
  | .sym _ => none
  | .finish => none
  | .abort => none

end Sys2Proof.Assembler
end

