-- ==== Sys2Proof/Machine/Batch.lean ====
section
/-! DEFINITION. The spec's batch functions, written from their own pseudocode over plain numbers and lists and apart
from the step-by-step machine: `LzwCodes` (40_lzw_encoder.md rule R109), `PackBits`, `Blockify`, `Deblockify`
(41_bitpacker.md rules R138, R139, R141), `EncodeFrame` and the harness decoder `LzwDecode` (42_composition.md
rules R161, R167). The decoder is no part of the block. -/

namespace Sys2Proof.Batch

open Sys2Proof.Machine (codeWidth)

/-! ### LzwCodes -/

/-- The variables of the loop of rule R109; `codes` is its `S`, `dict` its `D`. -/
structure Walk where
  next : Nat
  dict : List ((Nat × Nat) × Nat)
  cur : Nat
  codes : List (Nat × Nat)
  deriving DecidableEq, Repr

/-- One turn of the loop of rule R109, for the symbol `s`. -/
def walkSymbol (mcs : Nat) (w : Walk) (s : Nat) : Walk :=
  match w.dict.lookup (w.cur, s) with
  | some c => { w with cur := c }
  | none =>
    if w.next < Config.cap then
      { next := w.next + 1
        dict := ((w.cur, s), w.next) :: w.dict
        cur := s
        codes := w.codes ++ [(w.cur, codeWidth w.next)] }
    else
      { next := 2 ^ mcs + 2
        dict := []
        cur := s
        codes := w.codes ++ [(w.cur, codeWidth w.next), (2 ^ mcs, codeWidth w.next)] }

/-- The walk over the symbols `B[0] .. B[|B|−1]`, `B[0]` being `b`. -/
def walk (mcs b : Nat) (rest : List Nat) : Walk :=
  rest.foldl (walkSymbol mcs)
    { next := 2 ^ mcs + 2, dict := [], cur := b, codes := [(2 ^ mcs, codeWidth (2 ^ mcs + 2))] }

/-- `LzwCodes(B, mcs)` (rule R109), for `2 ≤ mcs ≤ 8` and symbols below `2^mcs`; elsewhere the rule leaves it
undefined and no claim is made (log 15). -/
def lzwCodes (B : List Nat) (mcs : Nat) : List (Nat × Nat) :=
  match B with
  | [] => [(2 ^ mcs, codeWidth (2 ^ mcs + 2)), (2 ^ mcs + 1, codeWidth (2 ^ mcs + 2))]
  | b :: rest =>
    let w := walk mcs b rest
    w.codes ++ [(w.cur, codeWidth w.next), (2 ^ mcs + 1, codeWidth w.next)]

/-! ### PackBits -/

/-- The variables of rule R138: `acc`, `n`, `X`. -/
structure Pack where
  acc : Nat
  n : Nat
  bytes : List Byte
  deriving DecidableEq, Repr

/-- `k` turns of the inner loop of rule R138. -/
def Pack.takeBytes : Nat → Pack → Pack
  | 0, p => p
  | k + 1, p =>
    Pack.takeBytes k
      { acc := p.acc >>> 8, n := p.n - 8, bytes := p.bytes ++ [BitVec.ofNat 8 p.acc] }

/-- One turn of the outer loop of rule R138; the inner loop runs once per complete byte. -/
def Pack.addCode (p : Pack) (cw : Nat × Nat) : Pack :=
  let p := { p with acc := p.acc ||| (cw.1 <<< p.n), n := p.n + cw.2 }
  Pack.takeBytes (p.n / 8) p

/-- `PackBits(S)` (rule R138). -/
def packBits (S : List (Nat × Nat)) : List Byte :=
  let p := S.foldl Pack.addCode { acc := 0, n := 0, bytes := [] }
  if p.n > 0 then p.bytes ++ [BitVec.ofNat 8 p.acc] else p.bytes

/-! ### Blockify and Deblockify -/

/-- `q` full blocks of 255 bytes, then the rest as one shorter block if it is not empty (rule R139). -/
def blocks : Nat → List Byte → List Byte
  | 0, X => if X.length > 0 then BitVec.ofNat 8 X.length :: X else []
  | q + 1, X => 255#8 :: (X.take Config.blk ++ blocks q (X.drop Config.blk))

/-- `Blockify(X)` (rule R139). -/
def blockify (X : List Byte) : List Byte := blocks (X.length / Config.blk) X ++ [0x00]

/-- `Deblockify` with `fuel` blocks at most; `none` if the bytes run out before the terminator (log 14). -/
def deblockifyFrom : Nat → List Byte → Option (List Byte)
  | 0, _ => none
  | _ + 1, [] => none
  | fuel + 1, n :: Y =>
    if n = 0 then some []
    else if Y.length < n.toNat then none
    else (deblockifyFrom fuel (Y.drop n.toNat)).map (Y.take n.toNat ++ ·)

/-- `Deblockify(Y)` (rule R141). -/
def deblockify (Y : List Byte) : Option (List Byte) := deblockifyFrom Y.length Y

/-! ### EncodeFrame -/

/-- `EncodeFrame(B, mcs)` (rule R161). -/
def encodeFrame (B : List Nat) (mcs : Nat) : List Byte := blockify (packBits (lzwCodes B mcs))

/-! ### The harness decoder -/

/-- `bit(j)` of rule R167: a bit past the end reads as 0 (D28). -/
def bitAt (X : List Byte) (j : Nat) : Bool := (X.getD (j / 8) 0).getLsbD (j % 8)

/-- `read(w)` of rule R167, at position `pos`. -/
def readBits (X : List Byte) (pos w : Nat) : Nat :=
  ((List.range w).map fun i => if bitAt X (pos + i) then 2 ^ i else 0).sum

/-- The variables of rule R167; `table` is its `T`, `decoded` its `B`. -/
structure Decoder where
  pos : Nat
  width : Nat
  avail : Nat
  table : List (Nat × List Nat)
  prev : Option Nat
  decoded : List Nat
  deriving DecidableEq, Repr

/-- How one turn of the decoder's loop ends. -/
inductive DecodeTurn where
  | more (d : Decoder)
  | done (B : List Nat)
  /-- A code no encoder of the spec writes there: it has no string (log 14). -/
  | stuck
  deriving DecidableEq, Repr

/-- `str(c)` of rule R167. -/
def Decoder.str (d : Decoder) (mcs c : Nat) : Option (List Nat) :=
  if c < 2 ^ mcs then some [c] else d.table.lookup c

/-- The string of the code `c` read after `prev`: its own where it has one, else, for `c = avail`, the string of
`prev` and its first symbol again (rule R167). -/
def Decoder.entry (d : Decoder) (mcs prev c : Nat) : Option (List Nat) :=
  if c < d.avail then d.str mcs c
  else if c = d.avail then (d.str mcs prev).bind fun p => p.head?.map fun h => p ++ [h]
  else none

/-- The table grows by `str(prev) ++ [e[0]]`, and the width with it (rule R167). -/
def Decoder.grow (d : Decoder) (p e : List Nat) : Decoder :=
  if d.avail < Config.cap then
    let avail := d.avail + 1
    { d with
      table := (d.avail, p ++ e.take 1) :: d.table
      avail := avail
      width := if avail = 2 ^ d.width ∧ d.width < Config.maxW then d.width + 1 else d.width }
  else d

/-- One turn of the loop of rule R167. -/
def Decoder.turn (X : List Byte) (mcs : Nat) (d : Decoder) : DecodeTurn :=
  let c := readBits X d.pos d.width
  let d := { d with pos := d.pos + d.width }
  if c = 2 ^ mcs then
    .more { d with table := [], avail := 2 ^ mcs + 2, width := mcs + 1, prev := none }
  else if c = 2 ^ mcs + 1 then .done d.decoded
  else
    match d.prev with
    | none =>
      match d.str mcs c with
      | some e => .more { d with decoded := d.decoded ++ e, prev := some c }
      | none => .stuck
    | some prev =>
      match d.str mcs prev, d.entry mcs prev c with
      | some p, some e => .more { d.grow p e with decoded := d.decoded ++ e, prev := some c }
      | _, _ => .stuck

/-- At most `fuel` turns of the loop. -/
def Decoder.run (X : List Byte) (mcs : Nat) : Nat → Decoder → Option (List Nat)
  | 0, _ => none
  | fuel + 1, d =>
    match d.turn X mcs with
    | .more d' => Decoder.run X mcs fuel d'
    | .done B => some B
    | .stuck => none

/-- `LzwDecode(X, mcs)` (rule R167). Every turn reads at least one bit, so a stream that ends with End within its
bytes is decoded within `8·|X| + 1` turns (log 14). -/
def lzwDecode (X : List Byte) (mcs : Nat) : Option (List Nat) :=
  Decoder.run X mcs (8 * X.length + 1)
    { pos := 0, width := mcs + 1, avail := 2 ^ mcs + 2, table := [], prev := none, decoded := [] }

end Sys2Proof.Batch
end

