-- ==== Sys2Proof/Machine/Blocks.lean ====
section
/-! DEFINITION. Several blocks in one system (60_exceptions.md rules R192, R193): the product of their states, any
block stepping next. They share nothing. -/

namespace Sys2Proof.Machine

/-- The states of the blocks of a system (rule R193). -/
abbrev Blocks := List State

/-- Block `k` takes one step; the others are untouched. A number with no block does nothing. -/
def stepBlock (k : Nat) (bs : Blocks) : Host.Outcome Blocks Fault Refusal :=
  match bs[k]? with
  | none => .next bs
  | some s =>
    match step s with
    | .next t => .next (bs.set k t)
    | .fault r => .fault r
    | .refused r => .refused r

/-- An interleaving: the numbers of the blocks in the order they step (rule R193). -/
def runBlocks : List Nat → Blocks → Host.Outcome Blocks Fault Refusal
  | [], bs => .next bs
  | k :: ks, bs =>
    match stepBlock k bs with
    | .next bs' => runBlocks ks bs'
    | .fault r => .fault r
    | .refused r => .refused r

end Sys2Proof.Machine
end

