-- ==== Sys2Proof/Machine/CodeStream.lean ====
section
/-! DEFINITION. The code stream and the token stream of a run (40_lzw_encoder.md rule R100, 30_encoding.md rule R76),
and sequences of commands. They are no state of the block: they are read off the state before each command, for
statements to speak of. -/

namespace Sys2Proof.Machine

/-- The calls of `Emit` that a command makes, in order: the code, and the state in which `Emit` is called (rules R100,
R104 to R106). -/
def emissions (i : Instr) (s : State) : List (Code × State) :=
  match i, s.mode with
  | .start m, .idle =>
    if legalMcs m then [(clearCode m, { pInit m (beginFrame m s) with mode := .active })] else []
  | .sym b, .active =>
    if symbolInRange s.mcs b && s.have_ && (dictLookup s.cur b s).isNone then
      if hasRoom s then [(s.cur, s)] else [(s.cur, s), (clearCode s.mcs, emit s.cur s)]
    else []
  | .finish, .active => (if s.have_ then [(s.cur, s)] else []) ++ [(endCode s.mcs, emitMatch s)]
  | _, _ => []

/-- The codes a command emits, each with the width `W(next)` of the moment (rule R100). -/
def emittedCodes (i : Instr) (s : State) : List (Nat × Nat) :=
  (emissions i s).map fun e => (e.1.toNat, codeWidth e.2.next.toNat)

/-- The packer tokens a host command sends, in order (rules R76, R135, R160): `PINIT` before the codes of a `START`,
`PFLUSH` after those of a `FINISH`. -/
def sentTokens (i : Instr) (s : State) : List Instr :=
  let puts := (emissions i s).map fun e => Instr.put e.1
  match i, s.mode with
  | .start m, .idle => if legalMcs m then .pinit m :: puts else []
  | .finish, .active => puts ++ [.pflush]
  | _, _ => puts

/-- Execute instructions one after another, as long as each answers a next state. -/
def execAll : List Instr → State → Host.Outcome State Fault Refusal
  | [], s => .next s
  | i :: is, s =>
    match exec i s with
    | .next t => execAll is t
    | .fault r => .fault r
    | .refused r => .refused r

/-- The code stream of a sequence of commands (rule R100). -/
def codeStream : List Instr → State → List (Nat × Nat)
  | [], _ => []
  | i :: is, s =>
    emittedCodes i s ++
      match exec i s with
      | .next t => codeStream is t
      | .fault _ => []
      | .refused _ => []

/-- `str(c)` of rule R108, read off the dictionary: of a code that no entry has as its value, the literal symbol; of
another, the string of the parent and then the entry's symbol. `fuel` bounds the depth; 4096 is more than any
dictionary of a run has (rule R54). -/
def codeString : Nat → Memory Code → Code → List Symbol
  | 0, _, c => [c.setWidth 8]
  | fuel + 1, dict, c =>
    match dict.find? (fun e => decide (e.2 = c)) with
    | none => [c.setWidth 8]
    | some e => codeString fuel dict (BitVec.ofNat 12 (e.1 / 256)) ++ [BitVec.ofNat 8 e.1]

/-- The strings of the match codes a command emits, one after another, Clear and End skipped (rule R108). -/
def emittedSymbols (i : Instr) (s : State) : List Symbol :=
  (emissions i s).flatMap fun e => if isMatchCode e.2.mcs e.1 then codeString Config.cap e.2.dict e.1 else []

/-- The strings of the match codes of a sequence of commands, one after another (rule R108). -/
def spelledSymbols : List Instr → State → List Symbol
  | [], _ => []
  | i :: is, s =>
    emittedSymbols i s ++
      match exec i s with
      | .next t => spelledSymbols is t
      | .fault _ => []
      | .refused _ => []

/-- The commands that open a frame and give it symbols: `START m; SYM b_0; ...; SYM b_(n-1)` (rule R204). -/
def frameSoFar (m : MinCodeSize) (B : List Symbol) : List Instr := .start m :: B.map .sym

/-- The commands of one frame: `START m; SYM b_0; ...; SYM b_(n-1); FINISH` (rules R89, R204). -/
def frameCommands (m : MinCodeSize) (B : List Symbol) : List Instr := frameSoFar m B ++ [.finish]

/-- Commands as inputs at the host port. -/
def asInputs (is : List Instr) : List Input := is.map fun i => .command (encode i)

/-- Symbols as the numbers the batch functions work on. -/
def symbolValues (B : List Symbol) : List Nat := B.map BitVec.toNat

/-- Bytes as output tokens with `last = 0` (rule R77). -/
def dataTokens (bytes : List Byte) : List OutToken := bytes.map fun b => { byte := b, last := false }

/-- A byte sequence as the output tokens of one whole frame: `last = 1` on the final byte and on no other
(rules R77, R163). -/
def frameTokens (bytes : List Byte) : List OutToken :=
  dataTokens bytes.dropLast ++ bytes.getLast?.toList.map fun b => { byte := b, last := true }

/-- `PushByte` of bytes one after another (rule R133). -/
def pushBytes (bytes : List Byte) (s : State) : State := bytes.foldl (fun st b => pushByte b st) s

/-- The low `n` bytes of a number, least significant first: the data bytes that leave `acc` (rules R58, R131). -/
def lowBytes (n v : Nat) : List Byte := (List.range n).map fun i => BitVec.ofNat 8 (v >>> (8 * i))

/-- The width the packer gives the code `c` next: `W(pk_next)` once the schedule has moved (rule R131). -/
def packerWidth (c : Code) (s : State) : Nat := codeWidth (moveSchedule c s).pk_next.toNat

/-- The codes of a list of `PUT`s with the widths the packer gives them on the way (rule R140, its `S`). -/
def packerCodes : List Code → State → List (Nat × Nat)
  | [], _ => []
  | c :: cs, s => (c.toNat, packerWidth c s) :: packerCodes cs (putCode c s)

end Sys2Proof.Machine
end

