-- ==== Sys2Proof/Safety.lean ====
section
/-! DEFINITION. What counts as a good state: the laws of the state (10_state.md rules R23, R24, R39, R40) and the
invariants of 42_composition.md rule R164, and what a run is. -/

namespace Sys2Proof.Machine

/-- The Idle values: every register of rule R20 except `out` (and `mode`, `cause`, `finfo`, said apart) at its reset
value (rule R39). -/
structure Canonical (s : State) : Prop where
  mcs : s.mcs = 0
  next : s.next = 0
  have_ : s.have_ = false
  cur : s.cur = 0
  dict : s.dict = []
  acc : s.acc = 0
  nbits : s.nbits = 0
  pk_next : s.pk_next = 0
  pk_first : s.pk_first = false
  blen : s.blen = 0
  blk : s.blk = []

/-- Rule R164 I4: the key of a dictionary entry is `{p, s}` with `s` a legal symbol and `p` a literal or the value of
an earlier entry. -/
def LegalEntry (m : MinCodeSize) (e : Nat × Code) : Prop :=
  e.1 < 2 ^ 20 ∧ e.1 % 256 < minDictLen m ∧
    (e.1 / 256 < minDictLen m ∨ (minDictLen m + 2 ≤ e.1 / 256 ∧ e.1 / 256 < e.2.toNat))

/-- What holds of the registers and memories while a frame is open (rule R40, rule R164 I1 to I9). -/
structure FrameOpen (s : State) : Prop where
  /-- I1. -/
  mcs_legal : legalMcs s.mcs = true
  /-- I2. -/
  next_low : minDictLen s.mcs + 2 ≤ s.next.toNat
  next_high : s.next.toNat ≤ Config.cap
  /-- The dictionary is in canonical form (log 9). -/
  dict_wf : s.dict.wf = true
  /-- I3: one entry per code in `[First, next)`, the values exactly those, each once. -/
  dict_size : s.dict.length + (minDictLen s.mcs + 2) = s.next.toNat
  dict_values : ∀ e ∈ s.dict, minDictLen s.mcs + 2 ≤ e.2.toNat ∧ e.2.toNat < s.next.toNat
  dict_once : (s.dict.map Prod.snd).Nodup
  /-- I4. -/
  dict_keys : ∀ e ∈ s.dict, LegalEntry s.mcs e
  /-- I5. -/
  match_code : s.have_ = true → s.cur.toNat < s.next.toNat ∧ isMatchCode s.mcs s.cur = true
  no_match : s.have_ = false → s.cur = 0 ∧ s.next = firstCode s.mcs ∧ s.dict = []
  /-- I8. -/
  nbits_low : s.nbits.toNat ≤ 7
  acc_low : s.acc.toNat < 2 ^ s.nbits.toNat
  /-- I9; the buffer holds `blen` bytes (rule R37). -/
  blen_low : s.blen.toNat ≤ 254
  blk_len : s.blk.length = s.blen.toNat
  /-- I7, between commands: after a Clear both counts are `First`; else the packer has counted every insertion but
  the one after the latest match code. -/
  after_clear : s.pk_first = true → s.pk_next = firstCode s.mcs ∧ s.next = firstCode s.mcs
  lag : s.pk_first = false → s.have_ = true ∧ s.pk_next.toNat + 1 = s.next.toNat ∧
    minDictLen s.mcs + 2 ≤ s.pk_next.toNat

/-- The invariant of the block between commands. In Fault mode the registers are those the faulting command found
(rule R185), so Idle's or an open frame's. -/
structure BlockInvariant (s : State) : Prop where
  idle : s.mode = .idle → Canonical s
  active : s.mode = .active → FrameOpen s
  frozen : s.mode = .fault → Canonical s ∨ FrameOpen s
  /-- Rule R23. -/
  cause : s.cause = .none ↔ s.mode ≠ .fault
  /-- Rule R24. -/
  finfo : s.mode ≠ .fault → s.finfo = 0

/-- `n` steps of the machine, stopping at a fault or refusal. -/
def run (n : Nat) (s : State) : Host.Outcome State Fault Refusal := Host.Core.run Sys2Proof.core n s

/-- What the host port makes of a list of inputs: they are presented one after another (rules R204, R214), after them
whatever `s` had pending. -/
def present (is : List Input) (s : State) : State := { s with pending := is ++ s.pending }

/-- The state `s` in Fault mode for the reason `x` and the word `cw`, all else as it was (rule R185). -/
def faulted (x : Cause) (cw : CommandWord) (s : State) : State :=
  { s with mode := .fault, cause := x, finfo := cw }

/-- The 274 legal command words, as numbers (rules R72 to R75, R84). -/
def legalWord (cw : CommandWord) : Bool :=
  decide (0x1000 ≤ cw.toNat ∧ cw.toNat ≤ 0x100F) || decide (0x2000 ≤ cw.toNat ∧ cw.toNat ≤ 0x20FF) ||
    decide (cw.toNat = 0x3000) || decide (cw.toNat = 0xF000)

/-- The fault a command word raises, in the order of rule R183 and under the conditions of rule R180, read off the
word as a number; `none` if it raises none. -/
def faultOf (cw : CommandWord) (s : State) : Option Cause :=
  let op := cw.toNat / 0x1000
  if s.mode = .fault then none
  else if !legalWord cw then some .illegalCommand
  else if (op = 1 ∧ s.mode = .active) ∨ ((op = 2 ∨ op = 3) ∧ s.mode = .idle) then some .protocolError
  else if op = 1 ∧ (cw.toNat % 16 < 2 ∨ 8 < cw.toNat % 16) then some .paramError
  else if op = 2 ∧ 2 ^ s.mcs.toNat ≤ cw.toNat % 256 then some .encodingError
  else none

/-- The BitPacker's registers, memory and output, and nothing else of the state. -/
structure PackerPart where
  acc : BitVec 19
  nbits : BitVec 5
  pk_next : CodeCount
  pk_first : Bool
  blen : BitVec 8
  blk : List Byte
  out : List OutToken
  deriving DecidableEq, Repr

/-- The BitPacker's part of a state (rule R20, units BP and sink). -/
def State.packer (s : State) : PackerPart :=
  ⟨s.acc, s.nbits, s.pk_next, s.pk_first, s.blen, s.blk, s.out⟩

/-- The LzwEncoder's registers and memory and the block's status registers, and nothing else of the state. -/
structure EncoderPart where
  mode : Mode
  cause : Cause
  finfo : CommandWord
  mcs : MinCodeSize
  next : CodeCount
  have_ : Bool
  cur : Code
  dict : Memory Code
  pending : List Input
  deriving DecidableEq, Repr

/-- The LzwEncoder's part of a state (rule R20, units block and LZ), with the host's inputs. -/
def State.encoder (s : State) : EncoderPart :=
  ⟨s.mode, s.cause, s.finfo, s.mcs, s.next, s.have_, s.cur, s.dict, s.pending⟩

end Sys2Proof.Machine
end

