-- ==== Sys2Proof/Certificates/Slice0/Obligations.lean ====
section
/-! DEFINITION. The statements about the block, each from the rules of spec/ that its docstring names. They are proved
elsewhere. The field `pending` (what the host presents) is the model's own (log 1): where a statement speaks of `step`
or `run`, the words stand in `pending`; where it speaks of `exec`, the command is given. -/

open Sys2Proof Sys2Proof.Machine

/-! ### Reset and the invariant -/

/-- Rule R201: the reset values, and that `ABORT`, and any accepted `FINISH`, leave the reset state in all but `out` (and
the model's `pending`). -/
def Obligations.ResetValues : Prop :=
  (State.reset.mode = .idle ∧ State.reset.cause = .none ∧ State.reset.finfo = 0 ∧
    State.reset.status = 0x00000000 ∧ State.reset.faultO = false ∧ State.reset.mcs = 0 ∧ State.reset.next = 0 ∧
    State.reset.have_ = false ∧ State.reset.cur = 0 ∧ (∀ p b, dictLookup p b State.reset = none) ∧
    State.reset.acc = 0 ∧ State.reset.nbits = 0 ∧ State.reset.pk_next = 0 ∧ State.reset.pk_first = false ∧
    State.reset.blen = 0 ∧ State.reset.blk = [] ∧ State.reset.out = []) ∧
  (∀ s t, exec .abort s = .next t → t = { State.reset with out := t.out, pending := s.pending }) ∧
  (∀ s t, BlockInvariant s → s.mode = .active → exec .finish s = .next t →
    t = { State.reset with out := t.out, pending := s.pending })

/-- The invariant (rules R23, R24, R39, R40, R164) holds at reset. -/
def Obligations.InvariantHoldsAtReset : Prop := BlockInvariant State.reset

/-- The invariant (rules R23, R24, R39, R40, R164 I1 to I5 and I7 to I9) is kept by every step, from every state that
has it. -/
def Obligations.InvariantKeptByEveryStep : Prop := ∀ s t, BlockInvariant s → step s = .next t → BlockInvariant t

/-- From a state that has the invariant every number of steps is taken, and leads to a state that has it (rules R174,
R40): no command sequence of the host stops the block. -/
def Obligations.EveryRunGoesOn : Prop := ∀ n s, BlockInvariant s → ∃ t, run n s = .next t ∧ BlockInvariant t

/-- Rule R174: every command completes, whatever the word and whatever the state. -/
def Obligations.EveryCommandCompletes : Prop :=
  (∀ cw s, ∃ t, executeWord cw s = .next t) ∧ (∀ i s, ∃ t, exec i s = .next t) ∧ (∀ s, ∃ t, step s = .next t)

/-- Rule R39: whenever a step from a state that has the invariant ends in Idle mode, every register of rule R20 but
`out` has its reset value. -/
def Obligations.IdleIsCanonical : Prop :=
  ∀ s t, BlockInvariant s → step s = .next t → t.mode = .idle →
    t = { State.reset with out := t.out, pending := t.pending }

/-- Rule R197: an idle block that is reset loses nothing but the model's output history. -/
def Obligations.IdleBlockMayBePoweredDown : Prop :=
  ∀ s, BlockInvariant s → s.mode = .idle → executeInput .reset s = .next { s with out := [] }

/-- Rule R6: `W(n)` is the least `w` with `2^w ≥ n`, and while a frame is open the width of the next code is between
`mcs + 1` and 12. -/
def Obligations.WidthStaysInRange : Prop :=
  (∀ n, 2 ≤ n → n ≤ 4096 → n ≤ 2 ^ codeWidth n ∧ ∀ w, n ≤ 2 ^ w → codeWidth n ≤ w) ∧
  ∀ s, FrameOpen s → s.mcs.toNat + 1 ≤ codeWidth s.next.toNat ∧ codeWidth s.next.toNat ≤ 12

/-! ### The step, decoding and encoding -/

/-- A step runs the decoded command: when the host's next word decodes to `i`, the step is `exec i` with that word taken
from the host's list (rules R103, R66); `withFetchWord` presents exactly such a word. -/
def Obligations.StepRunsTheDecodedCommand : Prop :=
  (∀ s cw rest i, s.pending = .command cw :: rest → decodeCommand cw = .ok i →
    step s = exec i { s with pending := rest }) ∧
  (∀ s cw i, decodeCommand cw = .ok i → step (s.withFetchWord 16 cw.toNat) = exec i s)

/-- Rules R85 and R182: a word outside the 274 legal ones raises `IllegalCommand` in Idle and Active mode, and is dropped
without effect in Fault mode; a legal word is a command. -/
def Obligations.IllegalWords : Prop :=
  ∀ cw s,
    (legalWord cw = false → s.mode ≠ .fault → executeWord cw s = .next (faulted .illegalCommand cw s)) ∧
    (legalWord cw = false → s.mode = .fault → executeWord cw s = .next s) ∧
    (legalWord cw = true ↔ ∃ i, decodeCommand cw = .ok i)

/-- Rules R200, R203: a hardware reset puts every register at its reset value (the host's later inputs are kept, log 3),
and with nothing presented the block waits unchanged (log 2). -/
def Obligations.StepResetsAndWaits : Prop :=
  (∀ s rest, s.pending = .reset :: rest → step s = .next { State.reset with pending := rest }) ∧
  (∀ s, s.pending = [] → step s = .next s)

/-- Rules R71 to R76: which words decode to which instruction, as numbers. -/
def Obligations.WordsOfEachInstruction : Prop :=
  (∀ cw m, decodeCommand cw = .ok (.start m) ↔ cw.toNat = 0x1000 + m.toNat) ∧
  (∀ cw b, decodeCommand cw = .ok (.sym b) ↔ cw.toNat = 0x2000 + b.toNat) ∧
  (∀ cw, decodeCommand cw = .ok .finish ↔ cw.toNat = 0x3000) ∧
  (∀ cw, decodeCommand cw = .ok .abort ↔ cw.toNat = 0xF000) ∧
  (∀ tk m, decodeToken tk = .ok (.pinit m) ↔ tk.toNat = 0x1000 + m.toNat) ∧
  (∀ tk c, decodeToken tk = .ok (.put c) ↔ tk.toNat = 0x2000 + c.toNat) ∧
  (∀ tk, decodeToken tk = .ok .pflush ↔ tk.toNat = 0x3000)

/-- Decoding an encoded instruction gives it back, in either format, with every operand at every value. -/
def Obligations.DecodeOfEncode : Prop := ∀ i : Instr, decode i.format (encode i) = .ok i

/-- Encoding what a decoder read gives the word back: every word has one meaning in its format. -/
def Obligations.EncodeOfDecode : Prop :=
  ∀ f w i, decode f w = .ok i → i.format = f ∧ encode i = w

/-- The examples of rule R91. -/
def Obligations.ExampleWords : Prop :=
  decodeCommand 0x1002 = .ok (.start 2) ∧ decodeCommand 0x1008 = .ok (.start 8) ∧
  decodeCommand 0x2000 = .ok (.sym 0) ∧ decodeCommand 0x20FF = .ok (.sym 255) ∧
  decodeCommand 0x3000 = .ok .finish ∧ decodeCommand 0xF000 = .ok .abort ∧
  (∀ w ∈ [0x0000#16, 0x1010#16, 0x2100#16, 0x3001#16, 0x4000#16, 0xF001#16],
    ∃ e, decodeCommand w = .error e) ∧
  (∀ s, s.mode = .idle → executeWord 0x1001 s = .next (faulted .paramError 0x1001 s)) ∧
  (∀ s, s.mode = .idle → executeWord 0x1009 s = .next (faulted .paramError 0x1009 s)) ∧
  (∀ s, s.mode = .active → s.mcs = 2 → executeWord 0x2004 s = .next (faulted .encodingError 0x2004 s))

/-- The layout of the output token (rule R77): `last` is bit 8, the byte bits 7 to 0, and the word and the token determine
each other. -/
def Obligations.OutputTokenWord : Prop :=
  (∀ t : OutToken, (encodeOut t).toNat = (if t.last then 256 else 0) + t.byte.toNat) ∧
  (∀ t, decodeOut (encodeOut t) = t) ∧ (∀ w, encodeOut (decodeOut w) = w)

/-- The numbers of `mode` (rule R21) and `cause` (rule R23), the layout of `STATUS` (rule R25) and the fault output (rule
R26). -/
def Obligations.StatusWord : Prop :=
  (Mode.idle.bits = 0#2 ∧ Mode.active.bits = 1#2 ∧ Mode.fault.bits = 2#2) ∧
  (Cause.none.bits = 0#3 ∧ Cause.encodingError.bits = 1#3 ∧ Cause.protocolError.bits = 2#3 ∧
    Cause.paramError.bits = 3#3 ∧ Cause.illegalCommand.bits = 4#3) ∧
  ∀ s : State,
    s.status.extractLsb' 0 2 = s.mode.bits ∧ s.status.extractLsb' 2 3 = s.cause.bits ∧
    s.status.extractLsb' 5 11 = 0 ∧ s.status.extractLsb' 16 16 = s.finfo ∧
    s.mode.bits.toNat ≤ 2 ∧ s.cause.bits.toNat ≤ 4 ∧ (s.faultO = true ↔ s.mode = .fault)

/-! ### What each command and token does -/

/-- Rule R104: `START m` in every mode but Fault. In Idle with `2 ≤ m ≤ 8` it opens the frame and its Clear code stands in
the packer; outside 2..8 it raises `ParamError`; in Active `ProtocolError`. -/
def Obligations.StartMeaning : Prop :=
  ∀ (m : MinCodeSize) (s : State),
    decodeCommand (0x1000#16 ||| m.setWidth 16) = .ok (.start m) ∧
    (s.mode = .active →
      exec (.start m) s = .next (faulted .protocolError (0x1000#16 ||| m.setWidth 16) s) ∧
        emittedCodes (.start m) s = []) ∧
    (s.mode = .idle → (m.toNat < 2 ∨ 8 < m.toNat) →
      exec (.start m) s = .next (faulted .paramError (0x1000#16 ||| m.setWidth 16) s) ∧
        emittedCodes (.start m) s = []) ∧
    (s.mode = .idle → 2 ≤ m.toNat → m.toNat ≤ 8 →
      emittedCodes (.start m) s = [(2 ^ m.toNat, m.toNat + 1)] ∧
      exec (.start m) s = .next { s with
        mode := .active
        mcs := m
        next := BitVec.ofNat 13 (2 ^ m.toNat + 2)
        have_ := false
        cur := 0
        dict := []
        acc := if m.toNat ≤ 6 then BitVec.ofNat 19 (2 ^ m.toNat) else if m.toNat = 7 then 0 else 1
        nbits := BitVec.ofNat 5 ((m.toNat + 1) % 8)
        pk_next := BitVec.ofNat 13 (2 ^ m.toNat + 2)
        pk_first := true
        blen := if m.toNat ≤ 6 then 0 else 1
        blk := if m.toNat ≤ 6 then [] else if m.toNat = 7 then [0x80] else [0x00] })

/-- Rule R105: `SYM b` in every mode but Fault: `ProtocolError` in Idle; in Active `EncodingError` for a symbol at or above
`minDictLen`, else the first symbol, a hit, a miss with room and a miss on the full dictionary. A miss is described
from the state `t` in which the match code has been put (`exec (.put s.cur)`), and on a full dictionary from the
state `u` in which Clear has been put as well. It ranges over every state: where `mcs` is above 8 or `next` above 4096,
which no run reaches, the values of Clear, of `next` and of the widths are the model's choice (logs 7, 11). -/
def Obligations.SymMeaning : Prop :=
  ∀ (b : Symbol) (s : State),
    decodeCommand (0x2000#16 ||| b.setWidth 16) = .ok (.sym b) ∧
    (s.mode = .idle →
      exec (.sym b) s = .next (faulted .protocolError (0x2000#16 ||| b.setWidth 16) s) ∧
        emittedCodes (.sym b) s = []) ∧
    (s.mode = .active → 2 ^ s.mcs.toNat ≤ b.toNat →
      exec (.sym b) s = .next (faulted .encodingError (0x2000#16 ||| b.setWidth 16) s) ∧
        emittedCodes (.sym b) s = []) ∧
    (s.mode = .active → b.toNat < 2 ^ s.mcs.toNat → s.have_ = false →
      exec (.sym b) s = .next { s with cur := b.setWidth 12, have_ := true } ∧ emittedCodes (.sym b) s = []) ∧
    (s.mode = .active → b.toNat < 2 ^ s.mcs.toNat → s.have_ = true → ∀ c, dictLookup s.cur b s = some c →
      exec (.sym b) s = .next { s with cur := c } ∧ emittedCodes (.sym b) s = []) ∧
    (s.mode = .active → b.toNat < 2 ^ s.mcs.toNat → s.have_ = true → dictLookup s.cur b s = none →
      s.next.toNat < 4096 →
      ∃ t, exec (.put s.cur) s = .next t ∧
        exec (.sym b) s = .next { t with
          dict := s.dict.write (dictKey s.cur b) (s.next.setWidth 12)
          next := s.next + 1
          cur := b.setWidth 12 } ∧
        emittedCodes (.sym b) s = [(s.cur.toNat, codeWidth s.next.toNat)]) ∧
    (s.mode = .active → b.toNat < 2 ^ s.mcs.toNat → s.have_ = true → dictLookup s.cur b s = none →
      4096 ≤ s.next.toNat →
      ∃ t u, exec (.put s.cur) s = .next t ∧ exec (.put (clearCode s.mcs)) t = .next u ∧
        exec (.sym b) s = .next { u with
          dict := []
          next := BitVec.ofNat 13 (2 ^ s.mcs.toNat + 2)
          cur := b.setWidth 12 } ∧
        emittedCodes (.sym b) s = [(s.cur.toNat, 12), ((clearCode s.mcs).toNat, 12)])

/-- Rule R106: `FINISH` in every mode but Fault: `ProtocolError` in Idle; in Active it puts the match (if there is one) and
the End code, flushes the packer, and returns the encoder to its Idle values. It ranges over every state: where `mcs` is
above 8 or `next` outside 2 to 4096, which no run reaches in Active, the values of End and of the widths are the
model's choice (logs 7, 11). -/
def Obligations.FinishMeaning : Prop :=
  ∀ s : State,
    decodeCommand 0x3000 = .ok .finish ∧
    (s.mode = .idle →
      exec .finish s = .next (faulted .protocolError 0x3000 s) ∧ emittedCodes .finish s = []) ∧
    (s.mode = .active →
      ∃ t u v, (if s.have_ then exec (.put s.cur) s = .next t else t = s) ∧
        exec (.put (endCode s.mcs)) t = .next u ∧ exec .pflush u = .next v ∧
        exec .finish s = .next { v with
          mode := .idle, mcs := 0, next := 0, have_ := false, cur := 0, dict := [] } ∧
        emittedCodes .finish s =
          (if s.have_ then [(s.cur.toNat, codeWidth s.next.toNat)] else []) ++
            [((endCode s.mcs).toNat, codeWidth s.next.toNat)])

/-- Rule R107: `ABORT` in every mode, Fault included: the reset state, the output history (and the host's inputs) as they
were. -/
def Obligations.AbortMeaning : Prop :=
  decodeCommand 0xF000 = .ok .abort ∧
  ∀ s : State,
    exec .abort s = .next { State.reset with out := s.out, pending := s.pending } ∧ emittedCodes .abort s = []

/-- Rule R130: `PINIT m`, from every state. The rule gives `m` in 2 to 8; that its lines are followed for other operands is
the model's choice (log 12), and so are the low bits kept of `2^m + 2` where it passes 13 bits (log 7). -/
def Obligations.PinitMeaning : Prop :=
  ∀ (m : MinCodeSize) (s : State),
    decodeToken (0x1000#16 ||| m.setWidth 16) = .ok (.pinit m) ∧
    exec (.pinit m) s = .next { s with
      acc := 0, nbits := 0, pk_next := BitVec.ofNat 13 (2 ^ m.toNat + 2), pk_first := true, blen := 0, blk := [] }

/-- Rule R131: `PUT c` from every state with `nbits ≤ 7`. `pn` and `pf` are the schedule once it has moved, `w` the width,
`n` and `v` the number of packed bits and their value: the complete bytes of `v` are pushed, the rest stays, and a
Clear restarts the schedule. Where `mcs` is above 8 or `pk_next` outside 2 to 4096, which no run reaches at a `PUT`, the
values of Clear, End and the width are the model's choice (logs 7, 11). -/
def Obligations.PutMeaning : Prop :=
  ∀ (c : Code) (s : State), s.nbits.toNat ≤ 7 →
    let clear : Code := BitVec.ofNat 12 (2 ^ s.mcs.toNat)
    let isMatch : Bool := decide (c ≠ clear ∧ c ≠ BitVec.ofNat 12 (2 ^ s.mcs.toNat + 1))
    let pn : CodeCount :=
      if isMatch ∧ s.pk_first = false ∧ s.pk_next.toNat < 4096 then s.pk_next + 1 else s.pk_next
    let pf : Bool := if isMatch then false else s.pk_first
    let w := codeWidth pn.toNat
    let n := s.nbits.toNat + w
    let v := s.acc.toNat ||| (c.toNat <<< s.nbits.toNat)
    decodeToken (0x2000#16 ||| c.setWidth 16) = .ok (.put c) ∧
    exec (.put c) s = .next { pushBytes (lowBytes (n / 8) v) s with
      acc := BitVec.ofNat 19 (v >>> (8 * (n / 8)))
      nbits := BitVec.ofNat 5 (n % 8)
      pk_next := if c = clear then BitVec.ofNat 13 (2 ^ s.mcs.toNat + 2) else pn
      pk_first := if c = clear then true else pf }

/-- Rules R132 to R134: `PFLUSH` from a packer between commands: the waiting bytes, and the last bits padded with zeros to
a byte, go out as one sub-block if there are any, then the terminator with `last = 1`; the unit is cleared. -/
def Obligations.PflushMeaning : Prop :=
  ∀ s : State, s.nbits.toNat ≤ 7 → s.acc.toNat < 2 ^ s.nbits.toNat → s.blen.toNat ≤ 254 →
    s.blk.length = s.blen.toNat →
    let rest := s.blk ++ (if s.nbits.toNat > 0 then [BitVec.ofNat 8 s.acc.toNat] else [])
    decodeToken 0x3000 = .ok .pflush ∧
    exec .pflush s = .next { s with
      acc := 0, nbits := 0, pk_next := 0, pk_first := false, blen := 0, blk := []
      out := s.out ++ dataTokens (if rest = [] then [] else BitVec.ofNat 8 rest.length :: rest) ++
        [{ byte := 0x00, last := true }] }

/-! ### Faults and modes -/

/-- Rules R180, R183, R184, R185: every command word, in every state, raises exactly the fault the table and the priority
give it; a faulting word writes `mode`, `cause` and `finfo` and nothing else, emits no code, and sets the fault
output; a word that raises none does not enter Fault mode. -/
def Obligations.FaultEntryAndPriority : Prop :=
  ∀ cw s,
    (∀ x, faultOf cw s = some x →
      executeWord cw s = .next (faulted x cw s) ∧ (faulted x cw s).faultO = true ∧
        ∀ i, decodeCommand cw = .ok i → emittedCodes i s = []) ∧
    (∀ t, faultOf cw s = none → executeWord cw s = .next t → s.mode ≠ .fault → t.mode ≠ .fault)

/-- Rule R186: in Fault mode every word but `0xF000` is dropped: no register, memory or output changes. -/
def Obligations.FaultModeDropsAllButAbort : Prop :=
  ∀ cw s, s.mode = .fault → cw ≠ 0xF000 → executeWord cw s = .next s

/-- Rule R187: Fault mode is left by the word `0xF000` or by hardware reset and by nothing else, and either leaves the block
idle with `cause` and `finfo` cleared. -/
def Obligations.ExitsFromFaultMode : Prop :=
  ∀ i s t, s.mode = .fault → executeInput i s = .next t →
    (t.mode ≠ .fault ↔ i = .reset ∨ i = .command 0xF000) ∧
    (t.mode ≠ .fault → t.mode = .idle ∧ t.cause = .none ∧ t.finfo = 0)

/-- Rule R22: the transition table of `mode`, row by row. -/
def Obligations.ModeTransitionTable : Prop :=
  ∀ (s t : State),
    (∀ m, exec (.start m) s = .next t → s.mode = .idle → 2 ≤ m.toNat ∧ m.toNat ≤ 8 → t.mode = .active) ∧
    (∀ m, exec (.start m) s = .next t → s.mode = .idle → ¬(2 ≤ m.toNat ∧ m.toNat ≤ 8) →
      t.mode = .fault ∧ t.cause = .paramError) ∧
    (∀ b, exec (.sym b) s = .next t → s.mode = .idle → t.mode = .fault ∧ t.cause = .protocolError) ∧
    (exec .finish s = .next t → s.mode = .idle → t.mode = .fault ∧ t.cause = .protocolError) ∧
    (∀ b, exec (.sym b) s = .next t → s.mode = .active → b.toNat < 2 ^ s.mcs.toNat → t.mode = .active) ∧
    (∀ b, exec (.sym b) s = .next t → s.mode = .active → 2 ^ s.mcs.toNat ≤ b.toNat →
      t.mode = .fault ∧ t.cause = .encodingError) ∧
    (exec .finish s = .next t → s.mode = .active → t.mode = .idle) ∧
    (∀ m, exec (.start m) s = .next t → s.mode = .active → t.mode = .fault ∧ t.cause = .protocolError) ∧
    (∀ cw, executeWord cw s = .next t → legalWord cw = false → s.mode ≠ .fault →
      t.mode = .fault ∧ t.cause = .illegalCommand) ∧
    (exec .abort s = .next t → t.mode = .idle) ∧
    (∀ cw, executeWord cw s = .next t → s.mode = .fault → cw ≠ 0xF000 → t = s) ∧
    (executeInput .reset s = .next t → t.mode = .idle)

/-! ### Frames: what commands leave alone -/

/-- The frame of `SYM`. The encoder's other registers, the host's inputs and, unless it faults, the status registers stay; a
fault changes the status registers only. The dictionary: a miss with room stores at the pair (current match, symbol)
and every other lookup is as before; a miss on the full dictionary leaves no pair; any other `SYM` stores nothing. The
block buffer and the output change by at most three pushed bytes (rules R60, R105, R142). -/
def Obligations.SymFrame : Prop :=
  ∀ (b : Symbol) (s t : State), exec (.sym b) s = .next t →
    t.mcs = s.mcs ∧ t.pending = s.pending ∧
    (t.mode = s.mode → t.cause = s.cause ∧ t.finfo = s.finfo) ∧
    (t.mode ≠ s.mode → t = { s with mode := t.mode, cause := t.cause, finfo := t.finfo }) ∧
    (let stores := s.mode = .active ∧ b.toNat < 2 ^ s.mcs.toNat ∧ s.have_ = true ∧ dictLookup s.cur b s = none
     (stores → s.next.toNat < 4096 → dictLookup s.cur b t = some (s.next.setWidth 12) ∧
       ∀ p a, ¬(p = s.cur ∧ a = b) → dictLookup p a t = dictLookup p a s) ∧
     (stores → 4096 ≤ s.next.toNat → ∀ p a, dictLookup p a t = none) ∧
     (¬stores → (∀ p a, dictLookup p a t = dictLookup p a s) ∧ t.next = s.next ∧ t.packer = s.packer)) ∧
    (s.nbits.toNat ≤ 7 → ∃ bytes : List Byte, bytes.length ≤ 3 ∧
      t.blk = (pushBytes bytes s).blk ∧ t.blen = (pushBytes bytes s).blen ∧ t.out = (pushBytes bytes s).out)

/-- The frame of the three tokens: the encoder's registers, the dictionary and the status registers are untouched, and
nothing already output changes (rules R130 to R132). -/
def Obligations.TokenFrame : Prop :=
  ∀ (i : Instr) (s t : State), i.format = .p → exec i s = .next t →
    t.encoder = s.encoder ∧ (∀ p a, dictLookup p a t = dictLookup p a s) ∧ ∃ new, t.out = s.out ++ new

/-- The frame of a command that faults, and of a dropped one: no lookup, no buffer byte, no output token and no register
but the three status registers changes (rules R184, R186). -/
def Obligations.FaultingCommandFrame : Prop :=
  ∀ (i : Instr) (s t : State), i.format = .h → exec i s = .next t → t.mode = .fault →
    { t with mode := s.mode, cause := s.cause, finfo := s.finfo } = s

/-- Rule R41: what `have` and `pk_first` are after each command and token. A `SYM` leaves `pk_first` alone on the first symbol
and on a hit, lowers it on a miss with room (the match is a match code, rule R164 I5) and raises it on a miss on the
full dictionary; a command that faults or is dropped leaves both. Where `mcs` is above 8, which no run reaches, which
codes are Clear and End is the model's choice (log 7). -/
def Obligations.FlagWrites : Prop :=
  ∀ (s t : State),
    (∀ m, exec (.start m) s = .next t → s.mode = .idle → t.mode = .active → t.have_ = false ∧ t.pk_first = true) ∧
    (∀ b, exec (.sym b) s = .next t → s.mode = .active → t.mode = .active →
      t.have_ = true ∧
      (s.have_ = false → t.pk_first = s.pk_first) ∧
      (s.have_ = true → dictLookup s.cur b s ≠ none → t.pk_first = s.pk_first) ∧
      (s.have_ = true → dictLookup s.cur b s = none → s.next.toNat < 4096 → isMatchCode s.mcs s.cur = true →
        t.pk_first = false) ∧
      (s.have_ = true → dictLookup s.cur b s = none → 4096 ≤ s.next.toNat → t.pk_first = true)) ∧
    (exec .finish s = .next t → s.mode = .active → t.have_ = false ∧ t.pk_first = false) ∧
    (exec .abort s = .next t → t.have_ = false ∧ t.pk_first = false) ∧
    (∀ i : Instr, i.format = .h → exec i s = .next t → t.mode = .fault →
      t.have_ = s.have_ ∧ t.pk_first = s.pk_first) ∧
    (∀ m, exec (.pinit m) s = .next t → t.have_ = s.have_ ∧ t.pk_first = true) ∧
    (∀ c, exec (.put c) s = .next t → t.have_ = s.have_ ∧
      t.pk_first = (if c = clearCode s.mcs then true else if c = endCode s.mcs then s.pk_first else false)) ∧
    (exec .pflush s = .next t → t.have_ = s.have_ ∧ t.pk_first = false)

/-- The dictionary keeps its canonical form through every instruction, from every state that has it (log 9; rules R51 to
R53 determine the map, the form makes it one list). -/
def Obligations.DictionaryStaysCanonical : Prop :=
  ∀ (i : Instr) (s t : State), s.dict.wf = true → exec i s = .next t → t.dict.wf = true

/-! ### The output -/

/-- Rule R38: nothing removes from `out` but hardware reset; `ABORT` and faults leave it as it is. -/
def Obligations.OutputOnlyGrows : Prop :=
  ∀ (cw : CommandWord) (s t : State), executeWord cw s = .next t →
    (∃ new, t.out = s.out ++ new) ∧ (cw = 0xF000 ∨ t.mode = .fault → t.out = s.out)

/-- Rules R142, R162: what each command outputs. `START` nothing; a `SYM` nothing or one whole sub-block of 256 tokens;
a `FINISH` 3 to 261 tokens, `last = 1` on the final one, which is the terminator, and on no other. -/
def Obligations.OutputOfEachCommand : Prop :=
  ∀ s t, BlockInvariant s →
    (∀ m, exec (.start m) s = .next t → t.out = s.out) ∧
    (∀ b, exec (.sym b) s = .next t →
      t.out = s.out ∨ ∃ payload : List Byte, payload.length = 255 ∧
        t.out = s.out ++ dataTokens (255 :: payload)) ∧
    (exec .finish s = .next t → s.mode = .active →
      ∃ bytes : List Byte, 2 ≤ bytes.length ∧ bytes.length ≤ 260 ∧
        t.out = s.out ++ dataTokens bytes ++ [{ byte := 0x00, last := true }])

/-! ### The two units together -/

/-- Rule R137: at every code a command emits, the packer's `pk_next` at the moment it takes the width equals the encoder's
`next`; so both use one width, and the code fits it (R164 I6, I7). -/
def Obligations.PackerTracksEncoder : Prop :=
  ∀ i s, BlockInvariant s → ∀ e ∈ emissions i s,
    (moveSchedule e.1 e.2).pk_next = e.2.next ∧ packerWidth e.1 e.2 = codeWidth e.2.next.toNat ∧
      e.1.toNat < 2 ^ codeWidth e.2.next.toNat

/-- Rules R76, R160: what a host command other than `ABORT` does to the packer is what the tokens it sends do to it, one
after another. -/
def Obligations.CommandsActThroughTokens : Prop :=
  ∀ (i : Instr) (s t : State), i.format = .h → i ≠ .abort → exec i s = .next t →
    let base := match i, s.mode with
      | .start m, .idle => if legalMcs m then { s with mcs := m } else s
      | _, _ => s
    ∃ u, execAll (sentTokens i s) base = .next u ∧ t.packer = u.packer

/-- Rule R160: the encoder never reads packer state, and the packer's behaviour depends on its own state, the tokens and
`mcs` alone. -/
def Obligations.UnitsShareOnlyTokens : Prop :=
  (∀ (i : Instr) (s s' t t' : State), i.format = .h → s.encoder = s'.encoder →
    exec i s = .next t → exec i s' = .next t' → t.encoder = t'.encoder ∧ sentTokens i s = sentTokens i s') ∧
  (∀ (i : Instr) (s s' t t' : State), i.format = .p → s.packer = s'.packer → s.mcs = s'.mcs →
    exec i s = .next t → exec i s' = .next t' → t.packer = t'.packer)

/-- Rule R110: stepwise equals batch. From any idle state, the code stream of the commands of a frame is `LzwCodes(B, mcs)`
and no command of the sequence faults. -/
def Obligations.StepwiseEqualsBatch : Prop :=
  ∀ (m : MinCodeSize) (B : List Symbol) (s : State), 2 ≤ m.toNat → m.toNat ≤ 8 →
    (∀ b ∈ B, b.toNat < 2 ^ m.toNat) → s.mode = .idle →
    codeStream (frameCommands m B) s = Batch.lzwCodes (symbolValues B) m.toNat ∧
    ∀ k, ∃ t, execAll ((frameCommands m B).take k) s = .next t ∧ t.mode ≠ .fault

/-- Rule R163: the block computes the frame function. The commands of a frame, run from any idle state, raise no fault, end
idle, and append exactly the bytes of `EncodeFrame(B, mcs)`, all with `last = 0` but the final one. `cause` and `finfo`
stay as they were, and every other register is at its reset value. -/
def Obligations.BlockComputesFrameFunction : Prop :=
  ∀ (m : MinCodeSize) (B : List Symbol) (s : State), 2 ≤ m.toNat → m.toNat ≤ 8 →
    (∀ b ∈ B, b.toNat < 2 ^ m.toNat) → s.mode = .idle →
    (∀ k, ∃ t, execAll ((frameCommands m B).take k) s = .next t ∧ t.mode ≠ .fault) ∧
    execAll (frameCommands m B) s =
      .next { State.reset with
        cause := s.cause, finfo := s.finfo, pending := s.pending
        out := s.out ++ frameTokens (Batch.encodeFrame (symbolValues B) m.toNat) }

/-- The same of the machine's own steps: a host that presents a frame's words to an idle block has, after as many steps, the
frame's bytes in `out` and an idle block, `cause` and `finfo` as they were. That the words stand in `pending`, and that the host's later inputs remain,
is the model's choice (log 1). -/
def Obligations.HostRunComputesFrameFunction : Prop :=
  ∀ (m : MinCodeSize) (B : List Symbol) (s : State), 2 ≤ m.toNat → m.toNat ≤ 8 →
    (∀ b ∈ B, b.toNat < 2 ^ m.toNat) → s.mode = .idle →
    run (B.length + 2) (present (asInputs (frameCommands m B)) s) =
      .next { State.reset with
        cause := s.cause, finfo := s.finfo, pending := s.pending
        out := s.out ++ frameTokens (Batch.encodeFrame (symbolValues B) m.toNat) }

/-- Rule R108: the strings of the match codes emitted so far, followed by the string of the current match, are the symbols
consumed so far, at every point of a frame: so the current match stands for the whole input since the last emitted
match. Over a whole frame the strings of the match codes, Clear and End skipped, are the frame's symbols. -/
def Obligations.MatchedStringsSpellTheSymbols : Prop :=
  ∀ (m : MinCodeSize) (B : List Symbol) (s : State), 2 ≤ m.toNat → m.toNat ≤ 8 →
    (∀ b ∈ B, b.toNat < 2 ^ m.toNat) → s.mode = .idle →
    spelledSymbols (frameCommands m B) s = B ∧
    ∀ t, execAll (frameSoFar m B) s = .next t → B ≠ [] →
      t.have_ = true ∧ spelledSymbols (frameSoFar m B) s ++ codeString 4096 t.dict t.cur = B

/-- Rule R168: the round trip. The harness decoder gives back the symbols of every frame the block encodes. -/
def Obligations.RoundTrip : Prop :=
  ∀ (m : Nat) (B : List Nat), 2 ≤ m → m ≤ 8 → (∀ b ∈ B, b < 2 ^ m) →
    (Batch.deblockify (Batch.encodeFrame B m)).bind (fun X => Batch.lzwDecode X m) = some B

/-- Rule R140: the packer computes the batch functions. After `PINIT m`, any `PUT`s and `PFLUSH`, the bytes output are
`Blockify(PackBits(S))`, `S` the codes with the widths the packer gave them, and the last carries `last = 1`. That the
packer takes Clear, End and First from the register `mcs`, here equal to `m`, is the model's reading (log 5). -/
def Obligations.PackerComputesBatchFunctions : Prop :=
  ∀ (m : MinCodeSize) (cs : List Code) (s : State), 2 ≤ m.toNat → m.toNat ≤ 8 → s.mcs = m →
    let S := packerCodes cs (pInit m s)
    (∀ cw ∈ S, cw.1 < 2 ^ cw.2) →
    ∃ t, execAll (.pinit m :: cs.map .put ++ [.pflush]) s = .next t ∧
      t.out = s.out ++ frameTokens (Batch.blockify (Batch.packBits S))

/-- Rules R42, R164 I10 and I11: what an open frame holds. Of the codes emitted so far, packed LSB-first, the whole blocks
of 255 bytes are in `out` with their length bytes, the other whole bytes in `blk`, the last bits in `acc`. -/
def Obligations.OpenFrameHoldsItsData : Prop :=
  ∀ (m : MinCodeSize) (B : List Symbol) (s t : State), 2 ≤ m.toNat → m.toNat ≤ 8 →
    (∀ b ∈ B, b.toNat < 2 ^ m.toNat) → s.mode = .idle → execAll (frameSoFar m B) s = .next t →
    let p := (codeStream (frameSoFar m B) s).foldl Batch.Pack.addCode { acc := 0, n := 0, bytes := [] }
    let q := p.bytes.length / 255
    t.mode = .active ∧ t.acc.toNat = p.acc ∧ t.nbits.toNat = p.n ∧
      t.blk = p.bytes.drop (255 * q) ∧ t.blen.toNat = t.blk.length ∧
      t.out = s.out ++ dataTokens (Batch.blocks q (p.bytes.take (255 * q)))

/-- Rule R172: at any moment of an open frame the bytes output so far are whole sub-blocks, a prefix of the frame's output
for every completion of its symbols, without a `last`; and a fault or an `ABORT` then leaves exactly them. -/
def Obligations.OutputSoFarIsPrefix : Prop :=
  ∀ (m : MinCodeSize) (B : List Symbol) (s t : State), 2 ≤ m.toNat → m.toNat ≤ 8 →
    (∀ b ∈ B, b.toNat < 2 ^ m.toNat) → s.mode = .idle → execAll (frameSoFar m B) s = .next t →
    ∃ bytes : List Byte, t.out = s.out ++ dataTokens bytes ∧ 256 ∣ bytes.length ∧
      (∀ C : List Symbol, (∀ b ∈ C, b.toNat < 2 ^ m.toNat) →
        bytes <+: Batch.encodeFrame (symbolValues (B ++ C)) m.toNat) ∧
      (∀ cw u, executeWord cw t = .next u → u.mode = .fault ∨ cw = 0xF000 → u.out = t.out)

/-- Rule R166: several frames one after another append the bytes of each, with one `last` per frame. -/
def Obligations.SeveralFrames : Prop :=
  ∀ (frames : List (MinCodeSize × List Symbol)) (s : State), s.mode = .idle →
    (∀ f ∈ frames, 2 ≤ f.1.toNat ∧ f.1.toNat ≤ 8 ∧ ∀ b ∈ f.2, b.toNat < 2 ^ f.1.toNat) →
    ∃ t, execAll (frames.flatMap fun f => frameCommands f.1 f.2) s = .next t ∧ t.mode = .idle ∧
      t.out = s.out ++
        frames.flatMap fun f => frameTokens (Batch.encodeFrame (symbolValues f.2) f.1.toNat)

/-- Rules R165, R187: what an idle block did before has no influence. Two idle blocks with different histories, given the
same commands, faulting or not, output the same and end in the same state but for the histories. -/
def Obligations.HistoryHasNoInfluence : Prop :=
  ∀ (is : List Instr) (s s' : State), (∀ i ∈ is, i.format = .h) → BlockInvariant s → BlockInvariant s' → s.mode = .idle →
    s'.mode = .idle →
    ∃ t t' new, execAll is s = .next t ∧ execAll is s' = .next t' ∧
      t.out = s.out ++ new ∧ t'.out = s'.out ++ new ∧
      { t with out := [], pending := [] } = { t' with out := [], pending := [] }

/-- Rules R192, R193: several blocks share nothing. Under every interleaving each block ends where its own steps, counted
in the interleaving, take it alone. -/
def Obligations.BlocksAreIndependent : Prop :=
  ∀ (ks : List Nat) (bs : Blocks), ∃ bs', runBlocks ks bs = .next bs' ∧ bs'.length = bs.length ∧
    ∀ k s, bs[k]? = some s → ∃ t, bs'[k]? = some t ∧ run (ks.count k) s = .next t

/-! ### The batch functions -/

/-- Rules R141, R169: `Deblockify(Blockify(X)) = X` for every byte list, the empty one included. -/
def Obligations.DeblockifyOfBlockify : Prop := ∀ X : List Byte, Batch.deblockify (Batch.blockify X) = some X

/-- Rule R139: `Blockify` by its loop, its value on no byte, and its length. -/
def Obligations.BlockifyShape : Prop :=
  Batch.blockify [] = [0x00] ∧
  ∀ X : List Byte,
    Batch.blockify X =
      (if 255 ≤ X.length then 255#8 :: X.take 255 ++ Batch.blockify (X.drop 255)
       else if 0 < X.length then BitVec.ofNat 8 X.length :: X ++ [0x00]
       else [0x00]) ∧
    (Batch.blockify X).length = X.length + (X.length + 254) / 255 + 1

/-- Rule R138: `PackBits(S)` is the `⌈T / 8⌉` bytes of `V`, least significant first, `T` the sum of the widths and
`V` the sum of the codes, each shifted by the widths before it. -/
def Obligations.PackBitsIsLittleEndian : Prop :=
  ∀ S : List (Nat × Nat), (∀ cw ∈ S, cw.1 < 2 ^ cw.2) →
    Batch.packBits S =
      lowBytes (((S.map Prod.snd).sum + 7) / 8) (S.foldr (fun cw v => cw.1 + v * 2 ^ cw.2) 0)

/-- Rules R111, R170: in the code stream of a frame with symbols, a code is Clear exactly at the multiples of
`4096 − minDictLen` before the last match code, and the code after a Clear is `mcs + 1` bits wide. -/
def Obligations.ClearCodesFallAtMultiples : Prop :=
  ∀ (m : Nat) (B : List Nat), 2 ≤ m → m ≤ 8 → B ≠ [] → (∀ b ∈ B, b < 2 ^ m) →
    let S := Batch.lzwCodes B m
    ∀ i cw, S[i]? = some cw →
      (cw.1 = 2 ^ m ↔ i % (4096 - 2 ^ m) = 0 ∧ i + 2 < S.length) ∧
      (cw.1 = 2 ^ m → ∀ cw', S[i + 1]? = some cw' → cw'.2 = m + 1)

/-- Rules R79, R136: the width of a code as a function of its position. At the `k`-th place after a Clear a match code is
`W(min(First + k − 1, 4096))` bits wide; the first Clear is `mcs + 1` bits, a later one 12; End is as wide as the match
code before it, and in the empty frame, where it is at the first place after the Clear, `mcs + 1` bits wide. -/
def Obligations.WidthsByPosition : Prop :=
  ∀ (m : Nat) (B : List Nat), 2 ≤ m → m ≤ 8 → (∀ b ∈ B, b < 2 ^ m) →
    let S := Batch.lzwCodes B m
    (B = [] → S = [(2 ^ m, m + 1), (2 ^ m + 1, m + 1)]) ∧
    (B ≠ [] → ∀ i cw, S[i]? = some cw →
      let k := i % (4096 - 2 ^ m)
      (i = 0 → cw.2 = m + 1) ∧
      (i + 1 < S.length → 0 < i → k = 0 → cw.2 = 12) ∧
      (i + 1 < S.length → 0 < k → cw.2 = codeWidth (min (2 ^ m + 2 + k - 1) 4096)) ∧
      (i + 1 = S.length → cw.1 = 2 ^ m + 1 ∧ ∀ cw', S[i - 1]? = some cw' → cw.2 = cw'.2))

/-- Rule R113: how many codes a frame and a command emit, and that the insertions since the last Clear number
`next − First`. -/
def Obligations.CodeCounts : Prop :=
  (∀ (m : Nat) (B : List Nat), 2 ≤ m → m ≤ 8 → (∀ b ∈ B, b < 2 ^ m) →
    (B = [] → (Batch.lzwCodes B m).length = 2) ∧ (B ≠ [] → 3 ≤ (Batch.lzwCodes B m).length) ∧
    (Batch.lzwCodes B m).length ≤ B.length + 2 + B.length / (4096 - (2 ^ m + 2))) ∧
  (∀ b s, (emittedCodes (.sym b) s).length ≤ 2) ∧ (∀ s, (emittedCodes .finish s).length ≤ 2) ∧
  (∀ m s t, s.mode = .idle → exec (.start m) s = .next t → t.mode = .active →
    (emittedCodes (.start m) s).length = 1) ∧
  (∀ s, BlockInvariant s → s.mode = .active → s.dict.length = s.next.toNat - (2 ^ s.mcs.toNat + 2))

/-- Rule R173: bounds on the size of a frame of `n` symbols. -/
def Obligations.FrameSize : Prop :=
  ∀ (m : Nat) (B : List Nat), 2 ≤ m → m ≤ 8 → (∀ b ∈ B, b < 2 ^ m) →
    let X := Batch.packBits (Batch.lzwCodes B m)
    let D := (12 * (B.length + 2 + B.length / (4096 - (2 ^ m + 2))) + 7) / 8
    X.length ≤ D ∧ (Batch.encodeFrame B m).length ≤ D + (D + 254) / 255 + 1 ∧
      (2 * (m + 1) + 7) / 8 ≤ X.length ∧
      (B = [] → X.length = if m ≤ 3 then 1 else if m ≤ 7 then 2 else 3)

/-- Rule R112: the codes of a run of `t(t+1)/2 + r` copies of one symbol, `r ≤ t`. -/
def Obligations.RunOfOneSymbol : Prop :=
  ∀ (m b t r : Nat), 2 ≤ m → m ≤ 8 → b < 2 ^ m → 1 ≤ t → r ≤ t → t ≤ 4096 - (2 ^ m + 2) →
    (Batch.lzwCodes (List.replicate (t * (t + 1) / 2 + r) b) m).map Prod.fst =
      [2 ^ m] ++ (b :: (List.range (t - 1)).map (2 ^ m + 2 + ·)) ++
        (if r = 0 then [] else if r = 1 then [b] else [2 ^ m + 2 + r - 2]) ++ [2 ^ m + 1]

/-! ### Assembler -/

/-- Rules R88, R89: the command lines assemble to their words, and the pseudo-instructions to their expansions. -/
def Obligations.AssemblerLines : Prop :=
  (∀ m : MinCodeSize, Assembler.assembleLine (['S', 'T', 'A', 'R', 'T', ' '] ++ Nat.toDigits 10 m.toNat) =
    some (encode (.start m))) ∧
  (∀ b : Symbol, Assembler.assembleLine (['S', 'Y', 'M', ' '] ++ Nat.toDigits 10 b.toNat) =
    some (encode (.sym b))) ∧
  Assembler.assembleLine ['F', 'I', 'N', 'I', 'S', 'H'] = some (encode .finish) ∧
  Assembler.assembleLine ['A', 'B', 'O', 'R', 'T'] = some (encode .abort) ∧
  (∀ m B, Assembler.frame m B = (frameCommands m B).map encode) ∧
  (∀ b n, Assembler.symr b n = Assembler.syms (List.replicate n b))
end

