-- ==== Sys2Proof/Laws/State.lean ====
section
/-! SUPPORT. What each shared operation leaves alone, field by field, and the fields the plain updates write: the
lemmas by which proofs read a field without unfolding an operation. -/

namespace Sys2Proof.Machine

variable (s : State)

/-! ### dictInsert -/

@[simp] theorem dictInsert_mode (p : Code) (b : Symbol) (c : Code) : (dictInsert p b c s).mode = s.mode := rfl
@[simp] theorem dictInsert_cause (p : Code) (b : Symbol) (c : Code) : (dictInsert p b c s).cause = s.cause := rfl
@[simp] theorem dictInsert_finfo (p : Code) (b : Symbol) (c : Code) : (dictInsert p b c s).finfo = s.finfo := rfl
@[simp] theorem dictInsert_mcs (p : Code) (b : Symbol) (c : Code) : (dictInsert p b c s).mcs = s.mcs := rfl
@[simp] theorem dictInsert_next (p : Code) (b : Symbol) (c : Code) : (dictInsert p b c s).next = s.next := rfl
@[simp] theorem dictInsert_have_ (p : Code) (b : Symbol) (c : Code) : (dictInsert p b c s).have_ = s.have_ := rfl
@[simp] theorem dictInsert_cur (p : Code) (b : Symbol) (c : Code) : (dictInsert p b c s).cur = s.cur := rfl
@[simp] theorem dictInsert_acc (p : Code) (b : Symbol) (c : Code) : (dictInsert p b c s).acc = s.acc := rfl
@[simp] theorem dictInsert_nbits (p : Code) (b : Symbol) (c : Code) : (dictInsert p b c s).nbits = s.nbits := rfl
@[simp] theorem dictInsert_pk_next (p : Code) (b : Symbol) (c : Code) : (dictInsert p b c s).pk_next = s.pk_next := rfl
@[simp] theorem dictInsert_pk_first (p : Code) (b : Symbol) (c : Code) : (dictInsert p b c s).pk_first = s.pk_first := rfl
@[simp] theorem dictInsert_blen (p : Code) (b : Symbol) (c : Code) : (dictInsert p b c s).blen = s.blen := rfl
@[simp] theorem dictInsert_blk (p : Code) (b : Symbol) (c : Code) : (dictInsert p b c s).blk = s.blk := rfl
@[simp] theorem dictInsert_out (p : Code) (b : Symbol) (c : Code) : (dictInsert p b c s).out = s.out := rfl
@[simp] theorem dictInsert_pending (p : Code) (b : Symbol) (c : Code) : (dictInsert p b c s).pending = s.pending := rfl

/-! ### dictClear -/

@[simp] theorem dictClear_mode : (dictClear s).mode = s.mode := rfl
@[simp] theorem dictClear_cause : (dictClear s).cause = s.cause := rfl
@[simp] theorem dictClear_finfo : (dictClear s).finfo = s.finfo := rfl
@[simp] theorem dictClear_mcs : (dictClear s).mcs = s.mcs := rfl
@[simp] theorem dictClear_next : (dictClear s).next = s.next := rfl
@[simp] theorem dictClear_have_ : (dictClear s).have_ = s.have_ := rfl
@[simp] theorem dictClear_cur : (dictClear s).cur = s.cur := rfl
@[simp] theorem dictClear_acc : (dictClear s).acc = s.acc := rfl
@[simp] theorem dictClear_nbits : (dictClear s).nbits = s.nbits := rfl
@[simp] theorem dictClear_pk_next : (dictClear s).pk_next = s.pk_next := rfl
@[simp] theorem dictClear_pk_first : (dictClear s).pk_first = s.pk_first := rfl
@[simp] theorem dictClear_blen : (dictClear s).blen = s.blen := rfl
@[simp] theorem dictClear_blk : (dictClear s).blk = s.blk := rfl
@[simp] theorem dictClear_out : (dictClear s).out = s.out := rfl
@[simp] theorem dictClear_pending : (dictClear s).pending = s.pending := rfl

/-! ### blkWrite -/

@[simp] theorem blkWrite_mode (i : Nat) (b : Byte) : (blkWrite i b s).mode = s.mode := rfl
@[simp] theorem blkWrite_cause (i : Nat) (b : Byte) : (blkWrite i b s).cause = s.cause := rfl
@[simp] theorem blkWrite_finfo (i : Nat) (b : Byte) : (blkWrite i b s).finfo = s.finfo := rfl
@[simp] theorem blkWrite_mcs (i : Nat) (b : Byte) : (blkWrite i b s).mcs = s.mcs := rfl
@[simp] theorem blkWrite_next (i : Nat) (b : Byte) : (blkWrite i b s).next = s.next := rfl
@[simp] theorem blkWrite_have_ (i : Nat) (b : Byte) : (blkWrite i b s).have_ = s.have_ := rfl
@[simp] theorem blkWrite_cur (i : Nat) (b : Byte) : (blkWrite i b s).cur = s.cur := rfl
@[simp] theorem blkWrite_dict (i : Nat) (b : Byte) : (blkWrite i b s).dict = s.dict := rfl
@[simp] theorem blkWrite_acc (i : Nat) (b : Byte) : (blkWrite i b s).acc = s.acc := rfl
@[simp] theorem blkWrite_nbits (i : Nat) (b : Byte) : (blkWrite i b s).nbits = s.nbits := rfl
@[simp] theorem blkWrite_pk_next (i : Nat) (b : Byte) : (blkWrite i b s).pk_next = s.pk_next := rfl
@[simp] theorem blkWrite_pk_first (i : Nat) (b : Byte) : (blkWrite i b s).pk_first = s.pk_first := rfl
@[simp] theorem blkWrite_blen (i : Nat) (b : Byte) : (blkWrite i b s).blen = s.blen := rfl
@[simp] theorem blkWrite_out (i : Nat) (b : Byte) : (blkWrite i b s).out = s.out := rfl
@[simp] theorem blkWrite_pending (i : Nat) (b : Byte) : (blkWrite i b s).pending = s.pending := rfl

/-! ### outToken -/

@[simp] theorem outToken_mode (b : Byte) (l : Bool) : (outToken b l s).mode = s.mode := rfl
@[simp] theorem outToken_cause (b : Byte) (l : Bool) : (outToken b l s).cause = s.cause := rfl
@[simp] theorem outToken_finfo (b : Byte) (l : Bool) : (outToken b l s).finfo = s.finfo := rfl
@[simp] theorem outToken_mcs (b : Byte) (l : Bool) : (outToken b l s).mcs = s.mcs := rfl
@[simp] theorem outToken_next (b : Byte) (l : Bool) : (outToken b l s).next = s.next := rfl
@[simp] theorem outToken_have_ (b : Byte) (l : Bool) : (outToken b l s).have_ = s.have_ := rfl
@[simp] theorem outToken_cur (b : Byte) (l : Bool) : (outToken b l s).cur = s.cur := rfl
@[simp] theorem outToken_dict (b : Byte) (l : Bool) : (outToken b l s).dict = s.dict := rfl
@[simp] theorem outToken_acc (b : Byte) (l : Bool) : (outToken b l s).acc = s.acc := rfl
@[simp] theorem outToken_nbits (b : Byte) (l : Bool) : (outToken b l s).nbits = s.nbits := rfl
@[simp] theorem outToken_pk_next (b : Byte) (l : Bool) : (outToken b l s).pk_next = s.pk_next := rfl
@[simp] theorem outToken_pk_first (b : Byte) (l : Bool) : (outToken b l s).pk_first = s.pk_first := rfl
@[simp] theorem outToken_blen (b : Byte) (l : Bool) : (outToken b l s).blen = s.blen := rfl
@[simp] theorem outToken_blk (b : Byte) (l : Bool) : (outToken b l s).blk = s.blk := rfl
@[simp] theorem outToken_pending (b : Byte) (l : Bool) : (outToken b l s).pending = s.pending := rfl

/-! ### raiseFault -/

@[simp] theorem raiseFault_mcs (x : Cause) (cw : CommandWord) : (raiseFault x cw s).mcs = s.mcs := rfl
@[simp] theorem raiseFault_next (x : Cause) (cw : CommandWord) : (raiseFault x cw s).next = s.next := rfl
@[simp] theorem raiseFault_have_ (x : Cause) (cw : CommandWord) : (raiseFault x cw s).have_ = s.have_ := rfl
@[simp] theorem raiseFault_cur (x : Cause) (cw : CommandWord) : (raiseFault x cw s).cur = s.cur := rfl
@[simp] theorem raiseFault_dict (x : Cause) (cw : CommandWord) : (raiseFault x cw s).dict = s.dict := rfl
@[simp] theorem raiseFault_acc (x : Cause) (cw : CommandWord) : (raiseFault x cw s).acc = s.acc := rfl
@[simp] theorem raiseFault_nbits (x : Cause) (cw : CommandWord) : (raiseFault x cw s).nbits = s.nbits := rfl
@[simp] theorem raiseFault_pk_next (x : Cause) (cw : CommandWord) : (raiseFault x cw s).pk_next = s.pk_next := rfl
@[simp] theorem raiseFault_pk_first (x : Cause) (cw : CommandWord) : (raiseFault x cw s).pk_first = s.pk_first := rfl
@[simp] theorem raiseFault_blen (x : Cause) (cw : CommandWord) : (raiseFault x cw s).blen = s.blen := rfl
@[simp] theorem raiseFault_blk (x : Cause) (cw : CommandWord) : (raiseFault x cw s).blk = s.blk := rfl
@[simp] theorem raiseFault_out (x : Cause) (cw : CommandWord) : (raiseFault x cw s).out = s.out := rfl
@[simp] theorem raiseFault_pending (x : Cause) (cw : CommandWord) : (raiseFault x cw s).pending = s.pending := rfl

/-! ### flushBlock -/

@[simp] theorem flushBlock_mode : (flushBlock s).mode = s.mode := rfl
@[simp] theorem flushBlock_cause : (flushBlock s).cause = s.cause := rfl
@[simp] theorem flushBlock_finfo : (flushBlock s).finfo = s.finfo := rfl
@[simp] theorem flushBlock_mcs : (flushBlock s).mcs = s.mcs := rfl
@[simp] theorem flushBlock_next : (flushBlock s).next = s.next := rfl
@[simp] theorem flushBlock_have_ : (flushBlock s).have_ = s.have_ := rfl
@[simp] theorem flushBlock_cur : (flushBlock s).cur = s.cur := rfl
@[simp] theorem flushBlock_dict : (flushBlock s).dict = s.dict := rfl
@[simp] theorem flushBlock_acc : (flushBlock s).acc = s.acc := rfl
@[simp] theorem flushBlock_nbits : (flushBlock s).nbits = s.nbits := rfl
@[simp] theorem flushBlock_pk_next : (flushBlock s).pk_next = s.pk_next := rfl
@[simp] theorem flushBlock_pk_first : (flushBlock s).pk_first = s.pk_first := rfl
@[simp] theorem flushBlock_pending : (flushBlock s).pending = s.pending := rfl

/-! ### storeByte -/

@[simp] theorem storeByte_mode (b : Byte) : (storeByte b s).mode = s.mode := rfl
@[simp] theorem storeByte_cause (b : Byte) : (storeByte b s).cause = s.cause := rfl
@[simp] theorem storeByte_finfo (b : Byte) : (storeByte b s).finfo = s.finfo := rfl
@[simp] theorem storeByte_mcs (b : Byte) : (storeByte b s).mcs = s.mcs := rfl
@[simp] theorem storeByte_next (b : Byte) : (storeByte b s).next = s.next := rfl
@[simp] theorem storeByte_have_ (b : Byte) : (storeByte b s).have_ = s.have_ := rfl
@[simp] theorem storeByte_cur (b : Byte) : (storeByte b s).cur = s.cur := rfl
@[simp] theorem storeByte_dict (b : Byte) : (storeByte b s).dict = s.dict := rfl
@[simp] theorem storeByte_acc (b : Byte) : (storeByte b s).acc = s.acc := rfl
@[simp] theorem storeByte_nbits (b : Byte) : (storeByte b s).nbits = s.nbits := rfl
@[simp] theorem storeByte_pk_next (b : Byte) : (storeByte b s).pk_next = s.pk_next := rfl
@[simp] theorem storeByte_pk_first (b : Byte) : (storeByte b s).pk_first = s.pk_first := rfl
@[simp] theorem storeByte_out (b : Byte) : (storeByte b s).out = s.out := rfl
@[simp] theorem storeByte_pending (b : Byte) : (storeByte b s).pending = s.pending := rfl

/-! ### flushFull -/

@[simp] theorem flushFull_mode : (flushFull s).mode = s.mode := by
  unfold flushFull; split <;> rfl
@[simp] theorem flushFull_cause : (flushFull s).cause = s.cause := by
  unfold flushFull; split <;> rfl
@[simp] theorem flushFull_finfo : (flushFull s).finfo = s.finfo := by
  unfold flushFull; split <;> rfl
@[simp] theorem flushFull_mcs : (flushFull s).mcs = s.mcs := by
  unfold flushFull; split <;> rfl
@[simp] theorem flushFull_next : (flushFull s).next = s.next := by
  unfold flushFull; split <;> rfl
@[simp] theorem flushFull_have_ : (flushFull s).have_ = s.have_ := by
  unfold flushFull; split <;> rfl
@[simp] theorem flushFull_cur : (flushFull s).cur = s.cur := by
  unfold flushFull; split <;> rfl
@[simp] theorem flushFull_dict : (flushFull s).dict = s.dict := by
  unfold flushFull; split <;> rfl
@[simp] theorem flushFull_acc : (flushFull s).acc = s.acc := by
  unfold flushFull; split <;> rfl
@[simp] theorem flushFull_nbits : (flushFull s).nbits = s.nbits := by
  unfold flushFull; split <;> rfl
@[simp] theorem flushFull_pk_next : (flushFull s).pk_next = s.pk_next := by
  unfold flushFull; split <;> rfl
@[simp] theorem flushFull_pk_first : (flushFull s).pk_first = s.pk_first := by
  unfold flushFull; split <;> rfl
@[simp] theorem flushFull_pending : (flushFull s).pending = s.pending := by
  unfold flushFull; split <;> rfl

/-! ### pushByte -/

@[simp] theorem pushByte_mode (b : Byte) : (pushByte b s).mode = s.mode := by
  simp [pushByte]
@[simp] theorem pushByte_cause (b : Byte) : (pushByte b s).cause = s.cause := by
  simp [pushByte]
@[simp] theorem pushByte_finfo (b : Byte) : (pushByte b s).finfo = s.finfo := by
  simp [pushByte]
@[simp] theorem pushByte_mcs (b : Byte) : (pushByte b s).mcs = s.mcs := by
  simp [pushByte]
@[simp] theorem pushByte_next (b : Byte) : (pushByte b s).next = s.next := by
  simp [pushByte]
@[simp] theorem pushByte_have_ (b : Byte) : (pushByte b s).have_ = s.have_ := by
  simp [pushByte]
@[simp] theorem pushByte_cur (b : Byte) : (pushByte b s).cur = s.cur := by
  simp [pushByte]
@[simp] theorem pushByte_dict (b : Byte) : (pushByte b s).dict = s.dict := by
  simp [pushByte]
@[simp] theorem pushByte_acc (b : Byte) : (pushByte b s).acc = s.acc := by
  simp [pushByte]
@[simp] theorem pushByte_nbits (b : Byte) : (pushByte b s).nbits = s.nbits := by
  simp [pushByte]
@[simp] theorem pushByte_pk_next (b : Byte) : (pushByte b s).pk_next = s.pk_next := by
  simp [pushByte]
@[simp] theorem pushByte_pk_first (b : Byte) : (pushByte b s).pk_first = s.pk_first := by
  simp [pushByte]
@[simp] theorem pushByte_pending (b : Byte) : (pushByte b s).pending = s.pending := by
  simp [pushByte]

/-! ### pInit -/

@[simp] theorem pInit_mode (m : MinCodeSize) : (pInit m s).mode = s.mode := rfl
@[simp] theorem pInit_cause (m : MinCodeSize) : (pInit m s).cause = s.cause := rfl
@[simp] theorem pInit_finfo (m : MinCodeSize) : (pInit m s).finfo = s.finfo := rfl
@[simp] theorem pInit_mcs (m : MinCodeSize) : (pInit m s).mcs = s.mcs := rfl
@[simp] theorem pInit_next (m : MinCodeSize) : (pInit m s).next = s.next := rfl
@[simp] theorem pInit_have_ (m : MinCodeSize) : (pInit m s).have_ = s.have_ := rfl
@[simp] theorem pInit_cur (m : MinCodeSize) : (pInit m s).cur = s.cur := rfl
@[simp] theorem pInit_dict (m : MinCodeSize) : (pInit m s).dict = s.dict := rfl
@[simp] theorem pInit_out (m : MinCodeSize) : (pInit m s).out = s.out := rfl
@[simp] theorem pInit_pending (m : MinCodeSize) : (pInit m s).pending = s.pending := rfl

/-! ### moveSchedule -/

@[simp] theorem moveSchedule_mode (c : Code) : (moveSchedule c s).mode = s.mode := by
  unfold moveSchedule; repeat' split
  all_goals rfl
@[simp] theorem moveSchedule_cause (c : Code) : (moveSchedule c s).cause = s.cause := by
  unfold moveSchedule; repeat' split
  all_goals rfl
@[simp] theorem moveSchedule_finfo (c : Code) : (moveSchedule c s).finfo = s.finfo := by
  unfold moveSchedule; repeat' split
  all_goals rfl
@[simp] theorem moveSchedule_mcs (c : Code) : (moveSchedule c s).mcs = s.mcs := by
  unfold moveSchedule; repeat' split
  all_goals rfl
@[simp] theorem moveSchedule_next (c : Code) : (moveSchedule c s).next = s.next := by
  unfold moveSchedule; repeat' split
  all_goals rfl
@[simp] theorem moveSchedule_have_ (c : Code) : (moveSchedule c s).have_ = s.have_ := by
  unfold moveSchedule; repeat' split
  all_goals rfl
@[simp] theorem moveSchedule_cur (c : Code) : (moveSchedule c s).cur = s.cur := by
  unfold moveSchedule; repeat' split
  all_goals rfl
@[simp] theorem moveSchedule_dict (c : Code) : (moveSchedule c s).dict = s.dict := by
  unfold moveSchedule; repeat' split
  all_goals rfl
@[simp] theorem moveSchedule_acc (c : Code) : (moveSchedule c s).acc = s.acc := by
  unfold moveSchedule; repeat' split
  all_goals rfl
@[simp] theorem moveSchedule_nbits (c : Code) : (moveSchedule c s).nbits = s.nbits := by
  unfold moveSchedule; repeat' split
  all_goals rfl
@[simp] theorem moveSchedule_blen (c : Code) : (moveSchedule c s).blen = s.blen := by
  unfold moveSchedule; repeat' split
  all_goals rfl
@[simp] theorem moveSchedule_blk (c : Code) : (moveSchedule c s).blk = s.blk := by
  unfold moveSchedule; repeat' split
  all_goals rfl
@[simp] theorem moveSchedule_out (c : Code) : (moveSchedule c s).out = s.out := by
  unfold moveSchedule; repeat' split
  all_goals rfl
@[simp] theorem moveSchedule_pending (c : Code) : (moveSchedule c s).pending = s.pending := by
  unfold moveSchedule; repeat' split
  all_goals rfl

/-! ### restartSchedule -/

@[simp] theorem restartSchedule_mode (c : Code) : (restartSchedule c s).mode = s.mode := by
  unfold restartSchedule; split <;> rfl
@[simp] theorem restartSchedule_cause (c : Code) : (restartSchedule c s).cause = s.cause := by
  unfold restartSchedule; split <;> rfl
@[simp] theorem restartSchedule_finfo (c : Code) : (restartSchedule c s).finfo = s.finfo := by
  unfold restartSchedule; split <;> rfl
@[simp] theorem restartSchedule_mcs (c : Code) : (restartSchedule c s).mcs = s.mcs := by
  unfold restartSchedule; split <;> rfl
@[simp] theorem restartSchedule_next (c : Code) : (restartSchedule c s).next = s.next := by
  unfold restartSchedule; split <;> rfl
@[simp] theorem restartSchedule_have_ (c : Code) : (restartSchedule c s).have_ = s.have_ := by
  unfold restartSchedule; split <;> rfl
@[simp] theorem restartSchedule_cur (c : Code) : (restartSchedule c s).cur = s.cur := by
  unfold restartSchedule; split <;> rfl
@[simp] theorem restartSchedule_dict (c : Code) : (restartSchedule c s).dict = s.dict := by
  unfold restartSchedule; split <;> rfl
@[simp] theorem restartSchedule_acc (c : Code) : (restartSchedule c s).acc = s.acc := by
  unfold restartSchedule; split <;> rfl
@[simp] theorem restartSchedule_nbits (c : Code) : (restartSchedule c s).nbits = s.nbits := by
  unfold restartSchedule; split <;> rfl
@[simp] theorem restartSchedule_blen (c : Code) : (restartSchedule c s).blen = s.blen := by
  unfold restartSchedule; split <;> rfl
@[simp] theorem restartSchedule_blk (c : Code) : (restartSchedule c s).blk = s.blk := by
  unfold restartSchedule; split <;> rfl
@[simp] theorem restartSchedule_out (c : Code) : (restartSchedule c s).out = s.out := by
  unfold restartSchedule; split <;> rfl
@[simp] theorem restartSchedule_pending (c : Code) : (restartSchedule c s).pending = s.pending := by
  unfold restartSchedule; split <;> rfl

/-! ### appendCode -/

@[simp] theorem appendCode_mode (c : Code) : (appendCode c s).mode = s.mode := rfl
@[simp] theorem appendCode_cause (c : Code) : (appendCode c s).cause = s.cause := rfl
@[simp] theorem appendCode_finfo (c : Code) : (appendCode c s).finfo = s.finfo := rfl
@[simp] theorem appendCode_mcs (c : Code) : (appendCode c s).mcs = s.mcs := rfl
@[simp] theorem appendCode_next (c : Code) : (appendCode c s).next = s.next := rfl
@[simp] theorem appendCode_have_ (c : Code) : (appendCode c s).have_ = s.have_ := rfl
@[simp] theorem appendCode_cur (c : Code) : (appendCode c s).cur = s.cur := rfl
@[simp] theorem appendCode_dict (c : Code) : (appendCode c s).dict = s.dict := rfl
@[simp] theorem appendCode_pk_next (c : Code) : (appendCode c s).pk_next = s.pk_next := rfl
@[simp] theorem appendCode_pk_first (c : Code) : (appendCode c s).pk_first = s.pk_first := rfl
@[simp] theorem appendCode_blen (c : Code) : (appendCode c s).blen = s.blen := rfl
@[simp] theorem appendCode_blk (c : Code) : (appendCode c s).blk = s.blk := rfl
@[simp] theorem appendCode_out (c : Code) : (appendCode c s).out = s.out := rfl
@[simp] theorem appendCode_pending (c : Code) : (appendCode c s).pending = s.pending := rfl

/-! ### drainByte -/

@[simp] theorem drainByte_mode : (drainByte s).mode = s.mode := by
  simp [drainByte]
@[simp] theorem drainByte_cause : (drainByte s).cause = s.cause := by
  simp [drainByte]
@[simp] theorem drainByte_finfo : (drainByte s).finfo = s.finfo := by
  simp [drainByte]
@[simp] theorem drainByte_mcs : (drainByte s).mcs = s.mcs := by
  simp [drainByte]
@[simp] theorem drainByte_next : (drainByte s).next = s.next := by
  simp [drainByte]
@[simp] theorem drainByte_have_ : (drainByte s).have_ = s.have_ := by
  simp [drainByte]
@[simp] theorem drainByte_cur : (drainByte s).cur = s.cur := by
  simp [drainByte]
@[simp] theorem drainByte_dict : (drainByte s).dict = s.dict := by
  simp [drainByte]
@[simp] theorem drainByte_pk_next : (drainByte s).pk_next = s.pk_next := by
  simp [drainByte]
@[simp] theorem drainByte_pk_first : (drainByte s).pk_first = s.pk_first := by
  simp [drainByte]
@[simp] theorem drainByte_pending : (drainByte s).pending = s.pending := by
  simp [drainByte]

/-! ### drainBytes -/

@[simp] theorem drainBytes_mode (n : Nat) : (drainBytes n s).mode = s.mode := by
  induction n generalizing s with
  | zero => rfl
  | succ n ih => simp [drainBytes, ih]
@[simp] theorem drainBytes_cause (n : Nat) : (drainBytes n s).cause = s.cause := by
  induction n generalizing s with
  | zero => rfl
  | succ n ih => simp [drainBytes, ih]
@[simp] theorem drainBytes_finfo (n : Nat) : (drainBytes n s).finfo = s.finfo := by
  induction n generalizing s with
  | zero => rfl
  | succ n ih => simp [drainBytes, ih]
@[simp] theorem drainBytes_mcs (n : Nat) : (drainBytes n s).mcs = s.mcs := by
  induction n generalizing s with
  | zero => rfl
  | succ n ih => simp [drainBytes, ih]
@[simp] theorem drainBytes_next (n : Nat) : (drainBytes n s).next = s.next := by
  induction n generalizing s with
  | zero => rfl
  | succ n ih => simp [drainBytes, ih]
@[simp] theorem drainBytes_have_ (n : Nat) : (drainBytes n s).have_ = s.have_ := by
  induction n generalizing s with
  | zero => rfl
  | succ n ih => simp [drainBytes, ih]
@[simp] theorem drainBytes_cur (n : Nat) : (drainBytes n s).cur = s.cur := by
  induction n generalizing s with
  | zero => rfl
  | succ n ih => simp [drainBytes, ih]
@[simp] theorem drainBytes_dict (n : Nat) : (drainBytes n s).dict = s.dict := by
  induction n generalizing s with
  | zero => rfl
  | succ n ih => simp [drainBytes, ih]
@[simp] theorem drainBytes_pk_next (n : Nat) : (drainBytes n s).pk_next = s.pk_next := by
  induction n generalizing s with
  | zero => rfl
  | succ n ih => simp [drainBytes, ih]
@[simp] theorem drainBytes_pk_first (n : Nat) : (drainBytes n s).pk_first = s.pk_first := by
  induction n generalizing s with
  | zero => rfl
  | succ n ih => simp [drainBytes, ih]
@[simp] theorem drainBytes_pending (n : Nat) : (drainBytes n s).pending = s.pending := by
  induction n generalizing s with
  | zero => rfl
  | succ n ih => simp [drainBytes, ih]

/-! ### drainComplete -/

@[simp] theorem drainComplete_mode : (drainComplete s).mode = s.mode := by
  simp [drainComplete]
@[simp] theorem drainComplete_cause : (drainComplete s).cause = s.cause := by
  simp [drainComplete]
@[simp] theorem drainComplete_finfo : (drainComplete s).finfo = s.finfo := by
  simp [drainComplete]
@[simp] theorem drainComplete_mcs : (drainComplete s).mcs = s.mcs := by
  simp [drainComplete]
@[simp] theorem drainComplete_next : (drainComplete s).next = s.next := by
  simp [drainComplete]
@[simp] theorem drainComplete_have_ : (drainComplete s).have_ = s.have_ := by
  simp [drainComplete]
@[simp] theorem drainComplete_cur : (drainComplete s).cur = s.cur := by
  simp [drainComplete]
@[simp] theorem drainComplete_dict : (drainComplete s).dict = s.dict := by
  simp [drainComplete]
@[simp] theorem drainComplete_pk_next : (drainComplete s).pk_next = s.pk_next := by
  simp [drainComplete]
@[simp] theorem drainComplete_pk_first : (drainComplete s).pk_first = s.pk_first := by
  simp [drainComplete]
@[simp] theorem drainComplete_pending : (drainComplete s).pending = s.pending := by
  simp [drainComplete]

/-! ### putCode -/

@[simp] theorem putCode_mode (c : Code) : (putCode c s).mode = s.mode := by
  simp [putCode]
@[simp] theorem putCode_cause (c : Code) : (putCode c s).cause = s.cause := by
  simp [putCode]
@[simp] theorem putCode_finfo (c : Code) : (putCode c s).finfo = s.finfo := by
  simp [putCode]
@[simp] theorem putCode_mcs (c : Code) : (putCode c s).mcs = s.mcs := by
  simp [putCode]
@[simp] theorem putCode_next (c : Code) : (putCode c s).next = s.next := by
  simp [putCode]
@[simp] theorem putCode_have_ (c : Code) : (putCode c s).have_ = s.have_ := by
  simp [putCode]
@[simp] theorem putCode_cur (c : Code) : (putCode c s).cur = s.cur := by
  simp [putCode]
@[simp] theorem putCode_dict (c : Code) : (putCode c s).dict = s.dict := by
  simp [putCode]
@[simp] theorem putCode_pending (c : Code) : (putCode c s).pending = s.pending := by
  simp [putCode]

/-! ### padLastByte -/

@[simp] theorem padLastByte_mode : (padLastByte s).mode = s.mode := by
  unfold padLastByte; split <;> simp
@[simp] theorem padLastByte_cause : (padLastByte s).cause = s.cause := by
  unfold padLastByte; split <;> simp
@[simp] theorem padLastByte_finfo : (padLastByte s).finfo = s.finfo := by
  unfold padLastByte; split <;> simp
@[simp] theorem padLastByte_mcs : (padLastByte s).mcs = s.mcs := by
  unfold padLastByte; split <;> simp
@[simp] theorem padLastByte_next : (padLastByte s).next = s.next := by
  unfold padLastByte; split <;> simp
@[simp] theorem padLastByte_have_ : (padLastByte s).have_ = s.have_ := by
  unfold padLastByte; split <;> simp
@[simp] theorem padLastByte_cur : (padLastByte s).cur = s.cur := by
  unfold padLastByte; split <;> simp
@[simp] theorem padLastByte_dict : (padLastByte s).dict = s.dict := by
  unfold padLastByte; split <;> simp
@[simp] theorem padLastByte_pk_next : (padLastByte s).pk_next = s.pk_next := by
  unfold padLastByte; split <;> simp
@[simp] theorem padLastByte_pk_first : (padLastByte s).pk_first = s.pk_first := by
  unfold padLastByte; split <;> simp
@[simp] theorem padLastByte_pending : (padLastByte s).pending = s.pending := by
  unfold padLastByte; split <;> simp

/-! ### flushRest -/

@[simp] theorem flushRest_mode : (flushRest s).mode = s.mode := by
  unfold flushRest; split <;> simp
@[simp] theorem flushRest_cause : (flushRest s).cause = s.cause := by
  unfold flushRest; split <;> simp
@[simp] theorem flushRest_finfo : (flushRest s).finfo = s.finfo := by
  unfold flushRest; split <;> simp
@[simp] theorem flushRest_mcs : (flushRest s).mcs = s.mcs := by
  unfold flushRest; split <;> simp
@[simp] theorem flushRest_next : (flushRest s).next = s.next := by
  unfold flushRest; split <;> simp
@[simp] theorem flushRest_have_ : (flushRest s).have_ = s.have_ := by
  unfold flushRest; split <;> simp
@[simp] theorem flushRest_cur : (flushRest s).cur = s.cur := by
  unfold flushRest; split <;> simp
@[simp] theorem flushRest_dict : (flushRest s).dict = s.dict := by
  unfold flushRest; split <;> simp
@[simp] theorem flushRest_acc : (flushRest s).acc = s.acc := by
  unfold flushRest; split <;> simp
@[simp] theorem flushRest_nbits : (flushRest s).nbits = s.nbits := by
  unfold flushRest; split <;> simp
@[simp] theorem flushRest_pk_next : (flushRest s).pk_next = s.pk_next := by
  unfold flushRest; split <;> simp
@[simp] theorem flushRest_pk_first : (flushRest s).pk_first = s.pk_first := by
  unfold flushRest; split <;> simp
@[simp] theorem flushRest_pending : (flushRest s).pending = s.pending := by
  unfold flushRest; split <;> simp

/-! ### pFlush -/

@[simp] theorem pFlush_mode : (pFlush s).mode = s.mode := by
  simp [pFlush]
@[simp] theorem pFlush_cause : (pFlush s).cause = s.cause := by
  simp [pFlush]
@[simp] theorem pFlush_finfo : (pFlush s).finfo = s.finfo := by
  simp [pFlush]
@[simp] theorem pFlush_mcs : (pFlush s).mcs = s.mcs := by
  simp [pFlush]
@[simp] theorem pFlush_next : (pFlush s).next = s.next := by
  simp [pFlush]
@[simp] theorem pFlush_have_ : (pFlush s).have_ = s.have_ := by
  simp [pFlush]
@[simp] theorem pFlush_cur : (pFlush s).cur = s.cur := by
  simp [pFlush]
@[simp] theorem pFlush_dict : (pFlush s).dict = s.dict := by
  simp [pFlush]
@[simp] theorem pFlush_pending : (pFlush s).pending = s.pending := by
  simp [pFlush]

/-! ### emit -/

@[simp] theorem emit_mode (c : Code) : (emit c s).mode = s.mode := by
  simp [emit]
@[simp] theorem emit_cause (c : Code) : (emit c s).cause = s.cause := by
  simp [emit]
@[simp] theorem emit_finfo (c : Code) : (emit c s).finfo = s.finfo := by
  simp [emit]
@[simp] theorem emit_mcs (c : Code) : (emit c s).mcs = s.mcs := by
  simp [emit]
@[simp] theorem emit_next (c : Code) : (emit c s).next = s.next := by
  simp [emit]
@[simp] theorem emit_have_ (c : Code) : (emit c s).have_ = s.have_ := by
  simp [emit]
@[simp] theorem emit_cur (c : Code) : (emit c s).cur = s.cur := by
  simp [emit]
@[simp] theorem emit_dict (c : Code) : (emit c s).dict = s.dict := by
  simp [emit]
@[simp] theorem emit_pending (c : Code) : (emit c s).pending = s.pending := by
  simp [emit]

/-! ### emitMatch -/

@[simp] theorem emitMatch_mode : (emitMatch s).mode = s.mode := by
  unfold emitMatch; split <;> simp
@[simp] theorem emitMatch_cause : (emitMatch s).cause = s.cause := by
  unfold emitMatch; split <;> simp
@[simp] theorem emitMatch_finfo : (emitMatch s).finfo = s.finfo := by
  unfold emitMatch; split <;> simp
@[simp] theorem emitMatch_mcs : (emitMatch s).mcs = s.mcs := by
  unfold emitMatch; split <;> simp
@[simp] theorem emitMatch_next : (emitMatch s).next = s.next := by
  unfold emitMatch; split <;> simp
@[simp] theorem emitMatch_have_ : (emitMatch s).have_ = s.have_ := by
  unfold emitMatch; split <;> simp
@[simp] theorem emitMatch_cur : (emitMatch s).cur = s.cur := by
  unfold emitMatch; split <;> simp
@[simp] theorem emitMatch_dict : (emitMatch s).dict = s.dict := by
  unfold emitMatch; split <;> simp
@[simp] theorem emitMatch_pending : (emitMatch s).pending = s.pending := by
  unfold emitMatch; split <;> simp

/-! ### enterPair -/

@[simp] theorem enterPair_mode (b : Symbol) : (enterPair b s).mode = s.mode := rfl
@[simp] theorem enterPair_cause (b : Symbol) : (enterPair b s).cause = s.cause := rfl
@[simp] theorem enterPair_finfo (b : Symbol) : (enterPair b s).finfo = s.finfo := rfl
@[simp] theorem enterPair_mcs (b : Symbol) : (enterPair b s).mcs = s.mcs := rfl
@[simp] theorem enterPair_have_ (b : Symbol) : (enterPair b s).have_ = s.have_ := rfl
@[simp] theorem enterPair_cur (b : Symbol) : (enterPair b s).cur = s.cur := rfl
@[simp] theorem enterPair_acc (b : Symbol) : (enterPair b s).acc = s.acc := rfl
@[simp] theorem enterPair_nbits (b : Symbol) : (enterPair b s).nbits = s.nbits := rfl
@[simp] theorem enterPair_pk_next (b : Symbol) : (enterPair b s).pk_next = s.pk_next := rfl
@[simp] theorem enterPair_pk_first (b : Symbol) : (enterPair b s).pk_first = s.pk_first := rfl
@[simp] theorem enterPair_blen (b : Symbol) : (enterPair b s).blen = s.blen := rfl
@[simp] theorem enterPair_blk (b : Symbol) : (enterPair b s).blk = s.blk := rfl
@[simp] theorem enterPair_out (b : Symbol) : (enterPair b s).out = s.out := rfl
@[simp] theorem enterPair_pending (b : Symbol) : (enterPair b s).pending = s.pending := rfl

/-! ### resetDictionary -/

@[simp] theorem resetDictionary_mode : (resetDictionary s).mode = s.mode := by
  simp [resetDictionary]
@[simp] theorem resetDictionary_cause : (resetDictionary s).cause = s.cause := by
  simp [resetDictionary]
@[simp] theorem resetDictionary_finfo : (resetDictionary s).finfo = s.finfo := by
  simp [resetDictionary]
@[simp] theorem resetDictionary_mcs : (resetDictionary s).mcs = s.mcs := by
  simp [resetDictionary]
@[simp] theorem resetDictionary_have_ : (resetDictionary s).have_ = s.have_ := by
  simp [resetDictionary]
@[simp] theorem resetDictionary_cur : (resetDictionary s).cur = s.cur := by
  simp [resetDictionary]
@[simp] theorem resetDictionary_pending : (resetDictionary s).pending = s.pending := by
  simp [resetDictionary]

/-! ### growOrReset -/

@[simp] theorem growOrReset_mode (b : Symbol) : (growOrReset b s).mode = s.mode := by
  unfold growOrReset; split <;> simp
@[simp] theorem growOrReset_cause (b : Symbol) : (growOrReset b s).cause = s.cause := by
  unfold growOrReset; split <;> simp
@[simp] theorem growOrReset_finfo (b : Symbol) : (growOrReset b s).finfo = s.finfo := by
  unfold growOrReset; split <;> simp
@[simp] theorem growOrReset_mcs (b : Symbol) : (growOrReset b s).mcs = s.mcs := by
  unfold growOrReset; split <;> simp
@[simp] theorem growOrReset_have_ (b : Symbol) : (growOrReset b s).have_ = s.have_ := by
  unfold growOrReset; split <;> simp
@[simp] theorem growOrReset_cur (b : Symbol) : (growOrReset b s).cur = s.cur := by
  unfold growOrReset; split <;> simp
@[simp] theorem growOrReset_pending (b : Symbol) : (growOrReset b s).pending = s.pending := by
  unfold growOrReset; split <;> simp

/-! ### missSymbol -/

@[simp] theorem missSymbol_mode (b : Symbol) : (missSymbol b s).mode = s.mode := by
  simp [missSymbol]
@[simp] theorem missSymbol_cause (b : Symbol) : (missSymbol b s).cause = s.cause := by
  simp [missSymbol]
@[simp] theorem missSymbol_finfo (b : Symbol) : (missSymbol b s).finfo = s.finfo := by
  simp [missSymbol]
@[simp] theorem missSymbol_mcs (b : Symbol) : (missSymbol b s).mcs = s.mcs := by
  simp [missSymbol]
@[simp] theorem missSymbol_have_ (b : Symbol) : (missSymbol b s).have_ = s.have_ := by
  simp [missSymbol]
@[simp] theorem missSymbol_pending (b : Symbol) : (missSymbol b s).pending = s.pending := by
  simp [missSymbol]

/-! ### endFrame -/

@[simp] theorem endFrame_cause : (endFrame s).cause = s.cause := rfl
@[simp] theorem endFrame_finfo : (endFrame s).finfo = s.finfo := rfl
@[simp] theorem endFrame_acc : (endFrame s).acc = s.acc := rfl
@[simp] theorem endFrame_nbits : (endFrame s).nbits = s.nbits := rfl
@[simp] theorem endFrame_pk_next : (endFrame s).pk_next = s.pk_next := rfl
@[simp] theorem endFrame_pk_first : (endFrame s).pk_first = s.pk_first := rfl
@[simp] theorem endFrame_blen : (endFrame s).blen = s.blen := rfl
@[simp] theorem endFrame_blk : (endFrame s).blk = s.blk := rfl
@[simp] theorem endFrame_out : (endFrame s).out = s.out := rfl
@[simp] theorem endFrame_pending : (endFrame s).pending = s.pending := rfl

/-! ### beginFrame -/

@[simp] theorem beginFrame_mode (m : MinCodeSize) : (beginFrame m s).mode = s.mode := rfl
@[simp] theorem beginFrame_cause (m : MinCodeSize) : (beginFrame m s).cause = s.cause := rfl
@[simp] theorem beginFrame_finfo (m : MinCodeSize) : (beginFrame m s).finfo = s.finfo := rfl
@[simp] theorem beginFrame_acc (m : MinCodeSize) : (beginFrame m s).acc = s.acc := rfl
@[simp] theorem beginFrame_nbits (m : MinCodeSize) : (beginFrame m s).nbits = s.nbits := rfl
@[simp] theorem beginFrame_pk_next (m : MinCodeSize) : (beginFrame m s).pk_next = s.pk_next := rfl
@[simp] theorem beginFrame_pk_first (m : MinCodeSize) : (beginFrame m s).pk_first = s.pk_first := rfl
@[simp] theorem beginFrame_blen (m : MinCodeSize) : (beginFrame m s).blen = s.blen := rfl
@[simp] theorem beginFrame_blk (m : MinCodeSize) : (beginFrame m s).blk = s.blk := rfl
@[simp] theorem beginFrame_out (m : MinCodeSize) : (beginFrame m s).out = s.out := rfl
@[simp] theorem beginFrame_pending (m : MinCodeSize) : (beginFrame m s).pending = s.pending := rfl

/-! ### The fields the plain updates write -/

@[simp] theorem dictInsert_dict (p : Code) (b : Symbol) (c : Code) :
    (dictInsert p b c s).dict = s.dict.write (dictKey p b) c := rfl
@[simp] theorem dictClear_dict : (dictClear s).dict = [] := rfl
@[simp] theorem blkWrite_blk (i : Nat) (b : Byte) : (blkWrite i b s).blk = s.blk.take i ++ [b] := rfl
@[simp] theorem outToken_out (b : Byte) (l : Bool) : (outToken b l s).out = s.out ++ [⟨b, l⟩] := rfl
@[simp] theorem raiseFault_mode (x : Cause) (cw : CommandWord) : (raiseFault x cw s).mode = .fault := rfl
@[simp] theorem raiseFault_cause (x : Cause) (cw : CommandWord) : (raiseFault x cw s).cause = x := rfl
@[simp] theorem raiseFault_finfo (x : Cause) (cw : CommandWord) : (raiseFault x cw s).finfo = cw := rfl
@[simp] theorem flushBlock_blen : (flushBlock s).blen = 0 := rfl
@[simp] theorem flushBlock_blk : (flushBlock s).blk = [] := rfl
@[simp] theorem storeByte_blen (b : Byte) : (storeByte b s).blen = s.blen + 1 := rfl
@[simp] theorem storeByte_blk (b : Byte) : (storeByte b s).blk = s.blk.take s.blen.toNat ++ [b] := rfl
@[simp] theorem pInit_acc (m : MinCodeSize) : (pInit m s).acc = 0 := rfl
@[simp] theorem pInit_nbits (m : MinCodeSize) : (pInit m s).nbits = 0 := rfl
@[simp] theorem pInit_pk_next (m : MinCodeSize) : (pInit m s).pk_next = firstCode m := rfl
@[simp] theorem pInit_pk_first (m : MinCodeSize) : (pInit m s).pk_first = true := rfl
@[simp] theorem pInit_blen (m : MinCodeSize) : (pInit m s).blen = 0 := rfl
@[simp] theorem pInit_blk (m : MinCodeSize) : (pInit m s).blk = [] := rfl
@[simp] theorem pFlush_pk_next : (pFlush s).pk_next = 0 := rfl
@[simp] theorem pFlush_pk_first : (pFlush s).pk_first = false := rfl
@[simp] theorem enterPair_next (b : Symbol) : (enterPair b s).next = s.next + 1 := rfl
@[simp] theorem enterPair_dict (b : Symbol) :
    (enterPair b s).dict = s.dict.write (dictKey s.cur b) (s.next.setWidth 12) := rfl
@[simp] theorem resetDictionary_next : (resetDictionary s).next = firstCode s.mcs := by
  simp [resetDictionary]
@[simp] theorem resetDictionary_dict : (resetDictionary s).dict = [] := by
  simp [resetDictionary]
@[simp] theorem missSymbol_cur (b : Symbol) : (missSymbol b s).cur = literalCode b := rfl
@[simp] theorem beginFrame_mcs (m : MinCodeSize) : (beginFrame m s).mcs = m := rfl
@[simp] theorem beginFrame_next (m : MinCodeSize) : (beginFrame m s).next = firstCode m := rfl
@[simp] theorem beginFrame_have_ (m : MinCodeSize) : (beginFrame m s).have_ = false := rfl
@[simp] theorem beginFrame_cur (m : MinCodeSize) : (beginFrame m s).cur = 0 := rfl
@[simp] theorem beginFrame_dict (m : MinCodeSize) : (beginFrame m s).dict = [] := rfl
@[simp] theorem endFrame_mode : (endFrame s).mode = .idle := rfl
@[simp] theorem endFrame_mcs : (endFrame s).mcs = 0 := rfl
@[simp] theorem endFrame_next : (endFrame s).next = 0 := rfl
@[simp] theorem endFrame_have_ : (endFrame s).have_ = false := rfl
@[simp] theorem endFrame_cur : (endFrame s).cur = 0 := rfl
@[simp] theorem endFrame_dict : (endFrame s).dict = [] := rfl
@[simp] theorem returnToIdle_out : (returnToIdle s).out = s.out := rfl
@[simp] theorem returnToIdle_pending : (returnToIdle s).pending = s.pending := rfl
@[simp] theorem returnToIdle_mode : (returnToIdle s).mode = .idle := rfl
@[simp] theorem hardwareReset_pending : (hardwareReset s).pending = s.pending := rfl

/-- `ABORT`'s writes leave the reset state but for `out` and the host's inputs (rules R107, R201). -/
theorem returnToIdle_eq : returnToIdle s = { State.reset with out := s.out, pending := s.pending } := rfl

/-- The encoder's part of the state is not the packer's to write (rule R160). -/
@[simp] theorem putCode_encoder (c : Code) : (putCode c s).encoder = s.encoder := by
  simp [State.encoder]

@[simp] theorem pFlush_encoder : (pFlush s).encoder = s.encoder := by
  simp [State.encoder]

end Sys2Proof.Machine
end

