-- ==== Sys2Proof/Laws/Memory.lean ====
section
/-! SUPPORT. The laws of sparse memories: a read after a write, and that writes keep the canonical form (log 9); the
dictionary's primitives in these terms (20_memory.md rules R51 to R53). -/

namespace Sys2Proof.Machine

namespace Memory

variable {α : Type}

@[simp] theorem read_nil (k : Nat) : Memory.read ([] : Memory α) k = none := rfl

theorem read_cons (e : Nat × α) (mem : Memory α) (k : Nat) :
    Memory.read (e :: mem) k = if e.1 = k then some e.2 else Memory.read mem k := rfl

theorem write_cons (e : Nat × α) (mem : Memory α) (k : Nat) (v : α) :
    Memory.write (e :: mem) k v =
      if k < e.1 then (k, v) :: e :: mem
      else if k = e.1 then (k, v) :: mem
      else e :: Memory.write mem k v := rfl

/-- A read after a write to the same key gives the value written. -/
@[simp] theorem read_write_same (mem : Memory α) (k : Nat) (v : α) : (mem.write k v).read k = some v := by
  induction mem with
  | nil => simp [Memory.write, Memory.read]
  | cons e mem ih =>
    rw [write_cons]
    split
    · simp [read_cons]
    · split
      · simp [read_cons]
      · rw [read_cons, if_neg (by omega), ih]

/-- A write leaves every other key alone. -/
theorem read_write_other (mem : Memory α) {k k' : Nat} (v : α) (h : k ≠ k') :
    (mem.write k v).read k' = mem.read k' := by
  induction mem with
  | nil => simp [Memory.write, read_cons, h]
  | cons e mem ih =>
    rw [write_cons]
    split
    · rw [read_cons, if_neg h]
    · split
      · next _ he => rw [read_cons, if_neg h, read_cons, if_neg (by omega)]
      · rw [read_cons, read_cons, ih]

@[simp] theorem wf_nil : Memory.wf ([] : Memory α) = true := rfl

theorem risesAbove_cons (b : Nat) (e : Nat × α) (mem : Memory α) :
    Memory.risesAbove b (e :: mem) = (decide (b < e.1) && Memory.risesAbove e.1 mem) := rfl

theorem risesAbove_write {mem : Memory α} {b k : Nat} (v : α)
    (h : mem.risesAbove b = true) (hk : b < k) : (mem.write k v).risesAbove b = true := by
  induction mem generalizing b with
  | nil => simp [Memory.write, Memory.risesAbove, hk]
  | cons e mem ih =>
    simp only [risesAbove_cons, Bool.and_eq_true, decide_eq_true_eq] at h
    rw [write_cons]
    split
    · simp [risesAbove_cons, *]
    · split
      · next _ he => simp [risesAbove_cons, he, h]
      · simp [risesAbove_cons, h.1, ih h.2 (by omega)]

/-- A write keeps the canonical form. -/
theorem wf_write {mem : Memory α} (k : Nat) (v : α) (h : mem.wf = true) : (mem.write k v).wf = true := by
  cases mem with
  | nil => simp [Memory.write, Memory.wf, Memory.risesAbove]
  | cons e mem =>
    have h : Memory.risesAbove e.1 mem = true := h
    rw [write_cons]
    split
    · simp [Memory.wf, risesAbove_cons, *]
    · split
      · next _ he => simpa [Memory.wf, he] using h
      · exact risesAbove_write v h (by omega)

/-- An absent key is listed nowhere. -/
theorem read_eq_none {mem : Memory α} {k : Nat} : mem.read k = none ↔ ∀ e ∈ mem, e.1 ≠ k := by
  induction mem with
  | nil => simp
  | cons e mem ih =>
    rw [read_cons]
    by_cases h : e.1 = k <;> simp [h, ih]

/-- What a read gives is listed. -/
theorem mem_of_read {mem : Memory α} {k : Nat} {v : α} (h : mem.read k = some v) : (k, v) ∈ mem := by
  induction mem with
  | nil => simp at h
  | cons e mem ih =>
    rw [read_cons] at h
    split at h
    · next he => simp only [Option.some.injEq] at h; subst he; subst h; exact List.mem_cons_self
    · exact List.mem_cons_of_mem _ (ih h)

/-- A write at an absent key adds one entry and keeps the others. -/
theorem write_perm {mem : Memory α} {k : Nat} (v : α) (h : mem.read k = none) :
    (mem.write k v).Perm ((k, v) :: mem) := by
  induction mem with
  | nil => simp [Memory.write]
  | cons e mem ih =>
    rw [read_cons] at h
    split at h
    · simp at h
    · next hk =>
      rw [write_cons]
      split
      · exact List.Perm.refl _
      · rw [if_neg (by omega)]
        exact ((ih h).cons e).trans (List.Perm.swap _ _ _)

end Memory

/-- The key of a dictionary cell as a number. -/
theorem dictKey_eq (p : Code) (b : Symbol) : dictKey p b = p.toNat * 256 + b.toNat := by
  simp only [dictKey, BitVec.toNat_append]
  rw [← Nat.shiftLeft_add_eq_or_of_lt b.isLt, Nat.shiftLeft_eq]

/-- Two cells have the same key only if they are the same pair. -/
theorem dictKey_inj {p p' : Code} {b b' : Symbol} (h : dictKey p b = dictKey p' b') : p = p' ∧ b = b' := by
  have hb := b.isLt
  have hb' := b'.isLt
  rw [dictKey_eq, dictKey_eq] at h
  exact ⟨BitVec.eq_of_toNat_eq (by omega), BitVec.eq_of_toNat_eq (by omega)⟩

/-- Rule R52, first half: after an insertion the pair is found. -/
theorem dictLookup_dictInsert_same (p : Code) (b : Symbol) (c : Code) (s : State) :
    dictLookup p b (dictInsert p b c s) = some c := by
  simp [dictLookup]

/-- Rule R52, second half: every other lookup is unchanged. -/
theorem dictLookup_dictInsert_other {p p' : Code} {b b' : Symbol} (c : Code) (s : State)
    (h : ¬(p = p' ∧ b = b')) : dictLookup p' b' (dictInsert p b c s) = dictLookup p' b' s := by
  rw [dictLookup, dictInsert_dict, Memory.read_write_other _ _ (fun e => h (dictKey_inj e)), dictLookup]

/-- Rule R53: after a clear nothing is found. -/
@[simp] theorem dictLookup_dictClear (p : Code) (b : Symbol) (s : State) :
    dictLookup p b (dictClear s) = none := rfl

/-- The dictionary after reset has the canonical form. -/
theorem reset_dict_wf : State.reset.dict.wf = true := rfl

/-- `DictInsert` keeps the canonical form. -/
theorem dictInsert_wf (p : Code) (b : Symbol) (c : Code) {s : State} (h : s.dict.wf = true) :
    (dictInsert p b c s).dict.wf = true :=
  Memory.wf_write _ _ h

/-- `DictClear` gives the canonical form. -/
theorem dictClear_wf (s : State) : (dictClear s).dict.wf = true := rfl

/-- Every operation on the dictionary that a miss performs keeps the canonical form. -/
theorem growOrReset_wf (b : Symbol) {s : State} (h : s.dict.wf = true) : (growOrReset b s).dict.wf = true := by
  unfold growOrReset
  split
  · exact dictInsert_wf _ _ _ h
  · simp

end Sys2Proof.Machine
end

