-- ==== Sys2Proof/Laws/Width.lean ====
section
/-! SUPPORT. The width function and the per-frame constants as numbers (00_scope.md rules R5, R6). -/

namespace Sys2Proof.Machine

/-- The cap of rule R4. -/
theorem codeWidth_le_max (n : Nat) : codeWidth n ≤ 12 := by
  unfold codeWidth
  cases h : (List.range Config.maxW).find? (fun w => decide (n ≤ 2 ^ w)) with
  | none => simp
  | some w =>
    have := (List.find?_range_eq_some.mp h).2.1
    simp only [List.mem_range, Config.maxW] at this
    simp only [Option.getD_some]
    omega

/-- The width is enough for every code below `n` (rule R6). -/
theorem le_two_pow_codeWidth {n : Nat} (h : n ≤ 4096) : n ≤ 2 ^ codeWidth n := by
  unfold codeWidth
  cases hf : (List.range Config.maxW).find? (fun w => decide (n ≤ 2 ^ w)) with
  | none => simpa [Config.maxW] using h
  | some w =>
    have := (List.find?_range_eq_some.mp hf).1
    simpa using this

/-- The width is the least that is enough (rule R6). -/
theorem codeWidth_le_of {n w : Nat} (h : n ≤ 2 ^ w) : codeWidth n ≤ w := by
  by_cases hw : w < 12
  · unfold codeWidth
    cases hf : (List.range Config.maxW).find? (fun w => decide (n ≤ 2 ^ w)) with
    | none =>
      have := List.find?_eq_none.mp hf w (List.mem_range.mpr hw)
      simp [h] at this
    | some v =>
      have hv := (List.find?_range_eq_some.mp hf).2.2
      by_contra hlt
      simp only [Option.getD_some, Nat.not_le] at hlt
      have := hv w hlt
      simp [h] at this
  · exact (codeWidth_le_max n).trans (by omega)

/-- Widths grow with the count. -/
theorem codeWidth_mono {a b : Nat} (h : a ≤ b) (hb : b ≤ 4096) : codeWidth a ≤ codeWidth b :=
  codeWidth_le_of (h.trans (le_two_pow_codeWidth hb))

theorem minDictLen_pos (m : MinCodeSize) : 0 < minDictLen m := Nat.two_pow_pos _

theorem legalMcs_iff (m : MinCodeSize) : legalMcs m = true ↔ 2 ≤ m.toNat ∧ m.toNat ≤ 8 := by
  simp [legalMcs]

/-- The constants of a frame as numbers (rule R5). -/
theorem frame_constants : ∀ m : MinCodeSize, legalMcs m = true →
    4 ≤ minDictLen m ∧ minDictLen m ≤ 256 ∧ (clearCode m).toNat = minDictLen m ∧
      (endCode m).toNat = minDictLen m + 1 ∧ (firstCode m).toNat = minDictLen m + 2 ∧
      codeWidth (minDictLen m + 2) = m.toNat + 1 := by
  decide

/-- A code is a match code exactly if it is neither reserved number. -/
theorem isMatchCode_iff {m : MinCodeSize} (hm : legalMcs m = true) (c : Code) :
    isMatchCode m c = true ↔ c.toNat ≠ minDictLen m ∧ c.toNat ≠ minDictLen m + 1 := by
  obtain ⟨-, -, hc, he, -, -⟩ := frame_constants m hm
  simp only [isMatchCode, Bool.and_eq_true, bne_iff_ne, ne_eq, ← BitVec.toNat_inj, hc, he]

@[simp] theorem literalCode_toNat (b : Symbol) : (literalCode b).toNat = b.toNat := by
  simp only [literalCode, BitVec.toNat_setWidth]
  omega

/-- The literal of a legal symbol is a match code (rules R78, R101). -/
theorem isMatchCode_literal {m : MinCodeSize} (hm : legalMcs m = true) {b : Symbol}
    (hb : symbolInRange m b = true) : isMatchCode m (literalCode b) = true := by
  simp only [symbolInRange, decide_eq_true_eq] at hb
  rw [isMatchCode_iff hm, literalCode_toNat]
  omega

end Sys2Proof.Machine
end

