-- ==== Sys2Proof/Laws/Packer.lean ====
section
/-! SUPPORT. What the BitPacker's procedures do, each said once (41_bitpacker.md rules R130 to R134): the lemmas that
proofs cite instead of unfolding them. -/

namespace Sys2Proof.Machine

variable {s : State}

/-- The block buffer between commands (rules R35, R37): at most 254 bytes, as many as `blen` says. -/
structure BufferOk (s : State) : Prop where
  blen_low : s.blen.toNat ≤ 254
  blk_len : s.blk.length = s.blen.toNat

/-- The packer between commands (rules R31, R32, R35). -/
structure PackerOk (s : State) : Prop extends BufferOk s where
  nbits_low : s.nbits.toNat ≤ 7
  acc_low : s.acc.toNat < 2 ^ s.nbits.toNat

theorem payloadTokens_eq (h : s.blk.length = s.blen.toNat) : payloadTokens s = dataTokens s.blk := by
  unfold payloadTokens dataTokens
  rw [← h]
  apply List.ext_getElem
  · simp
  · intro i h₁ h₂
    simp only [List.length_map, List.length_range] at h₁
    simp [blkRead, List.getD_eq_getElem?_getD, h₁]

/-- `FlushBlock()` outputs the length byte, then the bytes of the buffer (rule R134). -/
theorem flushBlock_eq (h : s.blk.length = s.blen.toNat) :
    flushBlock s = { s with out := s.out ++ dataTokens (s.blen :: s.blk), blen := 0, blk := [] } := by
  unfold flushBlock
  rw [payloadTokens_eq h]
  simp [dataTokens]

theorem blen_succ {n : BitVec 8} (h : n.toNat ≤ 254) : (n + 1).toNat = n.toNat + 1 := by
  bv_omega

/-- `PushByte(b)`: with room the byte is kept; as the 255th byte it flushes the block (rule R133). -/
theorem pushByte_cases (h : BufferOk s) (b : Byte) :
    (s.blen.toNat < 254 ∧ pushByte b s = { s with blk := s.blk ++ [b], blen := s.blen + 1 }) ∨
    (s.blen.toNat = 254 ∧
      pushByte b s = { s with blk := [], blen := 0, out := s.out ++ dataTokens (255 :: (s.blk ++ [b])) }) := by
  have htake : s.blk.take s.blen.toNat = s.blk := by rw [← h.blk_len]; exact List.take_length
  have hstore : storeByte b s = { s with blk := s.blk ++ [b], blen := s.blen + 1 } := by
    unfold storeByte blkWrite
    rw [htake]
  have hb : s.blen.toNat ≤ 254 := h.blen_low
  have hadd : (s.blen + 1).toNat = s.blen.toNat + 1 := blen_succ hb
  unfold pushByte
  rw [hstore]
  unfold flushFull
  simp only [Config.blk, hadd]
  by_cases hlt : s.blen.toNat < 254
  · exact .inl ⟨hlt, if_neg (by omega)⟩
  · right
    have he : s.blen.toNat = 254 := by omega
    refine ⟨he, ?_⟩
    have h255 : s.blen + 1 = 255 := BitVec.eq_of_toNat_eq (by rw [hadd, he]; rfl)
    rw [if_pos (by omega), flushBlock_eq]
    · simp only [h255]
    · show (s.blk ++ [b]).length = (s.blen + 1).toNat
      rw [hadd, ← h.blk_len, List.length_append, List.length_singleton]

theorem pushByte_ok (h : BufferOk s) (b : Byte) : BufferOk (pushByte b s) := by
  have hb : s.blen.toNat ≤ 254 := h.blen_low
  have hadd := blen_succ hb
  obtain ⟨hlt, he⟩ | ⟨-, he⟩ := pushByte_cases h b <;> rw [he]
  · constructor
    · show (s.blen + 1).toNat ≤ 254
      omega
    · show (s.blk ++ [b]).length = (s.blen + 1).toNat
      have := h.blk_len
      simp only [List.length_append, List.length_cons, List.length_nil]
      omega
  · constructor <;> simp

/-! ### Several bytes -/

@[simp] theorem pushBytes_nil (s : State) : pushBytes [] s = s := rfl

@[simp] theorem pushBytes_cons (b : Byte) (bs : List Byte) (s : State) :
    pushBytes (b :: bs) s = pushBytes bs (pushByte b s) := rfl

theorem pushBytes_append (bs cs : List Byte) (s : State) :
    pushBytes (bs ++ cs) s = pushBytes cs (pushBytes bs s) := by
  simp [pushBytes, List.foldl_append]

theorem pushBytes_ok (bs : List Byte) (h : BufferOk s) : BufferOk (pushBytes bs s) := by
  induction bs generalizing s with
  | nil => exact h
  | cons b bs ih => exact ih (pushByte_ok h b)

/-- Pushing bytes touches the buffer, its length and the output, and looks at nothing else: it commutes with writes
of the packer's other registers. -/
theorem pushByte_with (b : Byte) (s : State) (a : BitVec 19) (n : BitVec 5) (p : CodeCount) (f : Bool) :
    pushByte b { s with acc := a, nbits := n, pk_next := p, pk_first := f } =
      { pushByte b s with acc := a, nbits := n, pk_next := p, pk_first := f } := by
  unfold pushByte flushFull
  have hl : (storeByte b { s with acc := a, nbits := n, pk_next := p, pk_first := f }).blen =
      (storeByte b s).blen := rfl
  rw [hl]
  split <;> rfl

theorem pushBytes_with (bs : List Byte) (s : State) (a : BitVec 19) (n : BitVec 5) (p : CodeCount) (f : Bool) :
    pushBytes bs { s with acc := a, nbits := n, pk_next := p, pk_first := f } =
      { pushBytes bs s with acc := a, nbits := n, pk_next := p, pk_first := f } := by
  induction bs generalizing s with
  | nil => rfl
  | cons b bs ih => rw [pushBytes_cons, pushByte_with, ih, pushBytes_cons]

theorem pushBytes_with_acc (bs : List Byte) (s : State) (a : BitVec 19) (n : BitVec 5) :
    pushBytes bs { s with acc := a, nbits := n } = { pushBytes bs s with acc := a, nbits := n } := by
  induction bs generalizing s with
  | nil => rfl
  | cons b bs ih =>
    have h : pushByte b { s with acc := a, nbits := n } = { pushByte b s with acc := a, nbits := n } := by
      have hl : (storeByte b { s with acc := a, nbits := n }).blen = (storeByte b s).blen := rfl
      unfold pushByte flushFull
      rw [hl]
      split <;> rfl
    rw [pushBytes_cons, h, ih, pushBytes_cons]

theorem pushBytes_congr_fields (bs : List Byte) (s : State) :
    (pushBytes bs s).encoder = s.encoder ∧ (pushBytes bs s).acc = s.acc ∧ (pushBytes bs s).nbits = s.nbits ∧
      (pushBytes bs s).pk_next = s.pk_next ∧ (pushBytes bs s).pk_first = s.pk_first := by
  induction bs generalizing s with
  | nil => simp
  | cons b bs ih =>
    rw [pushBytes_cons]
    obtain ⟨h1, h2, h3, h4, h5⟩ := ih (pushByte b s)
    exact ⟨by rw [h1]; simp [State.encoder], by rw [h2]; simp, by rw [h3]; simp, by rw [h4]; simp,
      by rw [h5]; simp⟩

/-- The buffer, its length and the output after a push depend on nothing else of the state. -/
theorem pushByte_congr (b : Byte) {s t : State} (h1 : s.blk = t.blk) (h2 : s.blen = t.blen) (h3 : s.out = t.out) :
    (pushByte b s).blk = (pushByte b t).blk ∧ (pushByte b s).blen = (pushByte b t).blen ∧
      (pushByte b s).out = (pushByte b t).out := by
  unfold pushByte flushFull
  have hl : (storeByte b s).blen = (storeByte b t).blen := by simp [h2]
  have hk : (storeByte b s).blk = (storeByte b t).blk := by simp [h1, h2]
  have ho : (storeByte b s).out = (storeByte b t).out := by simp [h3]
  rw [hl]
  split
  · refine ⟨rfl, rfl, ?_⟩
    simp only [flushBlock, outToken, payloadTokens, blkRead, hl, hk, ho]
  · exact ⟨hk, hl, ho⟩

/-! ### Draining and packing -/

theorem drainByte_eq (s : State) :
    drainByte s = { pushByte (s.acc.setWidth 8) s with acc := s.acc >>> 8, nbits := s.nbits - 8 } := rfl

theorem lowBytes_succ (n v : Nat) : lowBytes (n + 1) v = BitVec.ofNat 8 v :: lowBytes n (v >>> 8) := by
  simp only [lowBytes, List.range_succ_eq_map, List.map_cons, List.map_map]
  congr 1
  apply List.map_congr_left
  intro i _
  rw [Function.comp_apply, ← Nat.shiftRight_add, Nat.succ_eq_add_one, Nat.mul_add, Nat.add_comm]

/-- `n` turns of the loop of rule R131: `n` bytes leave `acc`, lowest first. -/
theorem drainBytes_eq (n : Nat) (s : State) :
    drainBytes n s =
      { pushBytes (lowBytes n s.acc.toNat) s with
        acc := s.acc >>> (8 * n), nbits := s.nbits - BitVec.ofNat 5 (8 * n) } := by
  induction n generalizing s with
  | zero => simp [drainBytes, lowBytes]
  | succ n ih =>
    have hb : BitVec.setWidth 8 s.acc = BitVec.ofNat 8 s.acc.toNat := by
      apply BitVec.eq_of_toNat_eq; simp
    rw [drainBytes, ih, drainByte_eq, hb, lowBytes_succ, pushBytes_cons]
    have h1 : (s.acc >>> 8).toNat = s.acc.toNat >>> 8 := BitVec.toNat_ushiftRight ..
    have h2 : s.acc >>> 8 >>> (8 * n) = s.acc >>> (8 * (n + 1)) := by
      rw [← BitVec.shiftRight_add]; congr 1; omega
    have h3 : s.nbits - 8 - BitVec.ofNat 5 (8 * n) = s.nbits - BitVec.ofNat 5 (8 * (n + 1)) := by
      have : BitVec.ofNat 5 (8 * (n + 1)) = 8 + BitVec.ofNat 5 (8 * n) := by
        rw [Nat.mul_add, Nat.add_comm, BitVec.ofNat_add]; rfl
      rw [BitVec.sub_sub, this]
    simp only [h1, h2, h3]
    rw [pushBytes_with_acc]

/-- The bits of the codes not yet output once `c` is packed, as a number, before the complete bytes leave (rule R131). -/
def packedValue (c : Code) (s : State) : Nat := s.acc.toNat ||| (c.toNat <<< s.nbits.toNat)

/-- How many those bits are. -/
def packedBits (c : Code) (s : State) : Nat := s.nbits.toNat + packerWidth c s

theorem packedBits_le {c : Code} (h : s.nbits.toNat ≤ 7) : packedBits c s ≤ 19 := by
  have := codeWidth_le_max (moveSchedule c s).pk_next.toNat
  unfold packedBits packerWidth
  omega

theorem packedValue_lt {c : Code} (h : s.nbits.toNat ≤ 7) : packedValue c s < 2 ^ 19 := by
  apply Nat.or_lt_two_pow s.acc.isLt
  rw [Nat.shiftLeft_eq]
  calc c.toNat * 2 ^ s.nbits.toNat < 2 ^ 12 * 2 ^ s.nbits.toNat :=
        Nat.mul_lt_mul_of_pos_right c.isLt (Nat.two_pow_pos _)
    _ ≤ 2 ^ 12 * 2 ^ 7 := Nat.mul_le_mul_left _ (Nat.pow_le_pow_right (by omega) h)
    _ = 2 ^ 19 := by norm_num

/-- With the accumulator below `2^nbits` the bits do not overlap, and a code that fits its width fits. -/
theorem packedValue_lt_of_fits {c : Code} (ha : s.acc.toNat < 2 ^ s.nbits.toNat)
    (hc : c.toNat < 2 ^ packerWidth c s) : packedValue c s < 2 ^ packedBits c s := by
  apply Nat.or_lt_two_pow
  · exact ha.trans_le (Nat.pow_le_pow_right (by omega) (Nat.le_add_right _ _))
  · rw [Nat.shiftLeft_eq, packedBits, Nat.pow_add, Nat.mul_comm]
    exact Nat.mul_lt_mul_of_pos_left hc (Nat.two_pow_pos _)

/-- The value of `pk_next` and `pk_first` after a code (rule R131). -/
def scheduleAfter (c : Code) (s : State) : CodeCount × Bool :=
  if c = clearCode s.mcs then (firstCode s.mcs, true)
  else ((moveSchedule c s).pk_next, (moveSchedule c s).pk_first)

/-- `Put(c)` from a state between commands (rule R131): the complete bytes of the packed bits go to the block buffer,
the rest stays in `acc`, and the schedule moves. -/
theorem putCode_eq (c : Code) (h : s.nbits.toNat ≤ 7) :
    putCode c s =
      { pushBytes (lowBytes (packedBits c s / 8) (packedValue c s)) s with
        acc := BitVec.ofNat 19 (packedValue c s >>> (8 * (packedBits c s / 8)))
        nbits := BitVec.ofNat 5 (packedBits c s % 8)
        pk_next := (scheduleAfter c s).1
        pk_first := (scheduleAfter c s).2 } := by
  have hacc : (appendCode c (moveSchedule c s)).acc = BitVec.ofNat 19 (packedValue c s) := by
    apply BitVec.eq_of_toNat_eq
    simp only [appendCode, moveSchedule_acc, moveSchedule_nbits, BitVec.toNat_or, BitVec.toNat_shiftLeft,
      BitVec.toNat_setWidth, BitVec.toNat_ofNat]
    have hlt := packedValue_lt (c := c) h
    have hc := c.isLt
    rw [Nat.mod_eq_of_lt (a := c.toNat) (by omega), Nat.mod_eq_of_lt hlt]
    unfold packedValue at hlt ⊢
    rw [Nat.mod_eq_of_lt]
    exact lt_of_le_of_lt Nat.right_le_or hlt
  have hn : (appendCode c (moveSchedule c s)).nbits = BitVec.ofNat 5 (packedBits c s) := by
    apply BitVec.eq_of_toNat_eq
    simp only [appendCode, moveSchedule_nbits, BitVec.toNat_add, BitVec.toNat_ofNat, packedBits, packerWidth]
    omega
  have hA : appendCode c (moveSchedule c s) =
      { s with acc := BitVec.ofNat 19 (packedValue c s), nbits := BitVec.ofNat 5 (packedBits c s),
               pk_next := (moveSchedule c s).pk_next, pk_first := (moveSchedule c s).pk_first } := by
    rw [← hacc, ← hn]
    unfold appendCode moveSchedule
    repeat' split
    all_goals rfl
  have hle := packedBits_le (c := c) h
  have hlt := packedValue_lt (c := c) h
  have hbits : (BitVec.ofNat 5 (packedBits c s)).toNat = packedBits c s := by
    rw [BitVec.toNat_ofNat, Nat.mod_eq_of_lt (by omega)]
  have hval : (BitVec.ofNat 19 (packedValue c s)).toNat = packedValue c s := by
    rw [BitVec.toNat_ofNat, Nat.mod_eq_of_lt hlt]
  have hshift : BitVec.ofNat 19 (packedValue c s) >>> (8 * (packedBits c s / 8)) =
      BitVec.ofNat 19 (packedValue c s >>> (8 * (packedBits c s / 8))) := by
    apply BitVec.eq_of_toNat_eq
    rw [BitVec.toNat_ushiftRight, hval, BitVec.toNat_ofNat, Nat.mod_eq_of_lt]
    exact lt_of_le_of_lt (Nat.shiftRight_le _ _) hlt
  have hrest : BitVec.ofNat 5 (packedBits c s) - BitVec.ofNat 5 (8 * (packedBits c s / 8)) =
      BitVec.ofNat 5 (packedBits c s % 8) := by
    apply BitVec.eq_of_toNat_eq
    rw [BitVec.toNat_sub, hbits]
    simp only [BitVec.toNat_ofNat]
    omega
  have hd : drainComplete (appendCode c (moveSchedule c s)) =
      { pushBytes (lowBytes (packedBits c s / 8) (packedValue c s)) s with
        acc := BitVec.ofNat 19 (packedValue c s >>> (8 * (packedBits c s / 8)))
        nbits := BitVec.ofNat 5 (packedBits c s % 8)
        pk_next := (moveSchedule c s).pk_next, pk_first := (moveSchedule c s).pk_first } := by
    rw [hA, drainComplete, drainBytes_eq]
    simp only [hbits, hval, hshift, hrest]
    rw [pushBytes_with]
  have hm : (pushBytes (lowBytes (packedBits c s / 8) (packedValue c s)) s).mcs = s.mcs :=
    congrArg EncoderPart.mcs (pushBytes_congr_fields _ s).1
  rw [putCode, hd, restartSchedule]
  simp only [hm, scheduleAfter]
  split <;> rfl

theorem putCode_packerOk {c : Code} (h : PackerOk s) (hc : c.toNat < 2 ^ packerWidth c s) :
    PackerOk (putCode c s) := by
  have hb := pushBytes_ok (lowBytes (packedBits c s / 8) (packedValue c s)) h.toBufferOk
  have hlt := packedValue_lt (c := c) h.nbits_low
  have hfit := packedValue_lt_of_fits h.acc_low hc
  rw [putCode_eq c h.nbits_low]
  refine ⟨⟨hb.blen_low, hb.blk_len⟩, ?_, ?_⟩
  · simp only [BitVec.toNat_ofNat]
    omega
  · simp only [BitVec.toNat_ofNat]
    rw [Nat.mod_eq_of_lt (lt_of_le_of_lt (Nat.shiftRight_le _ _) hlt),
      Nat.mod_eq_of_lt (a := packedBits c s % 8) (by omega), Nat.shiftRight_eq_div_pow,
      Nat.div_lt_iff_lt_mul (Nat.two_pow_pos _), ← Nat.pow_add]
    rwa [show packedBits c s % 8 + 8 * (packedBits c s / 8) = packedBits c s by omega]

@[simp] theorem putCode_pk_next {c : Code} (h : s.nbits.toNat ≤ 7) :
    (putCode c s).pk_next = (scheduleAfter c s).1 := by
  rw [putCode_eq c h]

@[simp] theorem putCode_pk_first {c : Code} (h : s.nbits.toNat ≤ 7) :
    (putCode c s).pk_first = (scheduleAfter c s).2 := by
  rw [putCode_eq c h]

/-- The state with its last bits padded to a byte (rule R132), the accumulator apart. -/
def padded (s : State) : State := if s.nbits.toNat > 0 then pushByte (s.acc.setWidth 8) s else s

theorem padded_ok (h : BufferOk s) : BufferOk (padded s) := by
  unfold padded
  split
  · exact pushByte_ok h _
  · exact h

theorem flushRest_eq (h : BufferOk s) :
    flushRest s = { s with
      out := s.out ++ (if s.blen.toNat > 0 then dataTokens (s.blen :: s.blk) else []), blen := 0, blk := [] } := by
  unfold flushRest
  split
  · rw [flushBlock_eq h.blk_len]
  · have h0 : s.blen = 0 := BitVec.eq_of_toNat_eq (by simp; omega)
    have hk : s.blk = [] := List.length_eq_zero_iff.mp (by rw [h.blk_len]; omega)
    simp only [List.append_nil]
    rw [← hk, ← h0]

/-- `PFlush()` from a state between commands (rule R132): the pad byte if bits are left, the rest of the buffer as a
sub-block if it is not empty, the terminator. -/
theorem pFlush_eq (h : PackerOk s) :
    pFlush s = { padded s with
      acc := 0, nbits := 0, blen := 0, blk := [], pk_next := 0, pk_first := false
      out := (padded s).out ++
        (if (padded s).blen.toNat > 0 then dataTokens ((padded s).blen :: (padded s).blk) else []) ++
        [⟨0x00, true⟩] } := by
  have hp : padLastByte s = { padded s with acc := 0, nbits := 0 } := by
    unfold padLastByte padded
    split
    · rfl
    · have h0 : s.nbits = 0 := BitVec.eq_of_toNat_eq (by simp; omega)
      have ha : s.acc = 0 := by
        have := h.acc_low
        rw [h0] at this
        exact BitVec.eq_of_toNat_eq (by simpa using this)
      rw [← ha, ← h0]
  have hok := padded_ok h.toBufferOk
  have hr := flushRest_eq (s := padLastByte s) (by rw [hp]; exact ⟨hok.blen_low, hok.blk_len⟩)
  rw [pFlush, hr, hp]
  rfl

end Sys2Proof.Machine
end

