-- ==== Sys2Proof/Laws/PerInstr.lean ====
section
/-! SUPPORT. One lemma per constructor of `Instr`: its encoding has the bits spec/opcode_table.json fixes for its row. -/

namespace Sys2Proof.Laws

/-- The "mask" of an instruction's row of spec/opcode_table.json. -/
def rowMask : Instr → BitVec 16
  | .start _ => 0xFFF0
  | .sym _ => 0xFF00
  | .finish => 0xFFFF
  | .abort => 0xFFFF
  | .pinit _ => 0xFFF0
  | .put _ => 0xF000
  | .pflush => 0xFFFF

/-- The "match" of an instruction's row of spec/opcode_table.json. -/
def rowMatch : Instr → BitVec 16
  | .start _ => 0x1000
  | .sym _ => 0x2000
  | .finish => 0x3000
  | .abort => 0xF000
  | .pinit _ => 0x1000
  | .put _ => 0x2000
  | .pflush => 0x3000

/-- The bits of the row's mask are the row's match, and the other bits are the operand. -/
def InTable.Statement (i : Instr) : Prop := encode i &&& rowMask i = rowMatch i

theorem InTable.start (m : MinCodeSize) : InTable.Statement (.start m) := by
  revert m; unfold InTable.Statement; decide

theorem InTable.sym (s : Symbol) : InTable.Statement (.sym s) := by
  unfold InTable.Statement encode rowMask rowMatch
  apply BitVec.eq_of_getLsbD_eq
  intro i hi
  have h : (0x2#4 ++ 0#4 ++ s).getLsbD i = if i < 8 then s.getLsbD i else (0x20#8).getLsbD (i - 8) :=
    BitVec.getLsbD_append
  rw [BitVec.getLsbD_and, h]
  interval_cases i <;> simp

theorem InTable.finish : InTable.Statement .finish := by unfold InTable.Statement; decide

theorem InTable.abort : InTable.Statement .abort := by unfold InTable.Statement; decide

theorem InTable.pinit (m : MinCodeSize) : InTable.Statement (.pinit m) := by
  revert m; unfold InTable.Statement; decide

theorem InTable.put (c : Code) : InTable.Statement (.put c) := by
  unfold InTable.Statement encode rowMask rowMatch
  apply BitVec.eq_of_getLsbD_eq
  intro i hi
  have h : (0x2#4 ++ c).getLsbD i = if i < 12 then c.getLsbD i else (0x2#4).getLsbD (i - 12) :=
    BitVec.getLsbD_append
  rw [BitVec.getLsbD_and, h]
  interval_cases i <;> simp

theorem InTable.pflush : InTable.Statement .pflush := by unfold InTable.Statement; decide

end Sys2Proof.Laws
end

