-- ==== Sys2Proof/Tests/Slice0.lean ====
section
/-! SUPPORT. Tests of the model against the worked examples of spec/, and for every statement with hypotheses a witness
that meets them. Expected values are the spec's: 95_test_vectors.md sections 1 to 6, 30_encoding.md rule R91, or hand
calculation from the rule named. -/

namespace Sys2Proof.Tests

open Sys2Proof.Machine

/-- The next state of an outcome, if it is one. -/
def nextOf (o : Host.Outcome State Fault Refusal) : Option State :=
  match o with
  | .next s => some s
  | .fault _ => none
  | .refused _ => none

/-- The instruction of a decoder's answer, if it is one. -/
def instrOf (r : Except DecodeError Instr) : Option Instr :=
  match r with
  | .ok i => some i
  | .error _ => none

/-! ### States of the worked examples -/

/-- After `START 2` (rule R104 example, P1 line 1). -/
def opened : State :=
  { State.reset with
    mode := .active, mcs := 2, next := 6, acc := 4, nbits := 3, pk_next := 6, pk_first := true }

/-- After `START 2; SYM 0` (P1 line 2). -/
def first : State := { opened with have_ := true, cur := 0 }

/-- After `START 2; SYM 0; SYM 1` (P1 line 3). -/
def missed : State :=
  { first with next := 7, cur := 1, dict := [(1, 6)], nbits := 6, pk_first := false }

/-- P2 before its first hit: `(7,7) → 10` is in the dictionary and the match is 7. -/
def beforeHit : State :=
  { State.reset with
    mode := .active, mcs := 3, next := 11, have_ := true, cur := 7, dict := [(1799, 10)]
    pk_next := 10, blen := 1, blk := [0x78] }

/-- P1 before its `FINISH`. -/
def beforeFinish : State :=
  { State.reset with
    mode := .active, mcs := 2, next := 9, have_ := true, cur := 0, dict := [(1, 6), (256, 8), (257, 7)]
    acc := 2, nbits := 4, pk_next := 8, blen := 1, blk := [0x44] }

/-- The registers of section 2.6 before the `SYM` that finds the dictionary full (the entries and the bytes do not
matter there and are left out or zero). -/
def full : State :=
  { State.reset with
    mode := .active, mcs := 8, next := 4096, have_ := true, cur := 156, nbits := 4, pk_next := 4095
    blen := 51, blk := List.replicate 51 0 }

/-- A block buffer one byte short of full. -/
def almostFull : State := { opened with nbits := 7, blen := 254, blk := List.replicate 254 0xAA }

/-- An idle block that has output a frame (section 2.1, `mcs = 2`). -/
def idleAfterFrame : State := { State.reset with out := [⟨0x01, false⟩, ⟨0x2C, false⟩, ⟨0x00, true⟩] }

/-- P3 after its third command. -/
def faultedFrame : State := { opened with mode := .fault, cause := .encodingError, finfo := 0x2004, have_ := true, cur := 1 }

/-! ### Well-formedness -/

theorem test_pinit_one_ill_formed : (Instr.pinit 1).wellFormed = false := by decide
theorem test_pinit_nine_ill_formed : (Instr.pinit 9).wellFormed = false := by decide
theorem test_pinit_bounds_well_formed :
    (Instr.pinit 2).wellFormed = true ∧ (Instr.pinit 8).wellFormed = true := by decide

/-! ### Decoding: words written out from rules R72 to R76 -/

theorem test_decode_start : instrOf (decodeCommand 0b0001000000000101#16) = some (.start 5) := by decide
theorem test_decode_sym : instrOf (decodeCommand 0b0010000010100001#16) = some (.sym 0xA1) := by decide
theorem test_decode_finish : instrOf (decodeCommand 0b0011000000000000#16) = some .finish := by decide
theorem test_decode_abort : instrOf (decodeCommand 0b1111000000000000#16) = some .abort := by decide
theorem test_decode_pinit : instrOf (decodeToken 0b0001000000000111#16) = some (.pinit 7) := by decide
theorem test_decode_put : instrOf (decodeToken 0b0010101010111100#16) = some (.put 0xABC) := by decide
theorem test_decode_pflush : instrOf (decodeToken 0b0011000000000000#16) = some .pflush := by decide
theorem test_decode_unused_operation : decodeCommand 0x0000 = .error (.unusedOperation 0) := by rfl
theorem test_decode_stray_bit : decodeCommand 0x1010 = .error (.strayOperandBits 1) := by rfl
theorem test_put_word_is_no_command : instrOf (decodeCommand 0b0010101010111100#16) = none := by decide
theorem test_table_word : decodeTableWord 16 0x20FF = some (.sym 255) := by decide
theorem test_out_word : encodeOut ⟨0x2C, true⟩ = 0x12C#9 := by decide

/-! ### One step each -/

/-- Rule R104, example. -/
theorem test_start : nextOf (exec (.start 2) State.reset) = some opened := by decide
/-- Rule R104, output: for `m = 7` the byte `0x80` enters the buffer. -/
theorem test_start_seven :
    (nextOf (exec (.start 7) State.reset)).map (fun s => (s.blk, s.nbits, s.acc)) = some ([0x80], 0, 0) := by decide
/-- P1 line 3. -/
theorem test_sym_miss : nextOf (exec (.sym 1) first) = some missed := by decide
/-- Section 2.6: a miss on the full dictionary. -/
theorem test_sym_full :
    (nextOf (exec (.sym 22) full)).map (fun s => (s.next, s.cur, s.acc, s.nbits)) = some (258, 22, 1, 4) ∧
      (nextOf (exec (.sym 22) full)).map (fun s => (s.pk_next, s.pk_first, s.blen)) = some (258, true, 54) := by
  decide
/-- P2, the hit. -/
theorem test_sym_hit : nextOf (exec (.sym 7) beforeHit) = some { beforeHit with cur := 10 } := by decide
/-- P1, the last line: `03 44 02 05 00*`. -/
theorem test_finish :
    nextOf (exec .finish beforeFinish) =
      some { State.reset with
        out := [⟨0x03, false⟩, ⟨0x44, false⟩, ⟨0x02, false⟩, ⟨0x05, false⟩, ⟨0x00, true⟩] } := by decide
/-- Section 2.1: the empty frame. -/
theorem test_finish_empty :
    nextOf (exec .finish opened) = some idleAfterFrame := by decide
/-- P3, the eighth line: `ABORT` leaves Fault mode. -/
theorem test_abort : nextOf (exec .abort faultedFrame) = some State.reset := by decide
/-- Section 3.3, `PINIT 2`. -/
theorem test_pinit :
    nextOf (exec (.pinit 2) State.reset) = some { State.reset with pk_next := 6, pk_first := true } := by decide
/-- Section 3.3, the third `PUT`: the byte `0x44` leaves the accumulator. -/
theorem test_put :
    (nextOf (exec (.put 1) { opened with nbits := 6, pk_first := false })).map
      (fun s => (s.acc, s.nbits, s.pk_next, s.pk_first, s.blk)) = some (0, 1, 7, false, [0x44]) := by decide
/-- Section 3.3, a Clear in mid-stream: the schedule is not moved, then restarted. -/
theorem test_put_clear :
    (nextOf (exec (.put 256) { full with pk_next := 4096 })).map (fun s => (s.pk_next, s.pk_first, s.nbits)) =
      some (258, true, 0) := by decide
/-- Section 3.3, `PFLUSH`. -/
theorem test_pflush :
    (nextOf (exec .pflush { State.reset with acc := 5, nbits := 4, blen := 2, blk := [0x44, 0x02] })).map State.out =
      some [⟨0x03, false⟩, ⟨0x44, false⟩, ⟨0x02, false⟩, ⟨0x05, false⟩, ⟨0x00, true⟩] := by decide
/-- Rule R132 corner (b): the pad byte is the 255th; the terminator follows the full sub-block directly. -/
theorem test_pflush_full :
    (nextOf (exec .pflush almostFull)).map (fun s => (s.out.length, s.out.head?, s.out.getLast?)) =
      some (257, some ⟨0xFF, false⟩, some ⟨0x00, true⟩) := by decide +kernel
/-- Section 5: `STATUS` after `1002 2004`. -/
theorem test_status : faultedFrame.status = 0x20040006 := by decide
/-- Section 5: `1002 1009` raises ProtocolError, not ParamError. -/
theorem test_priority :
    (nextOf (executeWord 0x1009 opened)).map State.status = some 0x1009000A := by decide
/-- P3: `F001` is dropped in Fault mode. -/
theorem test_drop : nextOf (executeWord 0xF001 faultedFrame) = some faultedFrame := by decide

/-! ### The batch functions: sections 1.1, 3.1, 4.4 -/

theorem test_encodeFrame : Batch.encodeFrame [0, 1, 1, 0] 2 = [0x03, 0x44, 0x02, 0x05, 0x00] := by decide
theorem test_packBits : Batch.packBits [(0xABC, 12), (0x123, 12)] = [0xBC, 0x3A, 0x12] := by decide
theorem test_lzwDecode : Batch.lzwDecode [0x44, 0x02, 0x05] 2 = some [0, 1, 1, 0] := by decide
/-- Section 3.5, second kind: the decoder reads a bit past the end. -/
theorem test_lzwDecode_past_end :
    Batch.lzwDecode [0x5C, 0x02, 0x33, 0x10, 0x23, 0x53] 2 = some [3, 1, 1, 0, 3, 3, 0, 1, 3, 2, 3] := by decide
theorem test_assemble_sym : Assembler.assembleLine ['S', 'Y', 'M', ' ', '0', 'x', 'F', 'F'] = some 0x20FF#16 := by
  decide
theorem test_trace : Assembler.traceToken ⟨0x2C, true⟩ = ['2', 'C', '*'] := by decide

/-! ### States that have the invariant -/

theorem opened_frameOpen : FrameOpen opened := by
  constructor <;> first | decide | simp [opened, State.reset]

theorem opened_invariant : BlockInvariant opened :=
  ⟨nofun, fun _ => opened_frameOpen, nofun, by decide, by decide⟩

theorem beforeFinish_frameOpen : FrameOpen beforeFinish := by
  constructor <;> first | decide | (unfold LegalEntry; decide)

theorem beforeFinish_invariant : BlockInvariant beforeFinish :=
  ⟨nofun, fun _ => beforeFinish_frameOpen, nofun, by decide, by decide⟩

theorem idleAfterFrame_invariant : BlockInvariant idleAfterFrame :=
  ⟨fun _ => by constructor <;> rfl, nofun, nofun, by decide, by decide⟩

/-- A full dictionary: the first 3838 literal pairs, each with the next code (`mcs = 8`). -/
@[irreducible] def fullDict : Memory Code := (List.range 3838).map fun i => (i, BitVec.ofNat 12 (258 + i))

/-- An open frame whose dictionary is full, with a match that has no child. -/
def fullFrame : State :=
  { State.reset with
    mode := .active, mcs := 8, next := 4096, have_ := true, cur := 15, dict := fullDict, nbits := 4, pk_next := 4095 }

theorem rising_wf (n b : Nat) (f : Nat → Code) :
    Memory.risesAbove b ((List.range' (b + 1) n).map fun i => (i, f i)) = true := by
  induction n generalizing b with
  | zero => rfl
  | succ n ih =>
    rw [List.range'_succ, List.map_cons, Memory.risesAbove_cons, ih]
    simp

theorem fullDict_entry {e : Nat × Code} (h : e ∈ fullDict) : e.1 < 3838 ∧ e.2.toNat = 258 + e.1 := by
  unfold fullDict at h
  obtain ⟨i, hi, rfl⟩ := List.mem_map.mp h
  have hi := List.mem_range.mp hi
  refine ⟨hi, ?_⟩
  show (BitVec.ofNat 12 (258 + i)).toNat = 258 + i
  rw [BitVec.toNat_ofNat]
  exact Nat.mod_eq_of_lt (by omega)

theorem fullDict_length : fullDict.length = 3838 := by
  unfold fullDict
  rw [List.length_map, List.length_range]

theorem fullFrame_frameOpen : FrameOpen fullFrame := by
  have hd : minDictLen fullFrame.mcs = 256 := by decide
  have hn : fullFrame.next.toNat = 4096 := by decide
  constructor
  · decide
  · rw [hd, hn]; omega
  · rw [hn]
  · show Memory.wf fullDict = true
    have : fullDict = (0, BitVec.ofNat 12 258) ::
        (List.range' (0 + 1) 3837).map fun i => (i, BitVec.ofNat 12 (258 + i)) := by
      unfold fullDict
      rw [List.range_eq_range', List.range'_succ]
      rfl
    rw [this]
    exact rising_wf _ _ _
  · rw [hd, hn]
    show fullDict.length + (256 + 2) = 4096
    rw [fullDict_length]
  · intro e he
    have := fullDict_entry he
    rw [hd, hn]
    omega
  · show (fullDict.map Prod.snd).Nodup
    unfold fullDict
    rw [List.map_map]
    apply List.Nodup.map_on _ List.nodup_range
    intro i hi j hj h
    have h := congrArg BitVec.toNat h
    simp only [List.mem_range] at hi hj
    simp only [Function.comp_apply, BitVec.toNat_ofNat] at h
    omega
  · intro e he
    have := fullDict_entry he
    unfold LegalEntry
    rw [hd]
    omega
  · intro _; decide
  · intro h; cases h
  · decide
  · decide
  · decide
  · rfl
  · intro h; cases h
  · intro _; decide

theorem fullFrame_invariant : BlockInvariant fullFrame :=
  ⟨nofun, fun _ => fullFrame_frameOpen, nofun, ⟨fun _ => nofun, fun _ => rfl⟩, fun _ => rfl⟩

theorem fullFrame_misses : dictLookup fullFrame.cur 22 fullFrame = none := by
  apply Memory.read_eq_none.mpr
  intro e he h
  have := (fullDict_entry he).1
  have hk : dictKey fullFrame.cur 22 = 3862 := by decide
  omega

/-! ### Witnesses: the hypotheses of the statements can be met -/

/-- The input that presents the command `i` and nothing after it. -/
def presented (i : Instr) (s : State) : State := present (asInputs [i]) s

theorem presented_invariant (i : Instr) {s : State} (h : BlockInvariant s) : BlockInvariant (presented i s) := by
  obtain ⟨h1, h2, h3, h4, h5⟩ := h
  exact ⟨fun hm => by obtain ⟨⟩ := h1 hm; constructor <;> assumption,
    fun hm => by obtain ⟨⟩ := h2 hm; constructor <;> assumption,
    fun hm => (h3 hm).imp (fun c => by obtain ⟨⟩ := c; constructor <;> assumption)
      (fun c => by obtain ⟨⟩ := c; constructor <;> assumption), h4, h5⟩

theorem witness_ResetValues :
    (∃ t, exec .abort faultedFrame = .next t) ∧
      BlockInvariant beforeFinish ∧ beforeFinish.mode = .active ∧ ∃ t, exec .finish beforeFinish = .next t :=
  ⟨⟨_, rfl⟩, beforeFinish_invariant, rfl, ⟨_, rfl⟩⟩

theorem witness_InvariantKeptByEveryStep :
    BlockInvariant (presented (.sym 22) fullFrame) ∧ ∃ t, step (presented (.sym 22) fullFrame) = .next t :=
  ⟨presented_invariant _ fullFrame_invariant, ⟨_, rfl⟩⟩

theorem witness_EveryRunGoesOn : BlockInvariant fullFrame := fullFrame_invariant

theorem witness_IdleIsCanonical :
    BlockInvariant (presented .finish opened) ∧
      ∃ t, step (presented .finish opened) = .next t ∧ t.mode = .idle :=
  ⟨presented_invariant _ opened_invariant, ⟨_, rfl, rfl⟩⟩

theorem witness_IdleBlockMayBePoweredDown : BlockInvariant idleAfterFrame ∧ idleAfterFrame.mode = .idle :=
  ⟨idleAfterFrame_invariant, rfl⟩

theorem witness_WidthStaysInRange :
    FrameOpen opened ∧ FrameOpen fullFrame ∧ 4096 ≤ 2 ^ 12 ∧ codeWidth 2 = 1 ∧ codeWidth 4096 = 12 :=
  ⟨opened_frameOpen, fullFrame_frameOpen, by decide, by decide, by decide⟩

theorem witness_StepRunsTheDecodedCommand :
    (presented (.start 2) State.reset).pending = .command 0x1002 :: [] ∧
      decodeCommand 0x1002 = .ok (.start 2) := ⟨rfl, rfl⟩

theorem witness_IllegalWords :
    (legalWord 0x1010 = false ∧ opened.mode ≠ .fault) ∧ (legalWord 0xF001 = false ∧ faultedFrame.mode = .fault) ∧
      legalWord 0x100F = true ∧ legalWord 0x20FF = true := by decide

theorem witness_StepResetsAndWaits :
    (present [.reset] opened).pending = .reset :: [] ∧ opened.pending = [] := ⟨rfl, rfl⟩

theorem witness_WordsOfEachInstruction :
    (0x100F#16).toNat = 0x1000 + (15 : MinCodeSize).toNat ∧ (0x20FF#16).toNat = 0x2000 + (255 : Symbol).toNat ∧
      (0x2FFF#16).toNat = 0x2000 + (4095 : Code).toNat := by decide

theorem witness_EncodeOfDecode :
    decode .h 0x20FF = .ok (.sym 255) ∧ decode .p 0x2FFF = .ok (.put 4095) := ⟨rfl, rfl⟩

theorem witness_ExampleWords : State.reset.mode = .idle ∧ opened.mode = .active ∧ opened.mcs = 2 := by decide

theorem witness_StartMeaning :
    opened.mode = .active ∧ State.reset.mode = .idle ∧ ((1 : MinCodeSize).toNat < 2 ∨ 8 < (1 : MinCodeSize).toNat) ∧
      ((9 : MinCodeSize).toNat < 2 ∨ 8 < (9 : MinCodeSize).toNat) ∧
      (2 ≤ (2 : MinCodeSize).toNat ∧ (8 : MinCodeSize).toNat ≤ 8) := by decide

theorem witness_SymMeaning :
    State.reset.mode = .idle ∧
    (opened.mode = .active ∧ 2 ^ opened.mcs.toNat ≤ (4 : Symbol).toNat) ∧
    (opened.mode = .active ∧ (3 : Symbol).toNat < 2 ^ opened.mcs.toNat ∧ opened.have_ = false) ∧
    (beforeHit.mode = .active ∧ (7 : Symbol).toNat < 2 ^ beforeHit.mcs.toNat ∧ beforeHit.have_ = true ∧
      dictLookup beforeHit.cur 7 beforeHit = some 10) ∧
    (first.mode = .active ∧ (3 : Symbol).toNat < 2 ^ first.mcs.toNat ∧ first.have_ = true ∧
      dictLookup first.cur 3 { first with next := 4095 } = none ∧ (4095 : CodeCount).toNat < 4096) ∧
    (full.mode = .active ∧ (22 : Symbol).toNat < 2 ^ full.mcs.toNat ∧ full.have_ = true ∧
      dictLookup full.cur 22 full = none ∧ 4096 ≤ full.next.toNat) := by decide

theorem witness_FinishMeaning : State.reset.mode = .idle ∧ opened.mode = .active ∧ beforeFinish.mode = .active := by
  decide

theorem witness_PutMeaning : almostFull.nbits.toNat ≤ 7 ∧ full.nbits.toNat ≤ 7 := by decide

theorem witness_PflushMeaning :
    (almostFull.nbits.toNat ≤ 7 ∧ almostFull.acc.toNat < 2 ^ almostFull.nbits.toNat ∧ almostFull.blen.toNat ≤ 254 ∧
      almostFull.blk.length = almostFull.blen.toNat) ∧
    (State.reset.nbits.toNat ≤ 7 ∧ State.reset.acc.toNat < 2 ^ State.reset.nbits.toNat ∧
      State.reset.blen.toNat ≤ 254 ∧ State.reset.blk.length = State.reset.blen.toNat) := by decide +kernel

theorem witness_FaultEntryAndPriority :
    faultOf 0x2004 opened = some .encodingError ∧ faultOf 0x1009 opened = some .protocolError ∧
      faultOf 0x2000 State.reset = some .protocolError ∧ faultOf 0x1001 State.reset = some .paramError ∧
      faultOf 0x2104 State.reset = some .illegalCommand ∧ faultOf 0x2003 opened = none ∧
      opened.mode ≠ .fault ∧ decodeCommand 0x2004 = .ok (.sym 4) ∧ ∃ t, executeWord 0x2003 opened = .next t :=
  ⟨by decide, by decide, by decide, by decide, by decide, by decide, by decide, rfl, ⟨_, rfl⟩⟩

theorem witness_FaultModeDropsAllButAbort : faultedFrame.mode = .fault ∧ (0xF001 : CommandWord) ≠ 0xF000 := by decide

theorem witness_ExitsFromFaultMode :
    faultedFrame.mode = .fault ∧ (∃ t, executeInput .reset faultedFrame = .next t ∧ t.mode ≠ .fault) ∧
      (∃ t, executeInput (.command 0xF000) faultedFrame = .next t ∧ t.mode ≠ .fault) ∧
      ∃ t, executeInput (.command 0x3000) faultedFrame = .next t :=
  ⟨rfl, ⟨_, rfl, by decide⟩, ⟨_, rfl, by decide⟩, ⟨_, rfl⟩⟩

theorem witness_ModeTransitionTable :
    State.reset.mode = .idle ∧ (∃ t, exec (.start 2) State.reset = .next t) ∧
      (∃ t, exec (.start 8) State.reset = .next t) ∧ (∃ t, exec (.start 9) State.reset = .next t) ∧
      (∃ t, exec (.sym 0) State.reset = .next t) ∧ (∃ t, exec .finish State.reset = .next t) ∧
      opened.mode = .active ∧ (∃ t, exec (.sym 3) opened = .next t) ∧ (∃ t, exec (.sym 4) opened = .next t) ∧
      (∃ t, exec .finish opened = .next t) ∧ (∃ t, exec (.start 2) opened = .next t) ∧
      legalWord 0x4000 = false ∧ (∃ t, executeWord 0x4000 opened = .next t) ∧
      (∃ t, exec .abort opened = .next t) ∧ faultedFrame.mode = .fault ∧
      (∃ t, executeWord 0x3000 faultedFrame = .next t) ∧ ∃ t, executeInput .reset opened = .next t :=
  ⟨rfl, ⟨_, rfl⟩, ⟨_, rfl⟩, ⟨_, rfl⟩, ⟨_, rfl⟩, ⟨_, rfl⟩, rfl, ⟨_, rfl⟩, ⟨_, rfl⟩, ⟨_, rfl⟩, ⟨_, rfl⟩, by decide,
    ⟨_, rfl⟩, ⟨_, rfl⟩, rfl, ⟨_, rfl⟩, ⟨_, rfl⟩⟩

theorem witness_SymFrame :
    (∃ t, exec (.sym 1) first = .next t ∧ t.mode = first.mode) ∧ dictLookup first.cur 1 first = none ∧
      first.next.toNat < 4096 ∧ first.nbits.toNat ≤ 7 ∧ (∃ t, exec (.sym 22) full = .next t) ∧
      dictLookup full.cur 22 full = none ∧ 4096 ≤ full.next.toNat ∧ full.nbits.toNat ≤ 7 ∧
      (∃ t, exec (.sym 4) opened = .next t ∧ t.mode ≠ opened.mode) :=
  ⟨⟨_, rfl, by decide⟩, by decide, by decide, by decide, ⟨_, rfl⟩, by decide, by decide, by decide,
    ⟨_, rfl, by decide⟩⟩

theorem witness_TokenFrame :
    (Instr.put 5).format = .p ∧ (∃ t, exec (.put 5) beforeFinish = .next t) ∧ Instr.pflush.format = .p ∧
      (∃ t, exec .pflush beforeFinish = .next t) ∧ (Instr.pinit 2).format = .p ∧
      ∃ t, exec (.pinit 2) beforeFinish = .next t :=
  ⟨rfl, ⟨_, rfl⟩, rfl, ⟨_, rfl⟩, rfl, ⟨_, rfl⟩⟩

theorem witness_FaultingCommandFrame :
    (Instr.sym 4).format = .h ∧ (∃ t, exec (.sym 4) opened = .next t ∧ t.mode = .fault) ∧
      ∃ t, exec .finish faultedFrame = .next t ∧ t.mode = .fault :=
  ⟨rfl, ⟨_, rfl, by decide⟩, ⟨_, rfl, rfl⟩⟩

theorem witness_FlagWrites :
    (∃ t, exec (.start 2) State.reset = .next t ∧ t.mode = .active) ∧ State.reset.mode = .idle ∧
      (∃ t, exec .finish first = .next t) ∧ first.mode = .active ∧ (∃ t, exec (.put 4) first = .next t) ∧
      (∃ t, exec (.put 5) first = .next t) ∧ (∃ t, exec (.put 0) first = .next t) ∧
      ∃ t, exec (.sym 4) first = .next t ∧ t.mode = .fault :=
  ⟨⟨_, rfl, by decide⟩, rfl, ⟨_, rfl⟩, rfl, ⟨_, rfl⟩, ⟨_, rfl⟩, ⟨_, rfl⟩, ⟨_, rfl, by decide⟩⟩

/-- The first symbol, a hit, a miss with room and a miss on the full dictionary. -/
theorem witness_FlagWrites_sym :
    ((∃ t, exec (.sym 3) opened = .next t ∧ t.mode = .active) ∧ opened.mode = .active ∧ opened.have_ = false) ∧
    ((∃ t, exec (.sym 7) beforeHit = .next t ∧ t.mode = .active) ∧ beforeHit.have_ = true ∧
      dictLookup beforeHit.cur 7 beforeHit ≠ none) ∧
    ((∃ t, exec (.sym 2) beforeFinish = .next t ∧ t.mode = .active) ∧ beforeFinish.have_ = true ∧
      dictLookup beforeFinish.cur 2 beforeFinish = none ∧ beforeFinish.next.toNat < 4096 ∧
      isMatchCode beforeFinish.mcs beforeFinish.cur = true) ∧
    ((∃ t, exec (.sym 22) full = .next t ∧ t.mode = .active) ∧ full.have_ = true ∧
      dictLookup full.cur 22 full = none ∧ 4096 ≤ full.next.toNat) :=
  ⟨⟨⟨_, rfl, by decide⟩, rfl, rfl⟩, ⟨⟨_, rfl, by decide⟩, rfl, by decide⟩,
    ⟨⟨_, rfl, by decide⟩, rfl, by decide, by decide, by decide⟩, ⟨_, rfl, by decide⟩, rfl, by decide, by decide⟩

theorem witness_DictionaryStaysCanonical :
    beforeFinish.dict.wf = true ∧ ∃ t, exec (.sym 2) beforeFinish = .next t := ⟨by decide, ⟨_, rfl⟩⟩

theorem witness_OutputOnlyGrows :
    (∃ t, executeWord 0x3000 beforeFinish = .next t) ∧ (∃ t, executeWord 0xF000 beforeFinish = .next t) ∧
      ∃ t, executeWord 0x2004 beforeFinish = .next t ∧ t.mode = .fault :=
  ⟨⟨_, rfl⟩, ⟨_, rfl⟩, ⟨_, rfl, by decide⟩⟩

theorem witness_OutputOfEachCommand :
    BlockInvariant idleAfterFrame ∧ (∃ t, exec (.start 8) idleAfterFrame = .next t) ∧ BlockInvariant fullFrame ∧
      (∃ t, exec (.sym 22) fullFrame = .next t) ∧ (∃ t, exec .finish fullFrame = .next t) ∧ fullFrame.mode = .active :=
  ⟨idleAfterFrame_invariant, ⟨_, rfl⟩, fullFrame_invariant, ⟨_, rfl⟩, ⟨_, rfl⟩, rfl⟩

theorem witness_PackerTracksEncoder :
    BlockInvariant fullFrame ∧ (fullFrame.cur, fullFrame) ∈ emissions (.sym 22) fullFrame ∧
      (clearCode 8, emit fullFrame.cur fullFrame) ∈ emissions (.sym 22) fullFrame := by
  have h : emissions (.sym 22) fullFrame =
      [(fullFrame.cur, fullFrame), (clearCode fullFrame.mcs, emit fullFrame.cur fullFrame)] := by
    have h1 : (symbolInRange fullFrame.mcs 22 && fullFrame.have_ &&
        (dictLookup fullFrame.cur 22 fullFrame).isNone) = true := by
      rw [fullFrame_misses]; rfl
    have h2 : hasRoom fullFrame = false := rfl
    show (if (symbolInRange fullFrame.mcs 22 && fullFrame.have_ &&
        (dictLookup fullFrame.cur 22 fullFrame).isNone) = true then _ else _) = _
    rw [if_pos h1, h2]
    rfl
  refine ⟨fullFrame_invariant, ?_, ?_⟩
  · rw [h]; exact List.mem_cons_self
  · rw [h]; exact List.mem_cons_of_mem _ List.mem_cons_self

theorem witness_CommandsActThroughTokens :
    (Instr.start 2).format = .h ∧ Instr.start 2 ≠ .abort ∧ (∃ t, exec (.start 2) State.reset = .next t) ∧
      (∃ t, exec (.sym 22) full = .next t) ∧ ∃ t, exec .finish beforeFinish = .next t :=
  ⟨rfl, by decide, ⟨_, rfl⟩, ⟨_, rfl⟩, ⟨_, rfl⟩⟩

theorem witness_UnitsShareOnlyTokens :
    (first.encoder = { first with acc := 7, nbits := 6, blk := [1], blen := 1 }.encoder ∧
      ∃ t t', exec (.sym 1) first = .next t ∧
        exec (.sym 1) { first with acc := 7, nbits := 6, blk := [1], blen := 1 } = .next t') ∧
    (first.packer = { first with cur := 3, next := 9 }.packer ∧ first.mcs = { first with cur := 3, next := 9 }.mcs ∧
      ∃ t t', exec (.put 1) first = .next t ∧ exec (.put 1) { first with cur := 3, next := 9 } = .next t') :=
  ⟨⟨rfl, _, _, rfl, rfl⟩, rfl, rfl, _, _, rfl, rfl⟩

/-- The frame of scenario 1 meets the hypotheses of the statements about whole frames from an idle block. -/
theorem witness_frame_statements :
    2 ≤ (2 : MinCodeSize).toNat ∧ (2 : MinCodeSize).toNat ≤ 8 ∧
      (∀ b ∈ [0#8, 1#8, 1#8, 3#8], b.toNat < 2 ^ (2 : MinCodeSize).toNat) ∧ idleAfterFrame.mode = .idle := by decide

theorem witness_RoundTrip : 2 ≤ 8 ∧ 8 ≤ 8 ∧ ∀ b ∈ [0, 1, 255], b < 2 ^ 8 := by decide

/-- A frame still open, for the statements about open frames and about the strings of codes. -/
theorem witness_open_frame_statements :
    2 ≤ (2 : MinCodeSize).toNat ∧ (2 : MinCodeSize).toNat ≤ 8 ∧
      (∀ b ∈ [0#8, 1#8, 1#8, 3#8], b.toNat < 2 ^ (2 : MinCodeSize).toNat) ∧ idleAfterFrame.mode = .idle ∧
      ∃ t, execAll (frameSoFar 2 [0, 1, 1, 3]) idleAfterFrame = .next t :=
  ⟨by decide, by decide, by decide, rfl, ⟨_, rfl⟩⟩

theorem witness_PackerComputesBatchFunctions :
    2 ≤ (2 : MinCodeSize).toNat ∧ (2 : MinCodeSize).toNat ≤ 8 ∧ first.mcs = 2 ∧
      ∀ cw ∈ packerCodes [4, 0, 1, 1, 0, 5] (pInit 2 first), cw.1 < 2 ^ cw.2 := by decide

theorem witness_SeveralFrames :
    idleAfterFrame.mode = .idle ∧
      ∀ f ∈ [((2 : MinCodeSize), ([] : List Symbol)), (3, [7, 7, 7, 7, 7])],
        2 ≤ f.1.toNat ∧ f.1.toNat ≤ 8 ∧ ∀ b ∈ f.2, b.toNat < 2 ^ f.1.toNat := by decide

theorem witness_HistoryHasNoInfluence :
    (∀ i ∈ [Instr.start 2, .sym 1, .sym 4, .abort], i.format = .h) ∧ BlockInvariant idleAfterFrame ∧
      BlockInvariant { idleAfterFrame with out := [⟨0, true⟩] } ∧ idleAfterFrame.mode = .idle := by
  exact ⟨by decide, idleAfterFrame_invariant,
    ⟨fun _ => by constructor <;> rfl, nofun, nofun, by decide, by decide⟩, rfl⟩

theorem witness_BlocksAreIndependent :
    [opened, first][1]? = some first ∧ [0, 1, 1].count 1 = 2 := ⟨rfl, rfl⟩

theorem witness_PackBitsIsLittleEndian : ∀ cw ∈ [(0xABC, 12), (5, 3)], cw.1 < 2 ^ cw.2 := by decide

/-- `mcs` at both ends of its range, and a buffer with symbols, for the statements about `LzwCodes`. -/
theorem witness_code_statements :
    (2 ≤ 2 ∧ 2 ≤ 8 ∧ [3] ≠ [] ∧ ∀ b ∈ [3], b < 2 ^ 2) ∧ (2 ≤ 8 ∧ 8 ≤ 8 ∧ [255, 0] ≠ [] ∧ ∀ b ∈ [255, 0], b < 2 ^ 8) ∧
      (Batch.lzwCodes [3] 2)[0]? = some (4, 3) := by decide

/-- The empty frame of `WidthsByPosition`, and of rule R106 corner (a). -/
theorem test_codes_of_the_empty_frame :
    Batch.lzwCodes [] 2 = [(4, 3), (5, 3)] ∧ Batch.lzwCodes [] 8 = [(256, 9), (257, 9)] := by decide

/-- Symbols whose neighbours form each pair at most once in the first 4096 places, so that every one is a miss. -/
def freshSymbol (i : Nat) : Nat := if i % 2 = 0 then i / 2 % 64 else 64 + i / 128

theorem freshSymbol_lt {i : Nat} (h : i < 4096) : freshSymbol i < 2 ^ 8 := by
  unfold freshSymbol
  split <;> omega

theorem freshSymbol_inj {i j : Nat} (hi : i < 4096) (hj : j < 4096) (h : freshSymbol i = freshSymbol j)
    (h' : freshSymbol (i + 1) = freshSymbol (j + 1)) : i = j := by
  unfold freshSymbol at h h'
  split at h <;> split at h <;> split at h' <;> split at h' <;> omega

theorem lookup_eq_none {d : List ((Nat × Nat) × Nat)} {k : Nat × Nat} (h : ∀ e ∈ d, e.1 ≠ k) : d.lookup k = none :=
  List.lookup_eq_none_iff.mpr fun e he => by simpa using fun hk => h e he hk.symm

/-- The walk over fresh symbols: one code and one entry each, until the dictionary is full. -/
theorem walk_fresh {n : Nat} (h : n ≤ 3838) :
    let w := Batch.walk 8 (freshSymbol 0) ((List.range n).map fun i => freshSymbol (i + 1))
    w.next = 258 + n ∧ w.cur = freshSymbol n ∧ w.codes.length = 1 + n ∧
      ∀ e ∈ w.dict, ∃ i, i < n ∧ e.1 = (freshSymbol i, freshSymbol (i + 1)) := by
  induction n with
  | zero => exact ⟨rfl, rfl, rfl, fun e he => by cases he⟩
  | succ n ih =>
    obtain ⟨h1, h2, h3, h4⟩ := ih (by omega)
    have hl : (Batch.walk 8 (freshSymbol 0) ((List.range n).map fun i => freshSymbol (i + 1))).dict.lookup
        (freshSymbol n, freshSymbol (n + 1)) = none :=
      lookup_eq_none fun e he hk => by
        obtain ⟨i, hi, hk'⟩ := h4 e he
        have hp := Prod.mk.inj (hk'.symm.trans hk)
        exact absurd (freshSymbol_inj (by omega) (by omega) hp.1 hp.2) (by omega)
    simp only [Batch.walk, List.range_succ, List.map_append, List.map_cons, List.map_nil, List.foldl_append,
      List.foldl_cons, List.foldl_nil] at *
    generalize List.foldl _ _ _ = w at *
    simp only [Batch.walkSymbol, h2, hl, if_pos (show w.next < Config.cap by rw [h1]; show _ < 4096; omega)]
    refine ⟨by omega, trivial, by rw [List.length_append, h3]; rfl, fun e he => ?_⟩
    rcases List.mem_cons.mp he with rfl | he
    · exact ⟨n, by omega, rfl⟩
    · obtain ⟨i, hi, hk⟩ := h4 e he
      exact ⟨i, by omega, hk⟩

/-- `n + 2` fresh symbols: for `n = 3838` one miss more than the dictionary has room for (rule R111, `mcs = 8`). -/
def freshBuffer (n : Nat) : List Nat :=
  freshSymbol 0 :: ((List.range n).map (fun i => freshSymbol (i + 1)) ++ [freshSymbol (n + 1)])

theorem freshBuffer_lt {n : Nat} (h : n ≤ 3838) : ∀ b ∈ freshBuffer n, b < 2 ^ 8 := by
  intro b hb
  simp only [freshBuffer, List.mem_cons, List.mem_append, List.mem_map, List.mem_range, List.not_mem_nil,
    or_false] at hb
  rcases hb with rfl | ⟨i, hi, rfl⟩ | rfl <;> exact freshSymbol_lt (by omega)

/-- The miss on the full dictionary emits two codes, the second the Clear; two more codes end the stream. -/
theorem freshBuffer_codes {n : Nat} (hn : n = 3838) :
    ∃ l x y z, l.length = 1 + n ∧ Batch.lzwCodes (freshBuffer n) 8 = l ++ [x, (2 ^ 8, 12), y, z] := by
  obtain ⟨h1, h2, h3, h4⟩ := walk_fresh (n := n) (by omega)
  have hl : (Batch.walk 8 (freshSymbol 0) ((List.range n).map fun i => freshSymbol (i + 1))).dict.lookup
      (freshSymbol n, freshSymbol (n + 1)) = none :=
    lookup_eq_none fun e he hk => by
      obtain ⟨i, hi, hk'⟩ := h4 e he
      have hp := Prod.mk.inj (hk'.symm.trans hk)
      exact absurd (freshSymbol_inj (by omega) (by omega) hp.1 hp.2) (by omega)
  have hw : codeWidth 4096 = 12 := by decide
  simp only [freshBuffer, Batch.lzwCodes, Batch.walk, List.foldl_append, List.foldl_cons, List.foldl_nil] at *
  generalize List.foldl _ _ _ = w at *
  have hnext : w.next = 4096 := by omega
  have hc : (Batch.walkSymbol 8 w (freshSymbol (n + 1))).codes = w.codes ++ [(w.cur, 12), (2 ^ 8, 12)] := by
    simp only [Batch.walkSymbol, h2, hl, hnext]
    rw [if_neg (by decide), hw]
  exact ⟨w.codes, (w.cur, 12), _, _, h3, by rw [hc, List.append_assoc]; rfl⟩

/-- The middle clause of `WidthsByPosition`, and a later `Clear` of `ClearCodesFallAtMultiples`: at index
`4096 − 2^8`, before the last match code, there stands the Clear, 12 bits wide. -/
theorem witness_clear_in_mid_stream :
    ∃ B : List Nat, (∀ b ∈ B, b < 2 ^ 8) ∧ B ≠ [] ∧ (Batch.lzwCodes B 8)[4096 - 2 ^ 8]? = some (2 ^ 8, 12) ∧
      (4096 - 2 ^ 8) + 2 < (Batch.lzwCodes B 8).length := by
  refine ⟨freshBuffer 3838, freshBuffer_lt (Nat.le_refl _), List.cons_ne_nil _ _, ?_⟩
  obtain ⟨l, x, y, z, hlen, h⟩ := freshBuffer_codes rfl
  rw [h, List.getElem?_append_right (by omega), show 4096 - 2 ^ 8 - l.length = 1 by omega, List.length_append]
  refine ⟨rfl, ?_⟩
  show 4096 - 2 ^ 8 + 2 < l.length + 4
  omega

theorem witness_CodeCounts :
    (∀ b ∈ [3, 0], b < 2 ^ 2) ∧ State.reset.mode = .idle ∧
      (∃ t, exec (.start 2) State.reset = .next t ∧ t.mode = .active) ∧ BlockInvariant fullFrame ∧
      fullFrame.mode = .active :=
  ⟨by decide, rfl, ⟨_, rfl, by decide⟩, fullFrame_invariant, rfl⟩

theorem witness_RunOfOneSymbol : 2 ≤ 8 ∧ 8 ≤ 8 ∧ 255 < 2 ^ 8 ∧ 1 ≤ 4 ∧ 4 ≤ 4 ∧ 4 ≤ 4096 - (2 ^ 8 + 2) := by decide

end Sys2Proof.Tests
end

section
/-! The width of the next code while a frame is open (00_scope.md rule R6). -/

namespace Sys2Proof.Machine

/-- While a frame is open the width has not fallen below its start value `mcs + 1`: `next` never goes below `First`,
and the width grows with the count. -/
theorem FrameOpen.mcs_lt_codeWidth_next {s : State} (h : FrameOpen s) :
    s.mcs.toNat + 1 ≤ codeWidth s.next.toNat := by
  obtain ⟨-, -, -, -, -, hstart⟩ := frame_constants s.mcs h.mcs_legal
  calc s.mcs.toNat + 1 = codeWidth (minDictLen s.mcs + 2) := hstart.symm
    _ ≤ codeWidth s.next.toNat := codeWidth_mono h.next_low h.next_high

/-- Settles O8: the width is enough and least by the two laws of `codeWidth`; in an open frame it lies between its
start value and the cap. -/
theorem widthStaysInRange : Obligations.WidthStaysInRange :=
  ⟨fun _ _ hn => ⟨le_two_pow_codeWidth hn, fun _ => codeWidth_le_of⟩,
    fun s h => ⟨h.mcs_lt_codeWidth_next, codeWidth_le_max s.next.toNat⟩⟩

end Sys2Proof.Machine
end

section
/-! The host port's decoder read backwards: a decoded word is the encoding of its command (30_encoding.md rules R71
to R75, R84). -/

namespace Sys2Proof.Machine

/-- A word is its operation field, the bits above `START`'s operand, and that operand (rule R72). -/
theorem opField_append_mcsField (w : BitVec 16) : opField w ++ aboveMcsField w ++ mcsField w = w := by
  have hop : opField w ++ aboveMcsField w = w.extractLsb' 4 12 :=
    BitVec.extractLsb'_append_extractLsb'_eq_extractLsb' rfl
  rw [hop]
  exact (BitVec.extractLsb'_append_extractLsb'_eq_extractLsb' rfl).trans BitVec.extractLsb'_eq_self

/-- A word is its operation field, the bits above `SYM`'s operand, and that operand (rule R73). -/
theorem opField_append_symField (w : BitVec 16) : opField w ++ aboveSymField w ++ symField w = w := by
  have hop : opField w ++ aboveSymField w = w.extractLsb' 8 8 :=
    BitVec.extractLsb'_append_extractLsb'_eq_extractLsb' rfl
  rw [hop]
  exact (BitVec.extractLsb'_append_extractLsb'_eq_extractLsb' rfl).trans BitVec.extractLsb'_eq_self

/-- A word is its operation and operand fields (rule R71). -/
theorem opField_append_argField (w : BitVec 16) : opField w ++ argField w = w :=
  (BitVec.extractLsb'_append_extractLsb'_eq_extractLsb' rfl).trans BitVec.extractLsb'_eq_self

/-- The port reads host commands only, and the word it read is the command's encoding (rules R72 to R75). -/
theorem decodeCommand_ok {cw : CommandWord} {i : Instr} (h : decodeCommand cw = .ok i) :
    i.format = .h ∧ encode i = cw := by
  have hm := opField_append_mcsField cw
  have hs := opField_append_symField cw
  have ha := opField_append_argField cw
  simp only [decodeCommand] at h
  split_ifs at h with hop hz hop hz hop hz hop hz <;> obtain rfl := Except.ok.inj h <;> refine ⟨rfl, ?_⟩
  · rwa [hop, hz] at hm
  · rwa [hop, hz] at hs
  · rwa [hop, hz] at ha
  · rwa [hop, hz] at ha

theorem toNat_append_eq {m n : Nat} (x : BitVec m) (y : BitVec n) : (x ++ y).toNat = x.toNat * 2 ^ n + y.toNat := by
  rw [BitVec.toNat_append, ← Nat.shiftLeft_add_eq_or_of_lt y.isLt, Nat.shiftLeft_eq]

/-- The words of the host commands are among the 274 legal ones (rule R84). -/
theorem legalWord_encode {i : Instr} (h : i.format = .h) : legalWord (encode i) = true := by
  cases i with
  | start m =>
    have hw : (encode (.start m)).toNat = 0x1000 + m.toNat := toNat_append_eq (0x1#4 ++ 0#8) m
    have := m.isLt
    simp only [legalWord, hw, Bool.or_eq_true, decide_eq_true_eq]
    omega
  | sym b =>
    have hw : (encode (.sym b)).toNat = 0x2000 + b.toNat := toNat_append_eq (0x2#4 ++ 0#4) b
    have := b.isLt
    simp only [legalWord, hw, Bool.or_eq_true, decide_eq_true_eq]
    omega
  | finish => rfl
  | abort => rfl
  | pinit m => cases h
  | put c => cases h
  | pflush => cases h

end Sys2Proof.Machine
end

section
/-! What each host command does in each mode, one equation per row (40_lzw_encoder.md rules R103 to R107), and the
inversion of these rows; from them the transition table of `mode` (10_state.md rule R22). -/

namespace Sys2Proof.Machine

variable {s t u : State} {i : Instr} {cw : CommandWord}

/-- An outcome is one next state. -/
theorem next_unique {o : Host.Outcome State Fault Refusal} (e : o = .next u) (h : o = .next t) : u = t :=
  Host.Outcome.next.inj (e.symm.trans h)

/-- A symbol is legal if it is one of the `2^mcs` literals (rule R105). -/
theorem symbolInRange_iff {m : MinCodeSize} {b : Symbol} : symbolInRange m b = true ↔ b.toNat < 2 ^ m.toNat :=
  decide_eq_true_iff

/-! ### The commands, by mode -/

theorem exec_start_legal {m : MinCodeSize} (hs : s.mode = .idle) (hm : legalMcs m = true) :
    exec (.start m) s = .next (openFrame m s) := by
  simp [exec, execStart, hs, hm]

theorem exec_start_illegal {m : MinCodeSize} (hs : s.mode = .idle) (hm : ¬legalMcs m = true) :
    exec (.start m) s = .next (raiseFault .paramError (encode (.start m)) s) := by
  simp [exec, execStart, hs, hm]

theorem exec_start_active (m : MinCodeSize) (hs : s.mode = .active) :
    exec (.start m) s = .next (raiseFault .protocolError (encode (.start m)) s) := by
  simp [exec, execStart, hs]

theorem exec_sym_idle (b : Symbol) (hs : s.mode = .idle) :
    exec (.sym b) s = .next (raiseFault .protocolError (encode (.sym b)) s) := by
  simp [exec, execSym, hs]

theorem exec_sym_inRange {b : Symbol} (hs : s.mode = .active) (hb : symbolInRange s.mcs b = true) :
    exec (.sym b) s = .next (consumeSymbol b s) := by
  simp [exec, execSym, hs, hb]

theorem exec_sym_outOfRange {b : Symbol} (hs : s.mode = .active) (hb : ¬symbolInRange s.mcs b = true) :
    exec (.sym b) s = .next (raiseFault .encodingError (encode (.sym b)) s) := by
  simp [exec, execSym, hs, hb]

theorem exec_finish_idle (hs : s.mode = .idle) :
    exec .finish s = .next (raiseFault .protocolError (encode .finish) s) := by
  simp [exec, execFinish, hs]

theorem exec_finish_active (hs : s.mode = .active) : exec .finish s = .next (closeFrame s) := by
  simp [exec, execFinish, hs]

theorem exec_abort (s : State) : exec .abort s = .next (returnToIdle s) := rfl

/-- Rule R186: in Fault mode every command but `ABORT` is dropped. -/
theorem exec_of_fault (hf : i.format = .h) (ha : i ≠ .abort) (hs : s.mode = .fault) : exec i s = .next s := by
  cases i with
  | start m => simp [exec, execStart, hs]
  | sym b => simp [exec, execSym, hs]
  | finish => simp [exec, execFinish, hs]
  | abort => exact absurd rfl ha
  | pinit m => cases hf
  | put c => cases hf
  | pflush => cases hf

/-! ### The mode an accepted command ends in -/

@[simp] theorem openFrame_mode (m : MinCodeSize) (s : State) : (openFrame m s).mode = .active := by
  simp [openFrame]

@[simp] theorem consumeSymbol_mode (b : Symbol) (s : State) : (consumeSymbol b s).mode = s.mode := by
  unfold consumeSymbol
  repeat' split
  · rfl
  · exact missSymbol_mode s b
  · rfl

@[simp] theorem closeFrame_mode (s : State) : (closeFrame s).mode = .idle := rfl

/-! ### Inversion -/

/-- The states a host command `i` can lead to from `s`: dropped or refused, or accepted in the one mode that allows it
(rules R103 to R107, R184 to R186). -/
inductive CommandResult (s : State) : Instr → State → Prop
  | dropped {i : Instr} (hs : s.mode = .fault) : CommandResult s i s
  | refused {i : Instr} (x : Cause) (hs : s.mode ≠ .fault) : CommandResult s i (raiseFault x (encode i) s)
  | opened {m : MinCodeSize} (hs : s.mode = .idle) (hm : legalMcs m = true) :
      CommandResult s (.start m) (openFrame m s)
  | consumed {b : Symbol} (hs : s.mode = .active) (hb : symbolInRange s.mcs b = true) :
      CommandResult s (.sym b) (consumeSymbol b s)
  | closed (hs : s.mode = .active) : CommandResult s .finish (closeFrame s)
  | aborted : CommandResult s .abort (returnToIdle s)

theorem exec_commandResult (hf : i.format = .h) (h : exec i s = .next t) : CommandResult s i t := by
  by_cases ha : i = .abort
  · subst ha
    exact next_unique (exec_abort s) h ▸ .aborted
  by_cases hs : s.mode = .fault
  · exact next_unique (exec_of_fault hf ha hs) h ▸ (.dropped hs)
  cases i with
  | start m =>
    cases hm : s.mode with
    | idle =>
      by_cases hl : legalMcs m = true
      · exact next_unique (exec_start_legal hm hl) h ▸ (.opened hm hl)
      · exact next_unique (exec_start_illegal hm hl) h ▸ (.refused _ hs)
    | active => exact next_unique (exec_start_active m hm) h ▸ (.refused _ hs)
    | fault => exact absurd hm hs
  | sym b =>
    cases hm : s.mode with
    | idle => exact next_unique (exec_sym_idle b hm) h ▸ (.refused _ hs)
    | active =>
      by_cases hb : symbolInRange s.mcs b = true
      · exact next_unique (exec_sym_inRange hm hb) h ▸ (.consumed hm hb)
      · exact next_unique (exec_sym_outOfRange hm hb) h ▸ (.refused _ hs)
    | fault => exact absurd hm hs
  | finish =>
    cases hm : s.mode with
    | idle => exact next_unique (exec_finish_idle hm) h ▸ (.refused _ hs)
    | active => exact next_unique (exec_finish_active hm) h ▸ (.closed hm)
    | fault => exact absurd hm hs
  | abort => exact absurd rfl ha
  | pinit m => cases hf
  | put c => cases hf
  | pflush => cases hf

/-- A command that ends in Fault mode has written the status registers and nothing else (rules R184 to R186). -/
theorem CommandResult.eq_of_mode_fault (r : CommandResult s i t) (ht : t.mode = .fault) :
    t = { s with mode := t.mode, cause := t.cause, finfo := t.finfo } := by
  cases r with
  | dropped => rfl
  | refused => rfl
  | opened => simp at ht
  | consumed hs => simp [hs] at ht
  | closed => simp at ht
  | aborted => simp at ht

/-! ### Words at the port -/

theorem illegalWord_of_fault (hs : s.mode = .fault) : illegalWord cw s = s := by
  simp [illegalWord, hs]

theorem illegalWord_of_not_fault (hs : s.mode ≠ .fault) : illegalWord cw s = raiseFault .illegalCommand cw s := by
  unfold illegalWord
  split
  next h => exact absurd h hs
  next => rfl
  next => rfl

theorem executeWord_ok (hd : decodeCommand cw = .ok i) : executeWord cw s = exec i s := by
  simp [executeWord, hd]

theorem executeWord_error {e : DecodeError} (hd : decodeCommand cw = .error e) :
    executeWord cw s = .next (illegalWord cw s) := by
  simp [executeWord, hd]

/-- A word that is none of the 274 is an illegal word (rule R85). -/
theorem executeWord_illegal (hl : legalWord cw = false) : executeWord cw s = .next (illegalWord cw s) := by
  cases hd : decodeCommand cw with
  | error e => exact executeWord_error hd
  | ok i =>
    obtain ⟨hf, rfl⟩ := decodeCommand_ok hd
    rw [legalWord_encode hf] at hl
    cases hl

/-- In Fault mode every word but `ABORT`'s is dropped (rule R186). -/
theorem executeWord_of_fault (hs : s.mode = .fault) (ha : cw ≠ 0xF000) : executeWord cw s = .next s := by
  cases hd : decodeCommand cw with
  | error e => rw [executeWord_error hd, illegalWord_of_fault hs]
  | ok i =>
    obtain ⟨hf, rfl⟩ := decodeCommand_ok hd
    rw [executeWord_ok hd]
    exact exec_of_fault hf (fun h => ha (congrArg encode h)) hs

/-- Settles O28: each row is the equation of its command in its mode. -/
theorem modeTransitionTable : Obligations.ModeTransitionTable := by
  intro s t
  refine ⟨fun m h hs hm => ?_, fun m h hs hm => ?_, fun b h hs => ?_, fun h hs => ?_, fun b h hs hb => ?_,
    fun b h hs hb => ?_, fun h hs => ?_, fun m h hs => ?_, fun cw h hl hs => ?_, fun h => ?_, fun cw h hs ha => ?_,
    fun h => ?_⟩
  · exact next_unique (exec_start_legal hs ((legalMcs_iff m).mpr hm)) h ▸ (openFrame_mode m s)
  · exact next_unique (exec_start_illegal hs (mt (legalMcs_iff m).mp hm)) h ▸ ⟨rfl, rfl⟩
  · exact next_unique (exec_sym_idle b hs) h ▸ ⟨rfl, rfl⟩
  · exact next_unique (exec_finish_idle hs) h ▸ ⟨rfl, rfl⟩
  · exact next_unique (exec_sym_inRange hs (symbolInRange_iff.mpr hb)) h ▸ ((consumeSymbol_mode b s).trans hs)
  · exact next_unique (exec_sym_outOfRange hs (mt symbolInRange_iff.mp (Nat.not_lt.mpr hb))) h ▸ ⟨rfl, rfl⟩
  · exact next_unique (exec_finish_active hs) h ▸ (closeFrame_mode s)
  · exact next_unique (exec_start_active m hs) h ▸ ⟨rfl, rfl⟩
  · rw [executeWord_illegal hl, illegalWord_of_not_fault hs] at h
    exact next_unique rfl h ▸ ⟨rfl, rfl⟩
  · exact next_unique (exec_abort s) h ▸ (returnToIdle_mode s)
  · exact (next_unique (executeWord_of_fault hs ha) h).symm
  · exact next_unique rfl h ▸ rfl

end Sys2Proof.Machine
end

section
/-! What the commands and tokens leave in `have` and `pk_first` (10_state.md rule R41). -/

namespace Sys2Proof.Machine

variable {s t : State} {i : Instr}

/-! ### The reserved codes -/

theorem isMatchCode_clear (m : MinCodeSize) : isMatchCode m (clearCode m) = false := by
  simp [isMatchCode]

theorem isMatchCode_end (m : MinCodeSize) : isMatchCode m (endCode m) = false := by
  simp [isMatchCode]

theorem ne_clearCode_of_isMatchCode {m : MinCodeSize} {c : Code} (hc : isMatchCode m c = true) :
    c ≠ clearCode m := by
  rintro rfl
  rw [isMatchCode_clear] at hc
  cases hc

/-! ### The packer's schedule -/

/-- A match code is no longer the first after a Clear (rule R131). -/
theorem moveSchedule_pk_first (c : Code) (s : State) :
    (moveSchedule c s).pk_first = if isMatchCode s.mcs c then false else s.pk_first := by
  unfold moveSchedule
  split
  · split
    · rfl
    next hf =>
      have hf : s.pk_first = false := Bool.eq_false_of_not_eq_true hf
      split <;> exact hf
  · rfl

theorem restartSchedule_pk_first (c : Code) (s : State) :
    (restartSchedule c s).pk_first = if c = clearCode s.mcs then true else s.pk_first := by
  unfold restartSchedule
  split <;> rfl

/-- `pk_first` after a `PUT`, whatever the accumulator holds (rule R131). -/
theorem putCode_pk_first_eq (c : Code) (s : State) :
    (putCode c s).pk_first =
      if c = clearCode s.mcs then true else if isMatchCode s.mcs c then false else s.pk_first := by
  simp [putCode, restartSchedule_pk_first, moveSchedule_pk_first]

theorem emit_clear_pk_first {c : Code} (hc : c = clearCode s.mcs) : (emit c s).pk_first = true := by
  simp [emit, putCode_pk_first_eq, hc]

/-- Emitting a match code lowers `pk_first`: a match code is not Clear. -/
theorem emit_match_pk_first {c : Code} (hc : isMatchCode s.mcs c = true) : (emit c s).pk_first = false := by
  simp [emit, putCode_pk_first_eq, ne_clearCode_of_isMatchCode hc, hc]

/-- By the three kinds of code (rule R78). -/
theorem putCode_pk_first_cases (c : Code) (s : State) :
    (putCode c s).pk_first =
      (if c = clearCode s.mcs then true else if c = endCode s.mcs then s.pk_first else false) := by
  rw [putCode_pk_first_eq]
  by_cases hclear : c = clearCode s.mcs
  · rw [if_pos hclear, if_pos hclear]
  · by_cases hend : c = endCode s.mcs <;> simp [isMatchCode, hclear, hend]

/-! ### The host commands -/

@[simp] theorem openFrame_have_ (m : MinCodeSize) (s : State) : (openFrame m s).have_ = false := by
  simp [openFrame]

@[simp] theorem openFrame_pk_first (m : MinCodeSize) (s : State) : (openFrame m s).pk_first = true :=
  emit_clear_pk_first (s := { pInit m (beginFrame m s) with mode := .active }) rfl

@[simp] theorem closeFrame_have_ (s : State) : (closeFrame s).have_ = false := rfl

@[simp] theorem closeFrame_pk_first (s : State) : (closeFrame s).pk_first = false := rfl

/-- The first symbol of a frame becomes the match (rule R105). -/
theorem consumeSymbol_first {b : Symbol} (hh : s.have_ = false) :
    consumeSymbol b s = { s with cur := literalCode b, have_ := true } := by
  simp [consumeSymbol, hh]

/-- A hit lengthens the match (rule R105). -/
theorem consumeSymbol_hit {b : Symbol} {c : Code} (hh : s.have_ = true) (hd : dictLookup s.cur b s = some c) :
    consumeSymbol b s = { s with cur := c } := by
  simp [consumeSymbol, hh, hd]

theorem consumeSymbol_miss {b : Symbol} (hh : s.have_ = true) (hd : dictLookup s.cur b s = none) :
    consumeSymbol b s = missSymbol b s := by
  simp [consumeSymbol, hh, hd]

theorem growOrReset_room (b : Symbol) (hn : s.next.toNat < 4096) : growOrReset b s = enterPair b s :=
  if_pos (decide_eq_true hn)

theorem growOrReset_full (b : Symbol) (hn : 4096 ≤ s.next.toNat) : growOrReset b s = resetDictionary s :=
  if_neg (by simpa [hasRoom] using hn)

theorem missSymbol_room (b : Symbol) (hn : s.next.toNat < 4096) :
    missSymbol b s = { enterPair b (emit s.cur s) with cur := literalCode b } := by
  rw [missSymbol, growOrReset_room b (by rwa [emit_next])]

theorem missSymbol_full (b : Symbol) (hn : 4096 ≤ s.next.toNat) :
    missSymbol b s = { resetDictionary (emit s.cur s) with cur := literalCode b } := by
  rw [missSymbol, growOrReset_full b (by rwa [emit_next])]

@[simp] theorem resetDictionary_pk_first (s : State) : (resetDictionary s).pk_first = true :=
  emit_clear_pk_first rfl

@[simp] theorem consumeSymbol_have_ (b : Symbol) (s : State) : (consumeSymbol b s).have_ = true := by
  cases hh : s.have_ with
  | false => rw [consumeSymbol_first hh]
  | true =>
    cases hd : dictLookup s.cur b s with
    | none => rw [consumeSymbol_miss hh hd, missSymbol_have_, hh]
    | some c => rw [consumeSymbol_hit hh hd]; exact hh

/-- A `SYM` that leaves the frame open was accepted. -/
theorem CommandResult.eq_consumeSymbol {b : Symbol} (r : CommandResult s (.sym b) t) (hs : s.mode = .active)
    (ht : t.mode = .active) : t = consumeSymbol b s := by
  cases r with
  | dropped hm => rw [hs] at hm; cases hm
  | refused => cases ht
  | consumed => rfl

/-- A `START` in Idle that opens a frame was accepted. -/
theorem CommandResult.eq_openFrame {m : MinCodeSize} (r : CommandResult s (.start m) t) (hs : s.mode = .idle)
    (ht : t.mode = .active) : t = openFrame m s := by
  cases r with
  | dropped hm => rw [hs] at hm; cases hm
  | refused => cases ht
  | opened => rfl

/-- Settles O32: the flags of each accepted command and token are read off the operation it runs; a refused or
dropped command has written the status registers only. -/
theorem flagWrites : Obligations.FlagWrites := by
  intro s t
  refine ⟨fun m h hs ht => ?_, fun b h hs ht => ?_, fun h hs => ?_, fun h => ?_, fun i hf h ht => ?_,
    fun m h => ?_, fun c h => ?_, fun h => ?_⟩
  · rw [(exec_commandResult rfl h).eq_openFrame hs ht]
    exact ⟨openFrame_have_ m s, openFrame_pk_first m s⟩
  · rw [(exec_commandResult rfl h).eq_consumeSymbol hs ht]
    refine ⟨consumeSymbol_have_ b s, fun hh => ?_, fun hh hd => ?_, fun hh hd hn hc => ?_, fun hh hd hn => ?_⟩
    · rw [consumeSymbol_first hh]
    · obtain ⟨c, hc⟩ := Option.ne_none_iff_exists'.mp hd
      rw [consumeSymbol_hit hh hc]
    · rw [consumeSymbol_miss hh hd, missSymbol_room b hn]
      exact emit_match_pk_first hc
    · rw [consumeSymbol_miss hh hd, missSymbol_full b hn]
      exact resetDictionary_pk_first _
  · exact next_unique (exec_finish_active hs) h ▸ ⟨closeFrame_have_ s, closeFrame_pk_first s⟩
  · exact next_unique (exec_abort s) h ▸ ⟨rfl, rfl⟩
  · rw [(exec_commandResult hf h).eq_of_mode_fault ht]
    exact ⟨rfl, rfl⟩
  · exact next_unique (u := pInit m s) rfl h ▸ ⟨pInit_have_ s m, pInit_pk_first s m⟩
  · exact next_unique (u := putCode c s) rfl h ▸ ⟨putCode_have_ s c, putCode_pk_first_cases c s⟩
  · exact next_unique (u := pFlush s) rfl h ▸ ⟨pFlush_have_ s, pFlush_pk_first s⟩

end Sys2Proof.Machine
end

section
/-! The output only grows (10_state.md rule R38): every operation leaves what is already in `out` and
only adds at its end. -/

namespace Sys2Proof.Machine

variable {s t : State} {i : Instr} {cw : CommandWord}

/-! ### The packer's operations -/

theorem flushBlock_out_grows (s : State) : s.out <+: (flushBlock s).out :=
  (List.prefix_append s.out [⟨s.blen, false⟩]).trans (List.prefix_append _ (payloadTokens s))

theorem pushByte_out_grows (b : Byte) (s : State) : s.out <+: (pushByte b s).out := by
  unfold pushByte flushFull
  split
  · exact flushBlock_out_grows (storeByte b s)
  · exact List.prefix_rfl

theorem drainBytes_out_grows (n : Nat) (s : State) : s.out <+: (drainBytes n s).out := by
  induction n generalizing s with
  | zero => exact List.prefix_rfl
  | succ n ih => exact (pushByte_out_grows _ s).trans (ih (drainByte s))

theorem putCode_out_grows (c : Code) (s : State) : s.out <+: (putCode c s).out := by
  have h := drainBytes_out_grows ((appendCode c (moveSchedule c s)).nbits.toNat / 8) (appendCode c (moveSchedule c s))
  rw [appendCode_out, moveSchedule_out] at h
  rwa [putCode, restartSchedule_out, drainComplete]

theorem emit_out_grows (c : Code) (s : State) : s.out <+: (emit c s).out := putCode_out_grows c s

theorem pFlush_out_grows (s : State) : s.out <+: (pFlush s).out := by
  have hpad : s.out <+: (padLastByte s).out := by
    unfold padLastByte
    split
    · exact pushByte_out_grows _ s
    · exact List.prefix_rfl
  have hrest : (padLastByte s).out <+: (flushRest (padLastByte s)).out := by
    unfold flushRest
    split
    · exact flushBlock_out_grows _
    · exact List.prefix_rfl
  exact hpad.trans (hrest.trans (List.prefix_append _ _))

/-! ### The host commands -/

theorem missSymbol_out_grows (b : Symbol) (s : State) : s.out <+: (missSymbol b s).out := by
  have hput : s.out <+: (emit s.cur s).out := emit_out_grows _ s
  by_cases hn : s.next.toNat < 4096
  · rw [missSymbol_room b hn]
    exact hput
  · rw [missSymbol_full b (Nat.le_of_not_lt hn)]
    exact hput.trans (emit_out_grows _ _)

theorem consumeSymbol_out_grows (b : Symbol) (s : State) : s.out <+: (consumeSymbol b s).out := by
  cases hh : s.have_ with
  | false => rw [consumeSymbol_first hh]
  | true =>
    cases hd : dictLookup s.cur b s with
    | none => rw [consumeSymbol_miss hh hd]; exact missSymbol_out_grows b s
    | some c => rw [consumeSymbol_hit hh hd]

theorem emitMatch_out_grows (s : State) : s.out <+: (emitMatch s).out := by
  unfold emitMatch
  split
  · exact emit_out_grows _ s
  · exact List.prefix_rfl

theorem openFrame_out_grows (m : MinCodeSize) (s : State) : s.out <+: (openFrame m s).out :=
  emit_out_grows (clearCode m) { pInit m (beginFrame m s) with mode := .active }

theorem closeFrame_out_grows (s : State) : s.out <+: (closeFrame s).out := by
  rw [closeFrame, endFrame_out]
  exact (emitMatch_out_grows s).trans ((emit_out_grows _ _).trans (pFlush_out_grows _))

theorem CommandResult.out_grows (r : CommandResult s i t) : s.out <+: t.out := by
  cases r with
  | dropped => exact List.prefix_rfl
  | refused => exact List.prefix_rfl
  | opened => exact openFrame_out_grows _ s
  | consumed => exact consumeSymbol_out_grows _ s
  | closed => exact closeFrame_out_grows s
  | aborted => exact List.prefix_rfl

/-- `ABORT` and a fault leave the output as it is. -/
theorem CommandResult.out_eq (r : CommandResult s i t) (h : i = .abort ∨ t.mode = .fault) : t.out = s.out := by
  obtain rfl | ht := h
  · cases r <;> rfl
  · rw [r.eq_of_mode_fault ht]

theorem illegalWord_out (cw : CommandWord) (s : State) : (illegalWord cw s).out = s.out := by
  unfold illegalWord
  split <;> rfl

theorem decodeCommand_abort : decodeCommand 0xF000 = .ok .abort := rfl

/-- Settles O34: a decoded command's result extends the output, an illegal word leaves it. -/
theorem outputOnlyGrows : Obligations.OutputOnlyGrows := by
  intro cw s t h
  cases hd : decodeCommand cw with
  | error e =>
    rw [executeWord_error hd] at h
    have hout : t.out = s.out := next_unique rfl h ▸ illegalWord_out cw s
    exact ⟨⟨[], by rw [hout, List.append_nil]⟩, fun _ => hout⟩
  | ok i =>
    rw [executeWord_ok hd] at h
    have r := exec_commandResult (decodeCommand_ok hd).1 h
    refine ⟨r.out_grows.imp fun _ => Eq.symm, fun hq => r.out_eq (hq.imp_left ?_)⟩
    rintro rfl
    exact Except.ok.inj (hd.symm.trans decodeCommand_abort)

end Sys2Proof.Machine
end

section
/-! Idle is canonical (10_state.md rule R39): an accepted `FINISH` leaves every register but `out` at its reset value,
since the codes it puts fit their widths and so no bit is left in the packer (42_composition.md rule R164). -/

namespace Sys2Proof.Machine

variable {s t : State} {i : Instr}

/-- Settles O2: at reset the block is idle and canonical. -/
theorem invariantHoldsAtReset : Obligations.InvariantHoldsAtReset where
  idle _ := ⟨rfl, rfl, rfl, rfl, rfl, rfl, rfl, rfl, rfl, rfl, rfl⟩
  active := nofun
  frozen := nofun
  cause := ⟨fun _ => nofun, fun _ => rfl⟩
  finfo _ := rfl

/-! ### The invariant does not see the host's inputs -/

theorem Canonical.with_pending (h : Canonical s) (p : List Input) : Canonical { s with pending := p } := { h with }

theorem FrameOpen.with_pending (h : FrameOpen s) (p : List Input) : FrameOpen { s with pending := p } := { h with }

theorem BlockInvariant.with_pending (h : BlockInvariant s) (p : List Input) :
    BlockInvariant { s with pending := p } where
  idle hm := (h.idle hm).with_pending p
  active hm := (h.active hm).with_pending p
  frozen hm := (h.frozen hm).imp (·.with_pending p) (·.with_pending p)
  cause := h.cause
  finfo := h.finfo

/-! ### The codes of a FINISH fit -/

theorem FrameOpen.packerOk (h : FrameOpen s) : PackerOk s := ⟨⟨h.blen_low, h.blk_len⟩, h.nbits_low, h.acc_low⟩

theorem moveSchedule_reserved {c : Code} (hc : isMatchCode s.mcs c = false) : moveSchedule c s = s := by
  simp [moveSchedule, hc]

/-- As the packer takes the match code its count catches up with the encoder's (rule R164 I7). -/
theorem FrameOpen.moveSchedule_match_pk_next (h : FrameOpen s) (hh : s.have_ = true) :
    (moveSchedule s.cur s).pk_next = s.next := by
  rw [moveSchedule, if_pos (h.match_code hh).2]
  cases hf : s.pk_first with
  | true =>
    obtain ⟨hpk, hnext⟩ := h.after_clear hf
    rw [if_pos rfl, hpk, hnext]
  | false =>
    obtain ⟨-, hlag, -⟩ := h.lag hf
    have hcap : s.next.toNat ≤ 4096 := h.next_high
    rw [if_neg Bool.false_ne_true, if_pos (show s.pk_next.toNat < 4096 by omega)]
    show s.pk_next + 1 = s.next
    bv_omega

/-- A match code goes out with its full value: it is below `next`, whose width it gets (rule R164 I5, I6). -/
theorem FrameOpen.match_lt_two_pow_packerWidth (h : FrameOpen s) (hh : s.have_ = true) :
    s.cur.toNat < 2 ^ packerWidth s.cur s := by
  rw [packerWidth, h.moveSchedule_match_pk_next hh]
  exact (h.match_code hh).1.trans_le (le_two_pow_codeWidth h.next_high)

/-- After the last match code the packer is between commands, and its count is the encoder's. -/
theorem FrameOpen.emitMatch_packer (h : FrameOpen s) : PackerOk (emitMatch s) ∧ (emitMatch s).pk_next = s.next := by
  cases hh : s.have_ with
  | false =>
    have hfirst : s.pk_first = true := by
      by_contra hf
      obtain ⟨hhave, -, -⟩ := h.lag (Bool.eq_false_of_not_eq_true hf)
      rw [hh] at hhave
      cases hhave
    obtain ⟨hpk, hnext⟩ := h.after_clear hfirst
    rw [emitMatch, if_neg (by rw [hh]; exact Bool.false_ne_true)]
    exact ⟨h.packerOk, hpk.trans hnext.symm⟩
  | true =>
    have hclear : s.cur ≠ clearCode s.mcs := ne_clearCode_of_isMatchCode (h.match_code hh).2
    rw [emitMatch, if_pos hh, emit]
    refine ⟨putCode_packerOk h.packerOk (h.match_lt_two_pow_packerWidth hh), ?_⟩
    rw [putCode_pk_next h.nbits_low, scheduleAfter, if_neg hclear]
    exact h.moveSchedule_match_pk_next hh

/-- End is below `First`, so it fits the width of `next` (rule R137). -/
theorem FrameOpen.end_packerOk (h : FrameOpen s) : PackerOk (emit (endCode s.mcs) (emitMatch s)) := by
  obtain ⟨hok, hpk⟩ := h.emitMatch_packer
  obtain ⟨-, -, -, hend, -, -⟩ := frame_constants s.mcs h.mcs_legal
  have hreserved : isMatchCode (emitMatch s).mcs (endCode s.mcs) = false := by
    rw [emitMatch_mcs]
    exact isMatchCode_end s.mcs
  refine putCode_packerOk hok ?_
  rw [packerWidth, moveSchedule_reserved hreserved, hpk, hend]
  exact (Nat.lt_of_succ_le h.next_low).trans_le (le_two_pow_codeWidth h.next_high)

/-! ### Idle states -/

/-- A frame closed from a packer between commands leaves nothing behind (rules R106, R132). -/
theorem endFrame_pFlush_canonical (h : PackerOk s) : Canonical (endFrame (pFlush s)) := by
  rw [pFlush_eq h]
  exact ⟨rfl, rfl, rfl, rfl, rfl, rfl, rfl, rfl, rfl, rfl, rfl⟩

theorem FrameOpen.closeFrame_canonical (h : FrameOpen s) : Canonical (closeFrame s) :=
  endFrame_pFlush_canonical h.end_packerOk

/-- A canonical idle state without a fault is the reset state in all but the output and the host's inputs. -/
theorem Canonical.eq_reset (h : Canonical s) (hm : s.mode = .idle) (hc : s.cause = .none) (hf : s.finfo = 0) :
    s = { State.reset with out := s.out, pending := s.pending } := by
  obtain ⟨⟩ := s
  obtain ⟨⟩ := h
  simp_all [State.reset]

theorem BlockInvariant.eq_reset (h : BlockInvariant s) (hm : s.mode = .idle) :
    s = { State.reset with out := s.out, pending := s.pending } := by
  have hnf : s.mode ≠ .fault := by rw [hm]; exact nofun
  exact (h.idle hm).eq_reset hm (h.cause.mpr hnf) (h.finfo hnf)

/-- Of the host's commands only `FINISH` in Active and `ABORT` end in Idle. -/
theorem CommandResult.eq_reset (r : CommandResult s i t) (h : BlockInvariant s) (ht : t.mode = .idle) :
    t = { State.reset with out := t.out, pending := t.pending } := by
  cases r with
  | dropped => exact h.eq_reset ht
  | refused => cases ht
  | opened => rw [openFrame_mode] at ht; cases ht
  | consumed hs => rw [consumeSymbol_mode, hs] at ht; cases ht
  | closed hs =>
    have hnf : s.mode ≠ .fault := by rw [hs]; exact nofun
    have hc : (closeFrame s).cause = s.cause := by simp [closeFrame]
    have hf : (closeFrame s).finfo = s.finfo := by simp [closeFrame]
    exact (h.active hs).closeFrame_canonical.eq_reset ht (hc.trans (h.cause.mpr hnf)) (hf.trans (h.finfo hnf))
  | aborted => exact returnToIdle_eq s

theorem executeWord_eq_reset {cw : CommandWord} (hi : BlockInvariant s) (h : executeWord cw s = .next t)
    (ht : t.mode = .idle) : t = { State.reset with out := t.out, pending := t.pending } := by
  cases hd : decodeCommand cw with
  | ok i =>
    rw [executeWord_ok hd] at h
    exact (exec_commandResult (decodeCommand_ok hd).1 h).eq_reset hi ht
  | error e =>
    rw [executeWord_error hd] at h
    obtain rfl := next_unique rfl h
    by_cases hs : s.mode = .fault
    · rw [illegalWord_of_fault hs, hs] at ht
      cases ht
    · rw [illegalWord_of_not_fault hs] at ht
      cases ht

/-! ### Steps, by what the host presents -/

theorem step_waits (hp : s.pending = []) : step s = .next s := by
  simp [step, takeInput, hp]

theorem step_of_pending {j : Input} {rest : List Input} (hp : s.pending = j :: rest) :
    step s = executeInput j { s with pending := rest } := by
  simp [step, takeInput, hp]

/-- Settles O6: by what the step does. Waiting keeps a canonical state, hardware reset makes one, and a command that
ends in Idle was `FINISH` or `ABORT`. -/
theorem idleIsCanonical : Obligations.IdleIsCanonical := by
  intro s t hi h ht
  cases hp : s.pending with
  | nil =>
    obtain rfl := next_unique (step_waits hp) h
    exact hi.eq_reset ht
  | cons j rest =>
    rw [step_of_pending hp] at h
    cases j with
    | reset => exact next_unique rfl h ▸ rfl
    | command cw => exact executeWord_eq_reset (hi.with_pending rest) h ht

end Sys2Proof.Machine
end

section
/-! The status word the host reads, field by field (10_state.md rules R21 to R26). -/

namespace Sys2Proof.Machine

variable (s : State)

theorem status_mode : s.status.extractLsb' 0 2 = s.mode.bits := BitVec.extractLsb'_append_eq_right

theorem status_cause : s.status.extractLsb' 2 3 = s.cause.bits :=
  (BitVec.extractLsb'_append_eq_of_le (Nat.le_refl 2)).trans BitVec.extractLsb'_append_eq_right

theorem status_zero : s.status.extractLsb' 5 11 = 0 :=
  (BitVec.extractLsb'_append_eq_of_le (by decide)).trans <|
    (BitVec.extractLsb'_append_eq_of_le (by decide)).trans BitVec.extractLsb'_append_eq_right

theorem status_finfo : s.status.extractLsb' 16 16 = s.finfo :=
  (BitVec.extractLsb'_append_eq_of_le (by decide)).trans <|
    (BitVec.extractLsb'_append_eq_of_le (by decide)).trans BitVec.extractLsb'_append_eq_left

theorem Mode.bits_le (m : Mode) : m.bits.toNat ≤ 2 := by cases m <;> decide

theorem Cause.bits_le (c : Cause) : c.bits.toNat ≤ 4 := by cases c <;> decide

/-- Settles O17: the numbers are the definitions', and each field of `STATUS` is one part of the word. -/
theorem statusWord : Obligations.StatusWord :=
  ⟨⟨rfl, rfl, rfl⟩, ⟨rfl, rfl, rfl, rfl, rfl⟩, fun s =>
    ⟨status_mode s, status_cause s, status_zero s, status_finfo s, s.mode.bits_le, s.cause.bits_le,
      decide_eq_true_iff⟩⟩

end Sys2Proof.Machine
end

section
/-! The dictionary keeps its canonical form (20_memory.md rules R51 to R53): a command leaves the dictionary as it is,
clears it, or inserts one pair. -/

namespace Sys2Proof.Machine

variable {s t : State} {i : Instr}

@[simp] theorem openFrame_dict (m : MinCodeSize) (s : State) : (openFrame m s).dict = [] := by
  simp [openFrame]

@[simp] theorem closeFrame_dict (s : State) : (closeFrame s).dict = [] := rfl

theorem missSymbol_dict_wf (b : Symbol) (h : s.dict.wf = true) : (missSymbol b s).dict.wf = true :=
  growOrReset_wf b (s := emit s.cur s) (by rwa [emit_dict])

theorem consumeSymbol_dict_wf (b : Symbol) (h : s.dict.wf = true) : (consumeSymbol b s).dict.wf = true := by
  cases hh : s.have_ with
  | false => rwa [consumeSymbol_first hh]
  | true =>
    cases hd : dictLookup s.cur b s with
    | none => rw [consumeSymbol_miss hh hd]; exact missSymbol_dict_wf b h
    | some c => rwa [consumeSymbol_hit hh hd]

theorem CommandResult.dict_wf (r : CommandResult s i t) (h : s.dict.wf = true) : t.dict.wf = true := by
  cases r with
  | dropped => exact h
  | refused => exact h
  | opened => rw [openFrame_dict, Memory.wf_nil]
  | consumed => exact consumeSymbol_dict_wf _ h
  | closed => rw [closeFrame_dict, Memory.wf_nil]
  | aborted => exact dictClear_wf s

/-- The packer's tokens do not touch the dictionary: its one accessor is the LzwEncoder (rule R62). -/
theorem exec_token_dict (hf : i.format = .p) (h : exec i s = .next t) : t.dict = s.dict := by
  cases i with
  | pinit m => exact next_unique (u := pInit m s) rfl h ▸ pInit_dict s m
  | put c => exact next_unique (u := putCode c s) rfl h ▸ putCode_dict s c
  | pflush => exact next_unique (u := pFlush s) rfl h ▸ pFlush_dict s
  | start m => cases hf
  | sym b => cases hf
  | finish => cases hf
  | abort => cases hf

/-- Settles O33: a host command keeps the form case by case of its result, a token leaves the dictionary as it is. -/
theorem dictionaryStaysCanonical : Obligations.DictionaryStaysCanonical := by
  intro i s t hwf h
  cases hf : i.format with
  | h => exact (exec_commandResult hf h).dict_wf hwf
  | p => rwa [exec_token_dict hf h]

end Sys2Proof.Machine
end

section
/-! Decoding and encoding are inverse to each other, in the H and the P format and for output tokens (30_encoding.md
rules R71 to R77, R83, R84), and the words of rule R91. -/

namespace Sys2Proof.Machine

variable {i : Instr} {f : Format} {w : BitVec 16}

/-! ### The fields of a word put together -/

/-- The fields of a word laid out as `START` and `PINIT` are (rules R72, R76). -/
theorem fields_mcs_layout (op : BitVec 4) (z : BitVec 8) (m : MinCodeSize) :
    opField (op ++ z ++ m) = op ∧ aboveMcsField (op ++ z ++ m) = z ∧ mcsField (op ++ z ++ m) = m :=
  ⟨(BitVec.extractLsb'_append_eq_of_le (by decide)).trans BitVec.extractLsb'_append_eq_left,
    (BitVec.extractLsb'_append_eq_of_le (by decide)).trans BitVec.extractLsb'_append_eq_right,
    BitVec.extractLsb'_append_eq_right⟩

/-- The fields of a word laid out as `SYM` is (rule R73). -/
theorem fields_sym_layout (op z : BitVec 4) (b : Symbol) :
    opField (op ++ z ++ b) = op ∧ aboveSymField (op ++ z ++ b) = z ∧ symField (op ++ z ++ b) = b :=
  ⟨(BitVec.extractLsb'_append_eq_of_le (by decide)).trans BitVec.extractLsb'_append_eq_left,
    (BitVec.extractLsb'_append_eq_of_le (by decide)).trans BitVec.extractLsb'_append_eq_right,
    BitVec.extractLsb'_append_eq_right⟩

/-- The fields of a word laid out as `PUT` is (rule R76). -/
theorem fields_arg_layout (op : BitVec 4) (c : Code) : opField (op ++ c) = op ∧ argField (op ++ c) = c :=
  ⟨BitVec.extractLsb'_append_eq_left, BitVec.extractLsb'_append_eq_right⟩

/-! ### The two formats -/

theorem decodeCommand_start (hop : opField w = 0x1#4) (hz : aboveMcsField w = 0) :
    decodeCommand w = .ok (.start (mcsField w)) := by
  simp [decodeCommand, hop, hz]

theorem decodeCommand_sym (hop : opField w = 0x2#4) (hz : aboveSymField w = 0) :
    decodeCommand w = .ok (.sym (symField w)) := by
  simp [decodeCommand, hop, hz]

theorem decodeToken_pinit (hop : opField w = 0x1#4) (hz : aboveMcsField w = 0) :
    decodeToken w = .ok (.pinit (mcsField w)) := by
  simp [decodeToken, hop, hz]

theorem decodeToken_put (hop : opField w = 0x2#4) : decodeToken w = .ok (.put (argField w)) := by
  simp [decodeToken, hop]

/-- Settles O13: the decoder reads back the fields the encoder laid out. -/
theorem decodeOfEncode : Obligations.DecodeOfEncode := by
  intro i
  cases i with
  | start m =>
    obtain ⟨hop, hz, hm⟩ := fields_mcs_layout 0x1#4 0#8 m
    exact (decodeCommand_start hop hz).trans (by rw [hm])
  | sym b =>
    obtain ⟨hop, hz, hb⟩ := fields_sym_layout 0x2#4 0#4 b
    exact (decodeCommand_sym hop hz).trans (by rw [hb])
  | finish => rfl
  | abort => rfl
  | pinit m =>
    obtain ⟨hop, hz, hm⟩ := fields_mcs_layout 0x1#4 0#8 m
    exact (decodeToken_pinit hop hz).trans (by rw [hm])
  | put c =>
    obtain ⟨hop, hc⟩ := fields_arg_layout 0x2#4 c
    exact (decodeToken_put hop).trans (by rw [hc])
  | pflush => rfl

/-- The packer reads its three tokens only, and the word it read is the token's encoding (rule R76). -/
theorem decodeToken_ok (h : decodeToken w = .ok i) : i.format = .p ∧ encode i = w := by
  have hm := opField_append_mcsField w
  have ha := opField_append_argField w
  simp only [decodeToken] at h
  split_ifs at h with hop hz hop hop hz <;> obtain rfl := Except.ok.inj h <;> refine ⟨rfl, ?_⟩
  · rwa [hop, hz] at hm
  · rwa [hop] at ha
  · rwa [hop, hz] at ha

/-- Settles O14: each format by the inversion of its decoder. -/
theorem encodeOfDecode : Obligations.EncodeOfDecode := by
  intro f w i h
  cases f with
  | h => exact decodeCommand_ok h
  | p => exact decodeToken_ok h

/-- Each instruction has exactly one word of its format (rule R84). -/
theorem decode_eq_ok_iff (hf : i.format = f) : decode f w = .ok i ↔ w.toNat = (encode i).toNat := by
  constructor
  · intro h
    rw [(encodeOfDecode f w i h).2]
  · intro h
    rw [BitVec.eq_of_toNat_eq h, ← hf]
    exact decodeOfEncode i

/-! ### The words as numbers -/

theorem encode_start_toNat (m : MinCodeSize) : (encode (.start m)).toNat = 0x1000 + m.toNat :=
  toNat_append_eq (0x1#4 ++ 0#8) m

theorem encode_sym_toNat (b : Symbol) : (encode (.sym b)).toNat = 0x2000 + b.toNat :=
  toNat_append_eq (0x2#4 ++ 0#4) b

theorem encode_put_toNat (c : Code) : (encode (.put c)).toNat = 0x2000 + c.toNat :=
  toNat_append_eq 0x2#4 c

/-- Settles O12: a word decodes to an instruction exactly when it is the instruction's word. -/
theorem wordsOfEachInstruction : Obligations.WordsOfEachInstruction :=
  ⟨fun _ m => encode_start_toNat m ▸ decode_eq_ok_iff (f := .h) rfl,
    fun _ b => encode_sym_toNat b ▸ decode_eq_ok_iff (f := .h) rfl,
    fun _ => decode_eq_ok_iff (f := .h) (i := .finish) rfl,
    fun _ => decode_eq_ok_iff (f := .h) (i := .abort) rfl,
    fun _ m => encode_start_toNat m ▸ decode_eq_ok_iff (f := .p) (i := .pinit m) rfl,
    fun _ c => encode_put_toNat c ▸ decode_eq_ok_iff (f := .p) rfl,
    fun _ => decode_eq_ok_iff (f := .p) (i := .pflush) rfl⟩

/-! ### The examples -/

/-- Settles O15: the words by evaluation, the faults by the equations of `START` and `SYM` with a bad operand. -/
theorem exampleWords : Obligations.ExampleWords := by
  refine ⟨rfl, rfl, rfl, rfl, rfl, rfl, fun w hw => ?_, fun s hs => ?_, fun s hs => ?_, fun s hs hm => ?_⟩
  · fin_cases hw <;> exact ⟨_, rfl⟩
  · exact (executeWord_ok rfl).trans (exec_start_illegal hs (by decide))
  · exact (executeWord_ok rfl).trans (exec_start_illegal hs (by decide))
  · have hb : ¬symbolInRange s.mcs 4 = true := by rw [hm]; decide
    exact (executeWord_ok rfl).trans (exec_sym_outOfRange hs hb)

/-! ### The output token -/

theorem encodeOut_toNat (t : OutToken) : (encodeOut t).toNat = (if t.last then 256 else 0) + t.byte.toNat := by
  rw [encodeOut, toNat_append_eq]
  cases t.last <;> rfl

theorem decodeOut_encodeOut (t : OutToken) : decodeOut (encodeOut t) = t := by
  have hbyte : (encodeOut t).extractLsb' 0 8 = t.byte := BitVec.extractLsb'_append_eq_right
  have hlast : (encodeOut t).getLsbD 8 = t.last := by
    rw [encodeOut, BitVec.getLsbD_append]
    simp
  rw [decodeOut, hbyte, hlast]

theorem encodeOut_decodeOut (w : OutWord) : encodeOut (decodeOut w) = w := by
  have hlast : BitVec.ofBool (w.getLsbD 8) = w.extractLsb' 8 1 := by
    ext j hj
    obtain rfl : j = 0 := by omega
    simp
  rw [encodeOut, decodeOut, hlast]
  exact BitVec.extractLsb'_append_extractLsb'

/-- Settles O16: the layout is an append of `last` and the byte. -/
theorem outputTokenWord : Obligations.OutputTokenWord :=
  ⟨encodeOut_toNat, decodeOut_encodeOut, encodeOut_decodeOut⟩

end Sys2Proof.Machine
end

section
/-! A host command acts on the BitPacker through its tokens alone (30_encoding.md rule R76, 41_bitpacker.md rule R135,
42_composition.md rule R160). A token sees the packer's registers and `mcs` only: `packerOnly` forgets the rest of a
state, and `PUT` commutes with it. -/

namespace Sys2Proof.Machine

variable {s s' t : State} {i : Instr} {cw : CommandWord}

/-! ### What a `PUT` sees -/

/-- The state with all but the packer's part and `mcs` at its reset value (log 5). -/
def State.packerOnly (s : State) : State :=
  { State.reset with
    mcs := s.mcs, acc := s.acc, nbits := s.nbits, pk_next := s.pk_next, pk_first := s.pk_first
    blen := s.blen, blk := s.blk, out := s.out }

theorem packer_packerOnly (s : State) : s.packerOnly.packer = s.packer := rfl

theorem pushByte_packerOnly (b : Byte) (s : State) : pushByte b s.packerOnly = (pushByte b s).packerOnly :=
  (apply_ite State.packerOnly _ (flushBlock (storeByte b s)) (storeByte b s)).symm

theorem drainByte_packerOnly (s : State) : drainByte s.packerOnly = (drainByte s).packerOnly := by
  have h : pushByte (s.packerOnly.acc.setWidth 8) s.packerOnly = (pushByte (s.acc.setWidth 8) s).packerOnly :=
    pushByte_packerOnly _ s
  rw [drainByte, h]
  rfl

theorem drainBytes_packerOnly (n : Nat) (s : State) : drainBytes n s.packerOnly = (drainBytes n s).packerOnly := by
  induction n generalizing s with
  | zero => rfl
  | succ n ih => rw [drainBytes, drainByte_packerOnly, ih, drainBytes]

theorem moveSchedule_packerOnly (c : Code) (s : State) :
    moveSchedule c s.packerOnly = (moveSchedule c s).packerOnly := by
  simp only [moveSchedule, apply_ite State.packerOnly]
  rfl

theorem restartSchedule_packerOnly (c : Code) (s : State) :
    restartSchedule c s.packerOnly = (restartSchedule c s).packerOnly := by
  simp only [restartSchedule, apply_ite State.packerOnly]
  rfl

theorem putCode_packerOnly (c : Code) (s : State) : putCode c s.packerOnly = (putCode c s).packerOnly := by
  have happend : appendCode c (moveSchedule c s.packerOnly) = (appendCode c (moveSchedule c s)).packerOnly := by
    rw [moveSchedule_packerOnly]
    rfl
  have hdrain : drainComplete (appendCode c (moveSchedule c s.packerOnly)) =
      (drainComplete (appendCode c (moveSchedule c s))).packerOnly := by
    rw [happend]
    exact drainBytes_packerOnly _ _
  rw [putCode, hdrain, restartSchedule_packerOnly, putCode]

/-- A `PUT` does the same to the packer in two states that differ in the encoder's registers other than `mcs`. -/
theorem putCode_packer_congr (c : Code) (h : s.packerOnly = s'.packerOnly) :
    (putCode c s).packer = (putCode c s').packer := by
  rw [← packer_packerOnly, ← putCode_packerOnly, h, putCode_packerOnly, packer_packerOnly]

/-! ### The tokens of each command -/

theorem sentTokens_of_fault (i : Instr) (hs : s.mode = .fault) : sentTokens i s = [] := by
  cases i <;> simp [sentTokens, emissions, hs]

theorem sentTokens_start_legal {m : MinCodeSize} (hs : s.mode = .idle) (hm : legalMcs m = true) :
    sentTokens (.start m) s = [.pinit m, .put (clearCode m)] := by
  simp [sentTokens, emissions, hs, hm]

theorem sentTokens_sym_first {b : Symbol} (hs : s.mode = .active) (hh : s.have_ = false) :
    sentTokens (.sym b) s = [] := by
  simp [sentTokens, emissions, hs, hh]

theorem sentTokens_sym_hit {b : Symbol} {c : Code} (hs : s.mode = .active) (hd : dictLookup s.cur b s = some c) :
    sentTokens (.sym b) s = [] := by
  simp [sentTokens, emissions, hs, hd]

theorem sentTokens_sym_room {b : Symbol} (hs : s.mode = .active) (hb : symbolInRange s.mcs b = true)
    (hh : s.have_ = true) (hd : dictLookup s.cur b s = none) (hn : s.next.toNat < 4096) :
    sentTokens (.sym b) s = [.put s.cur] := by
  simp [sentTokens, emissions, hs, hb, hh, hd, hasRoom, hn]

theorem sentTokens_sym_full {b : Symbol} (hs : s.mode = .active) (hb : symbolInRange s.mcs b = true)
    (hh : s.have_ = true) (hd : dictLookup s.cur b s = none) (hn : ¬s.next.toNat < 4096) :
    sentTokens (.sym b) s = [.put s.cur, .put (clearCode s.mcs)] := by
  simp [sentTokens, emissions, hs, hb, hh, hd, hasRoom, hn]

theorem sentTokens_finish_active (hs : s.mode = .active) :
    sentTokens .finish s = (if s.have_ then [.put s.cur] else []) ++ [.put (endCode s.mcs), .pflush] := by
  cases hh : s.have_ <;> simp [sentTokens, emissions, hs, hh]

/-! ### What the tokens do is what the command does -/

/-- The state the tokens of a command start from: `START` sets `mcs` before it sends any (rules R104, R130). -/
def tokenBase (i : Instr) (s : State) : State :=
  match i, s.mode with
  | .start m, .idle => if legalMcs m then { s with mcs := m } else s
  | _, _ => s

theorem tokenBase_of_fault (i : Instr) (hs : s.mode = .fault) : tokenBase i s = s := by
  cases i <;> simp [tokenBase, hs]

theorem tokenBase_start_legal {m : MinCodeSize} (hs : s.mode = .idle) (hm : legalMcs m = true) :
    tokenBase (.start m) s = { s with mcs := m } := by
  simp [tokenBase, hs, hm]

/-- `t` is, for the packer, where the tokens `ts` lead from `base`. -/
def ActsThrough (ts : List Instr) (base t : State) : Prop := ∃ u, execAll ts base = .next u ∧ t.packer = u.packer

/-- A command that faults sends nothing and leaves the packer alone (rule R184). -/
theorem actsThrough_raiseFault {x : Cause} (hx : exec i s = .next (raiseFault x cw s)) (hts : sentTokens i s = [])
    (hb : tokenBase i s = s) (h : exec i s = .next t) : ActsThrough (sentTokens i s) (tokenBase i s) t := by
  rw [hts, hb, ← next_unique hx h]
  exact ⟨s, rfl, rfl⟩

theorem actsThrough_openFrame (m : MinCodeSize) (s : State) :
    ActsThrough [.pinit m, .put (clearCode m)] { s with mcs := m } (openFrame m s) :=
  ⟨putCode (clearCode m) (pInit m { s with mcs := m }), rfl, putCode_packer_congr (clearCode m) rfl⟩

/-- A `SYM` sends nothing, the match, or the match and a Clear (rule R105). -/
theorem actsThrough_consumeSymbol {b : Symbol} (hs : s.mode = .active) (hb : symbolInRange s.mcs b = true) :
    ActsThrough (sentTokens (.sym b) s) s (consumeSymbol b s) := by
  cases hh : s.have_ with
  | false =>
    rw [sentTokens_sym_first hs hh, consumeSymbol_first hh]
    exact ⟨s, rfl, rfl⟩
  | true =>
    cases hd : dictLookup s.cur b s with
    | some c =>
      rw [sentTokens_sym_hit hs hd, consumeSymbol_hit hh hd]
      exact ⟨s, rfl, rfl⟩
    | none =>
      rw [consumeSymbol_miss hh hd]
      by_cases hn : s.next.toNat < 4096
      · rw [sentTokens_sym_room hs hb hh hd hn, missSymbol_room b hn]
        exact ⟨putCode s.cur s, rfl, rfl⟩
      · rw [sentTokens_sym_full hs hb hh hd hn, missSymbol_full b (Nat.not_lt.mp hn), resetDictionary, emit_mcs]
        exact ⟨putCode (clearCode s.mcs) (putCode s.cur s), rfl, rfl⟩

theorem endFrame_packer (s : State) : (endFrame s).packer = s.packer := rfl

/-- `FINISH` sends the match if there is one, End, and `PFLUSH` (rule R106). -/
theorem actsThrough_closeFrame (hs : s.mode = .active) : ActsThrough (sentTokens .finish s) s (closeFrame s) := by
  refine ⟨pFlush (emit (endCode s.mcs) (emitMatch s)), ?_, endFrame_packer _⟩
  rw [sentTokens_finish_active hs, emitMatch]
  cases s.have_ <;> rfl

/-- Every host command but `ABORT`, by the command and the mode. -/
theorem exec_actsThrough (hf : i.format = .h) (ha : i ≠ .abort) (h : exec i s = .next t) :
    ActsThrough (sentTokens i s) (tokenBase i s) t := by
  by_cases hs : s.mode = .fault
  · rw [sentTokens_of_fault i hs, tokenBase_of_fault i hs, ← next_unique (exec_of_fault hf ha hs) h]
    exact ⟨s, rfl, rfl⟩
  cases i with
  | start m =>
    cases hm : s.mode with
    | idle =>
      by_cases hl : legalMcs m = true
      · rw [sentTokens_start_legal hm hl, tokenBase_start_legal hm hl, ← next_unique (exec_start_legal hm hl) h]
        exact actsThrough_openFrame m s
      · exact actsThrough_raiseFault (exec_start_illegal hm hl) (by simp [sentTokens, hm, hl])
          (by simp [tokenBase, hm, hl]) h
    | active =>
      exact actsThrough_raiseFault (exec_start_active m hm) (by simp [sentTokens, emissions, hm])
        (by simp [tokenBase, hm]) h
    | fault => exact absurd hm hs
  | sym b =>
    cases hm : s.mode with
    | idle => exact actsThrough_raiseFault (exec_sym_idle b hm) (by simp [sentTokens, emissions, hm]) rfl h
    | active =>
      by_cases hb : symbolInRange s.mcs b = true
      · exact next_unique (exec_sym_inRange hm hb) h ▸ actsThrough_consumeSymbol hm hb
      · exact actsThrough_raiseFault (exec_sym_outOfRange hm hb) (by simp [sentTokens, emissions, hm, hb]) rfl h
    | fault => exact absurd hm hs
  | finish =>
    cases hm : s.mode with
    | idle => exact actsThrough_raiseFault (exec_finish_idle hm) (by simp [sentTokens, emissions, hm]) rfl h
    | active => exact next_unique (exec_finish_active hm) h ▸ actsThrough_closeFrame hm
    | fault => exact absurd hm hs
  | abort => exact absurd rfl ha
  | pinit m => cases hf
  | put c => cases hf
  | pflush => cases hf

/-- Settles O37: the statement's `base` is `tokenBase`. -/
theorem commandsActThroughTokens : Obligations.CommandsActThroughTokens :=
  fun _ _ _ hf ha h => exec_actsThrough hf ha h

end Sys2Proof.Machine
end

section
/-! Command lines (30_encoding.md rules R88, R89): a line is its mnemonic and the decimal digits of its operand, and
the digits of a number read back as that number. -/

namespace Sys2Proof.Assembler

/-! ### Numbers -/

theorem decDigit_of_isDigit {c : Char} (hc : c.isDigit = true) : decDigit c = some (c.toNat - '0'.toNat) :=
  if_pos (Char.isDigit_iff_toNat.mp hc)

/-- The reader of digits is the library's `Nat.ofDigitChars` where every letter is a digit. -/
theorem digits_eq_ofDigitChars {cs : List Char} (h : ∀ c ∈ cs, c.isDigit = true) (n : Nat) :
    digits 10 decDigit n cs = some (Nat.ofDigitChars 10 cs n) := by
  induction cs generalizing n with
  | nil => rfl
  | cons c cs ih =>
    obtain ⟨hc, hcs⟩ := List.forall_mem_cons.mp h
    rw [digits, decDigit_of_isDigit hc, Option.bind_some, ih hcs, Nat.ofDigitChars_cons, Nat.mul_comm n]

theorem isDigit_of_mem_toDigits {n : Nat} : ∀ c ∈ Nat.toDigits 10 n, c.isDigit = true :=
  fun _ hc => Nat.isDigit_of_mem_toDigits (by decide) (by decide) hc

theorem decimal_toDigits (n : Nat) : decimal (Nat.toDigits 10 n) = some n := by
  have hne : (Nat.toDigits 10 n).isEmpty = false := by simp [Nat.toDigits_ne_nil]
  rw [decimal, hne, if_neg Bool.false_ne_true, digits_eq_ofDigitChars isDigit_of_mem_toDigits,
    Nat.ofDigitChars_ten_toDigits]

theorem atMost_some {max v : Nat} (h : v ≤ max) : atMost max (some v) = some v := if_pos h

/-! ### Words of a line -/

/-- A text without a space is one word. -/
theorem splitFrom_of_no_space {cs : List Char} (h : ' ' ∉ cs) {word : List Char} (hne : word.reverse ++ cs ≠ []) :
    splitFrom word cs = [word.reverse ++ cs] := by
  induction cs generalizing word with
  | nil =>
    have hword : word.isEmpty = false := by simpa using hne
    simp [splitFrom, hword]
  | cons c cs ih =>
    obtain ⟨hc, hcs⟩ := not_or.mp (mt List.mem_cons.mpr h)
    rw [splitFrom, if_neg (Ne.symm hc), ih hcs (by simp)]
    simp

/-- A character that is no digit is not in a number's decimal text. -/
theorem not_mem_toDigits {c : Char} (hc : c.isDigit = false) (n : Nat) : c ∉ Nat.toDigits 10 n := by
  intro h
  rw [isDigit_of_mem_toDigits c h] at hc
  cases hc

theorem splitFrom_toDigits (n : Nat) : splitFrom [] (Nat.toDigits 10 n) = [Nat.toDigits 10 n] :=
  splitFrom_of_no_space (not_mem_toDigits rfl n) Nat.toDigits_ne_nil

theorem beforeComment_toDigits (n : Nat) : beforeComment (Nat.toDigits 10 n) = Nat.toDigits 10 n := by
  refine List.takeWhile_eq_self_iff.mpr fun c hc => bne_iff_ne.mpr ?_
  rintro rfl
  exact not_mem_toDigits rfl n hc

/-- `START n` assembles to its word (rule R88). -/
theorem assembleLine_start (m : MinCodeSize) :
    assembleLine (['S', 'T', 'A', 'R', 'T', ' '] ++ Nat.toDigits 10 m.toNat) = some (encode (.start m)) := by
  have hsplit : splitFrom [] (beforeComment (['S', 'T', 'A', 'R', 'T', ' '] ++ Nat.toDigits 10 m.toNat)) =
      ['S', 'T', 'A', 'R', 'T'] :: splitFrom [] (beforeComment (Nat.toDigits 10 m.toNat)) := rfl
  have hmax : atMost 15 (some m.toNat) = some m.toNat := atMost_some (Nat.le_of_lt_succ m.isLt)
  rw [beforeComment_toDigits, splitFrom_toDigits] at hsplit
  rw [assembleLine, hsplit]
  simp [decimal_toDigits, hmax]

/-- `SYM n` in decimal assembles to its word (rule R88). -/
theorem assembleLine_sym (b : Symbol) :
    assembleLine (['S', 'Y', 'M', ' '] ++ Nat.toDigits 10 b.toNat) = some (encode (.sym b)) := by
  have hsplit : splitFrom [] (beforeComment (['S', 'Y', 'M', ' '] ++ Nat.toDigits 10 b.toNat)) =
      ['S', 'Y', 'M'] :: splitFrom [] (beforeComment (Nat.toDigits 10 b.toNat)) := rfl
  have hmax : atMost 255 (some b.toNat) = some b.toNat := atMost_some (Nat.le_of_lt_succ b.isLt)
  rw [beforeComment_toDigits, splitFrom_toDigits] at hsplit
  rw [assembleLine, hsplit]
  simp [decimal_toDigits, hmax]

/-! ### Pseudo-instructions -/

theorem frame_eq_map_encode (m : MinCodeSize) (B : List Symbol) :
    frame m B = (Machine.frameCommands m B).map encode := by
  simp [frame, syms, Machine.frameCommands, Machine.frameSoFar]

theorem symr_eq_syms (b : Symbol) (n : Nat) : symr b n = syms (List.replicate n b) := by
  rw [symr, syms, List.map_replicate]

/-- Settles O58, line by line of the statement. -/
theorem assemblerLines : Obligations.AssemblerLines :=
  ⟨assembleLine_start, assembleLine_sym, rfl, rfl, frame_eq_map_encode, symr_eq_syms⟩

end Sys2Proof.Assembler
end

section
/-! The meanings of the four host commands in full, case by case (40_lzw_encoder.md rules R103 to R107): each is the
equation of the command in its mode, with its word, the codes it emits, and the state after written out. -/

namespace Sys2Proof.Machine

variable {s t : State} {i : Instr} {cw : CommandWord}

/-! ### A step -/

theorem tableWord_toNat (cw : CommandWord) : tableWord 16 cw.toNat = cw := by
  rw [tableWord, Nat.mod_eq_of_lt cw.isLt, BitVec.ofNat_toNat, BitVec.setWidth_eq]

/-- Settles O9: a step executes the head of `pending`, and a decoded word is executed as its command. -/
theorem stepRunsTheDecodedCommand : Obligations.StepRunsTheDecodedCommand := by
  refine ⟨fun s cw rest i hp hd => (step_of_pending hp).trans (executeWord_ok hd), fun s cw i hd => ?_⟩
  have hp : (s.withFetchWord 16 cw.toNat).pending = .command cw :: s.pending := by
    rw [State.withFetchWord, tableWord_toNat]
  exact (step_of_pending hp).trans (executeWord_ok hd)

/-- Settles O21: the equation of `ABORT`, which has no mode to look at. -/
theorem abortMeaning : Obligations.AbortMeaning :=
  ⟨decodeCommand_abort, fun s => ⟨(exec_abort s).trans (congrArg _ (returnToIdle_eq s)), rfl⟩⟩

/-! ### START -/

theorem encode_start_eq_or (m : MinCodeSize) : 0x1000#16 ||| m.setWidth 16 = encode (.start m) := by
  revert m
  decide

/-- The state in which an accepted `START` emits its Clear code (rule R104). -/
def beforeClear (m : MinCodeSize) (s : State) : State := { pInit m (beginFrame m s) with mode := .active }

/-- The Clear code meets an empty accumulator: it is `m + 1` bits, its one bit on top, and restarts the schedule (rule
R131). -/
theorem beforeClear_put {m : MinCodeSize} (hm : legalMcs m = true) (s : State) :
    packedBits (clearCode m) (beforeClear m s) = m.toNat + 1 ∧
      packedValue (clearCode m) (beforeClear m s) = 2 ^ m.toNat ∧
      scheduleAfter (clearCode m) (beforeClear m s) = (firstCode m, true) := by
  obtain ⟨-, -, hclear, -, hfirst, hwidth⟩ := frame_constants m hm
  refine ⟨?_, ?_, if_pos rfl⟩
  · rw [packedBits, packerWidth, moveSchedule_reserved (isMatchCode_clear m)]
    simp [beforeClear, hfirst, hwidth]
  · simp [packedValue, beforeClear, hclear, minDictLen]

/-- The Clear code of an accepted `START` stands in the packer: up to 7 bits wait in `acc`, of 8 and 9 bits the first
byte is in the block buffer (rule R104). -/
theorem openFrame_eq {m : MinCodeSize} (hm : legalMcs m = true) (s : State) :
    openFrame m s = { s with
      mode := .active
      mcs := m
      next := BitVec.ofNat 13 (2 ^ m.toNat + 2)
      have_ := false
      cur := 0
      dict := []
      acc := if m.toNat ≤ 6 then BitVec.ofNat 19 (2 ^ m.toNat) else if m.toNat = 7 then 0 else 1
      nbits := BitVec.ofNat 5 ((m.toNat + 1) % 8)
      pk_next := BitVec.ofNat 13 (2 ^ m.toNat + 2)
      pk_first := true
      blen := if m.toNat ≤ 6 then 0 else 1
      blk := if m.toNat ≤ 6 then [] else if m.toNat = 7 then [0x80] else [0x00] } := by
  have hcases : m.toNat ≤ 6 ∨ m.toNat = 7 ∨ m.toNat = 8 := by
    have := (legalMcs_iff m).mp hm
    omega
  obtain ⟨hbits, hval, hafter⟩ := beforeClear_put hm s
  show putCode (clearCode m) (beforeClear m s) = _
  rw [putCode_eq (s := beforeClear m s) _ (Nat.zero_le 7), hbits, hval, hafter]
  obtain hm | hm | hm := hcases
  · have hnone : (m.toNat + 1) / 8 = 0 := by omega
    simp only [hnone, hm, if_pos]
    rfl
  · obtain rfl : m = 7 := BitVec.eq_of_toNat_eq hm
    rfl
  · obtain rfl : m = 8 := BitVec.eq_of_toNat_eq hm
    rfl

theorem emittedCodes_start_illegal {m : MinCodeSize} (hm : ¬legalMcs m = true) (s : State) :
    emittedCodes (.start m) s = [] := by
  cases hs : s.mode <;> simp [emittedCodes, emissions, hs, hm]

theorem emittedCodes_start_of_ne_idle (m : MinCodeSize) (hs : s.mode ≠ .idle) : emittedCodes (.start m) s = [] := by
  cases hm : s.mode <;> simp_all [emittedCodes, emissions]

theorem emittedCodes_start_legal {m : MinCodeSize} (hs : s.mode = .idle) (hm : legalMcs m = true) :
    emittedCodes (.start m) s = [(minDictLen m, m.toNat + 1)] := by
  obtain ⟨-, -, hclear, -, hfirst, hwidth⟩ := frame_constants m hm
  simp [emittedCodes, emissions, hs, hm, hclear, hfirst, hwidth]

/-- Settles O18: the equation of `START` in each mode, the accepted one with its Clear code packed. -/
theorem startMeaning : Obligations.StartMeaning := by
  intro m s
  rw [encode_start_eq_or]
  refine ⟨decodeOfEncode (.start m), fun hs => ⟨exec_start_active m hs, ?_⟩, fun hs hm => ?_, fun hs hlo hhi => ?_⟩
  · exact emittedCodes_start_of_ne_idle m (by rw [hs]; exact nofun)
  · have hm : ¬legalMcs m = true := by rw [legalMcs_iff]; omega
    exact ⟨exec_start_illegal hs hm, emittedCodes_start_illegal hm s⟩
  · have hm : legalMcs m = true := (legalMcs_iff m).mpr ⟨hlo, hhi⟩
    exact ⟨emittedCodes_start_legal hs hm, (exec_start_legal hs hm).trans (congrArg _ (openFrame_eq hm s))⟩

/-! ### SYM -/

theorem encode_sym_eq_or (b : Symbol) : 0x2000#16 ||| b.setWidth 16 = encode (.sym b) := rfl

theorem emissions_sym_first (b : Symbol) (hh : s.have_ = false) : emissions (.sym b) s = [] := by
  cases hs : s.mode <;> simp [emissions, hs, hh]

theorem emissions_sym_hit {b : Symbol} {c : Code} (hd : dictLookup s.cur b s = some c) : emissions (.sym b) s = [] := by
  cases hs : s.mode <;> simp [emissions, hs, hd]

theorem emissions_sym_outOfRange {b : Symbol} (hb : ¬symbolInRange s.mcs b = true) : emissions (.sym b) s = [] := by
  cases hs : s.mode <;> simp [emissions, hs, hb]

theorem emissions_sym_of_ne_active (b : Symbol) (hs : s.mode ≠ .active) : emissions (.sym b) s = [] := by
  cases hm : s.mode <;> simp_all [emissions]

section Miss

variable {b : Symbol} (hs : s.mode = .active) (hb : symbolInRange s.mcs b = true) (hh : s.have_ = true)
  (hd : dictLookup s.cur b s = none)

include hs hb hh hd

theorem emissions_sym_room (hn : s.next.toNat < 4096) : emissions (.sym b) s = [(s.cur, s)] := by
  simp [emissions, hs, hb, hh, hd, hasRoom, hn]

theorem emissions_sym_full (hn : 4096 ≤ s.next.toNat) :
    emissions (.sym b) s = [(s.cur, s), (clearCode s.mcs, emit s.cur s)] := by
  simp [emissions, hs, hb, hh, hd, hasRoom, hn]

theorem exec_sym_room (hn : s.next.toNat < 4096) :
    exec (.sym b) s = .next { putCode s.cur s with
      dict := s.dict.write (dictKey s.cur b) (s.next.setWidth 12)
      next := s.next + 1
      cur := literalCode b } := by
  rw [exec_sym_inRange hs hb, consumeSymbol_miss hh hd, missSymbol_room b hn]
  simp [enterPair, dictInsert, emit]

theorem exec_sym_full (hn : 4096 ≤ s.next.toNat) :
    exec (.sym b) s = .next { putCode (clearCode s.mcs) (putCode s.cur s) with
      dict := []
      next := firstCode s.mcs
      cur := literalCode b } := by
  rw [exec_sym_inRange hs hb, consumeSymbol_miss hh hd, missSymbol_full b hn]
  simp [resetDictionary, dictClear, emit]

end Miss

/-- The width function is capped, so a full dictionary's codes are 12 bits wide (rule R4). -/
theorem codeWidth_of_cap_le {n : Nat} (h : 4096 ≤ n) : codeWidth n = 12 := by
  unfold codeWidth
  rw [List.find?_eq_none.mpr, Option.getD_none]
  intro w hw
  have hlt : w < 12 := List.mem_range.mp hw
  have hpow : 2 ^ w ≤ 2 ^ 11 := Nat.pow_le_pow_right (by decide) (by omega)
  simp only [decide_eq_true_eq, Nat.not_le]
  omega

/-- Settles O19: the equation of `SYM` in each mode and of each case of an accepted one. -/
theorem symMeaning : Obligations.SymMeaning := by
  intro b s
  rw [encode_sym_eq_or]
  refine ⟨decodeOfEncode (.sym b), fun hs => ⟨exec_sym_idle b hs, ?_⟩, fun hs hb => ?_, fun hs hb hh => ?_,
    fun hs hb hh c hd => ?_, fun hs hb hh hd hn => ?_, fun hs hb hh hd hn => ?_⟩
  · rw [emittedCodes, emissions_sym_of_ne_active b (by rw [hs]; exact nofun), List.map_nil]
  · have hb : ¬symbolInRange s.mcs b = true := mt symbolInRange_iff.mp (Nat.not_lt.mpr hb)
    rw [emittedCodes, emissions_sym_outOfRange hb]
    exact ⟨exec_sym_outOfRange hs hb, rfl⟩
  · rw [exec_sym_inRange hs (symbolInRange_iff.mpr hb), consumeSymbol_first hh, emittedCodes, emissions_sym_first b hh]
    exact ⟨rfl, rfl⟩
  · rw [exec_sym_inRange hs (symbolInRange_iff.mpr hb), consumeSymbol_hit hh hd, emittedCodes, emissions_sym_hit hd]
    exact ⟨rfl, rfl⟩
  · have hb := symbolInRange_iff.mpr hb
    refine ⟨putCode s.cur s, rfl, exec_sym_room hs hb hh hd hn, ?_⟩
    rw [emittedCodes, emissions_sym_room hs hb hh hd hn]
    rfl
  · have hb := symbolInRange_iff.mpr hb
    refine ⟨putCode s.cur s, putCode (clearCode s.mcs) (putCode s.cur s), rfl, rfl, exec_sym_full hs hb hh hd hn, ?_⟩
    rw [emittedCodes, emissions_sym_full hs hb hh hd hn]
    simp [codeWidth_of_cap_le hn]

/-! ### FINISH -/

theorem exec_put (c : Code) (s : State) : exec (.put c) s = .next (putCode c s) := rfl

theorem exec_pflush (s : State) : exec .pflush s = .next (pFlush s) := rfl

theorem endFrame_eq (s : State) :
    endFrame s = { s with mode := .idle, mcs := 0, next := 0, have_ := false, cur := 0, dict := [] } := rfl

theorem emissions_finish_of_ne_active (hs : s.mode ≠ .active) : emissions .finish s = [] := by
  cases hm : s.mode <;> simp_all [emissions]

theorem emissions_finish_active (hs : s.mode = .active) :
    emissions .finish s = (if s.have_ then [(s.cur, s)] else []) ++ [(endCode s.mcs, emitMatch s)] := by
  simp [emissions, hs]

/-- Settles O20: the equation of `FINISH` in each mode; the accepted one puts the match, End and flushes. -/
theorem finishMeaning : Obligations.FinishMeaning := by
  intro s
  refine ⟨rfl, fun hs => ⟨exec_finish_idle hs, ?_⟩, fun hs => ?_⟩
  · rw [emittedCodes, emissions_finish_of_ne_active (by rw [hs]; exact nofun), List.map_nil]
  · refine ⟨emitMatch s, _, _, ?_, exec_put _ _, exec_pflush _, ?_, ?_⟩
    · cases hh : s.have_ <;> simp [emitMatch, hh, emit, exec_put]
    · rw [exec_finish_active hs, closeFrame, endFrame_eq, emit]
    · rw [emittedCodes, emissions_finish_active hs]
      cases s.have_ <;> simp

end Sys2Proof.Machine
end

section
/-! The frame of `SYM`: what an accepted, a refused and a dropped one leave alone (40_lzw_encoder.md rule R105,
20_memory.md rule R60, 41_bitpacker.md rule R142). -/

namespace Sys2Proof.Machine

variable {s t : State} {b : Symbol}

/-! ### The block buffer after several codes -/

/-- The buffer, its length and the output after several pushes depend on nothing else of the state. -/
theorem pushBytes_congr (bs : List Byte) (h1 : s.blk = t.blk) (h2 : s.blen = t.blen) (h3 : s.out = t.out) :
    (pushBytes bs s).blk = (pushBytes bs t).blk ∧ (pushBytes bs s).blen = (pushBytes bs t).blen ∧
      (pushBytes bs s).out = (pushBytes bs t).out := by
  induction bs generalizing s t with
  | nil => exact ⟨h1, h2, h3⟩
  | cons a bs ih =>
    obtain ⟨hk, hl, ho⟩ := pushByte_congr a h1 h2 h3
    exact ih hk hl ho

/-- The buffer, its length and the output of `t` are those of `s` after the bytes `bs` are pushed. -/
structure PushedTo (bs : List Byte) (s t : State) : Prop where
  blk : t.blk = (pushBytes bs s).blk
  blen : t.blen = (pushBytes bs s).blen
  out : t.out = (pushBytes bs s).out

theorem PushedTo.trans {bs cs : List Byte} {u : State} (h : PushedTo bs s t) (h' : PushedTo cs t u) :
    PushedTo (bs ++ cs) s u := by
  obtain ⟨hk, hl, ho⟩ := pushBytes_congr cs h.blk h.blen h.out
  rw [← pushBytes_append] at hk hl ho
  exact ⟨h'.blk.trans hk, h'.blen.trans hl, h'.out.trans ho⟩

/-- A `PUT` pushes the complete bytes and keeps the other bits (rule R131). -/
theorem putCode_pushedTo (c : Code) (h : s.nbits.toNat ≤ 7) :
    ∃ bs : List Byte, PushedTo bs s (putCode c s) ∧
      8 * bs.length + (putCode c s).nbits.toNat ≤ s.nbits.toNat + 12 := by
  refine ⟨lowBytes (packedBits c s / 8) (packedValue c s), ?_, ?_⟩
  · rw [putCode_eq c h]
    exact ⟨rfl, rfl, rfl⟩
  · have hbits : packedBits c s ≤ s.nbits.toNat + 12 := Nat.add_le_add_left (codeWidth_le_max _) _
    have hlen : (lowBytes (packedBits c s / 8) (packedValue c s)).length = packedBits c s / 8 := by simp [lowBytes]
    have hn : (putCode c s).nbits.toNat = packedBits c s % 8 := by
      rw [putCode_eq c h, BitVec.toNat_ofNat]
      omega
    omega

theorem putCode_nbits_le (c : Code) (h : s.nbits.toNat ≤ 7) : (putCode c s).nbits.toNat ≤ 7 := by
  rw [putCode_eq c h, BitVec.toNat_ofNat]
  omega

/-- Rule R142: two codes and the bits waiting before them complete at most three bytes. -/
theorem consumeSymbol_pushedTo (b : Symbol) (h : s.nbits.toNat ≤ 7) :
    ∃ bs : List Byte, bs.length ≤ 3 ∧ PushedTo bs s (consumeSymbol b s) := by
  cases hh : s.have_ with
  | false =>
    rw [consumeSymbol_first hh]
    exact ⟨[], Nat.zero_le 3, rfl, rfl, rfl⟩
  | true =>
    cases hd : dictLookup s.cur b s with
    | some c =>
      rw [consumeSymbol_hit hh hd]
      exact ⟨[], Nat.zero_le 3, rfl, rfl, rfl⟩
    | none =>
      rw [consumeSymbol_miss hh hd]
      obtain ⟨bs, hp, hlen⟩ := putCode_pushedTo s.cur h
      by_cases hn : s.next.toNat < 4096
      · rw [missSymbol_room b hn]
        exact ⟨bs, by omega, hp.blk, hp.blen, hp.out⟩
      · rw [missSymbol_full b (Nat.not_lt.mp hn), resetDictionary, emit_mcs]
        obtain ⟨cs, hp', hlen'⟩ := putCode_pushedTo (clearCode s.mcs) (putCode_nbits_le s.cur h)
        have hboth := hp.trans hp'
        refine ⟨bs ++ cs, ?_, hboth.blk, hboth.blen, hboth.out⟩
        rw [List.length_append]
        omega

/-! ### The encoder's part -/

/-- An accepted `SYM` leaves the frame's constant, the host's inputs and the status registers alone (rule R105). -/
theorem consumeSymbol_frame (b : Symbol) (s : State) :
    (consumeSymbol b s).mcs = s.mcs ∧ (consumeSymbol b s).pending = s.pending ∧
      (consumeSymbol b s).cause = s.cause ∧ (consumeSymbol b s).finfo = s.finfo := by
  unfold consumeSymbol
  repeat' split
  · exact ⟨rfl, rfl, rfl, rfl⟩
  · exact ⟨missSymbol_mcs s b, missSymbol_pending s b, missSymbol_cause s b, missSymbol_finfo s b⟩
  · exact ⟨rfl, rfl, rfl, rfl⟩

@[simp] theorem consumeSymbol_mcs (b : Symbol) (s : State) : (consumeSymbol b s).mcs = s.mcs :=
  (consumeSymbol_frame b s).1

/-- The condition under which `SYM b` misses (rule R105): the only case that touches the dictionary. -/
def Misses (b : Symbol) (s : State) : Prop :=
  s.mode = .active ∧ b.toNat < 2 ^ s.mcs.toNat ∧ s.have_ = true ∧ dictLookup s.cur b s = none

theorem Misses.eq_missSymbol (hm : Misses b s) (h : exec (.sym b) s = .next t) : t = missSymbol b s := by
  obtain ⟨hs, hb, hh, hd⟩ := hm
  rw [← next_unique (exec_sym_inRange hs (symbolInRange_iff.mpr hb)) h, consumeSymbol_miss hh hd]

theorem missSymbol_room_lookup (hn : s.next.toNat < 4096) :
    dictLookup s.cur b (missSymbol b s) = some (s.next.setWidth 12) ∧
      ∀ p a, ¬(p = s.cur ∧ a = b) → dictLookup p a (missSymbol b s) = dictLookup p a s := by
  have hdict : (missSymbol b s).dict = (dictInsert s.cur b (s.next.setWidth 12) s).dict := by
    rw [missSymbol_room b hn, enterPair_dict, emit_dict, emit_cur, emit_next, dictInsert_dict]
  refine ⟨?_, fun p a hne => ?_⟩
  · rw [dictLookup, hdict]
    exact dictLookup_dictInsert_same s.cur b _ s
  · rw [dictLookup, hdict]
    exact dictLookup_dictInsert_other _ s fun ⟨hp, ha⟩ => hne ⟨hp.symm, ha.symm⟩

theorem missSymbol_full_dict (hn : 4096 ≤ s.next.toNat) : (missSymbol b s).dict = [] := by
  rw [missSymbol_full b hn, resetDictionary_dict]

/-- A `SYM` that is no miss leaves the dictionary, `next` and the packer as they are. -/
theorem CommandResult.sym_not_miss (r : CommandResult s (.sym b) t) (hm : ¬Misses b s) :
    t.dict = s.dict ∧ t.next = s.next ∧ t.packer = s.packer := by
  cases r with
  | dropped => exact ⟨rfl, rfl, rfl⟩
  | refused => exact ⟨rfl, rfl, rfl⟩
  | consumed hs hb =>
    cases hh : s.have_ with
    | false =>
      rw [consumeSymbol_first hh]
      exact ⟨rfl, rfl, rfl⟩
    | true =>
      cases hd : dictLookup s.cur b s with
      | some c =>
        rw [consumeSymbol_hit hh hd]
        exact ⟨rfl, rfl, rfl⟩
      | none => exact absurd ⟨hs, symbolInRange_iff.mp hb, hh, hd⟩ hm

theorem CommandResult.sym_mcs_pending (r : CommandResult s (.sym b) t) : t.mcs = s.mcs ∧ t.pending = s.pending := by
  obtain ⟨hmcs, hpending, -, -⟩ := consumeSymbol_frame b s
  cases r with
  | dropped => exact ⟨rfl, rfl⟩
  | refused => exact ⟨rfl, rfl⟩
  | consumed => exact ⟨hmcs, hpending⟩

theorem CommandResult.sym_status (r : CommandResult s (.sym b) t) (ht : t.mode = s.mode) :
    t.cause = s.cause ∧ t.finfo = s.finfo := by
  obtain ⟨-, -, hcause, hfinfo⟩ := consumeSymbol_frame b s
  cases r with
  | dropped => exact ⟨rfl, rfl⟩
  | refused _ hs => exact absurd ht.symm hs
  | consumed => exact ⟨hcause, hfinfo⟩

/-- A `SYM` changes the mode only by faulting. -/
theorem CommandResult.sym_mode_fault (r : CommandResult s (.sym b) t) (ht : t.mode ≠ s.mode) : t.mode = .fault := by
  cases r with
  | dropped => exact absurd rfl ht
  | refused => rfl
  | consumed => exact absurd (consumeSymbol_mode b s) ht

theorem CommandResult.sym_pushedTo (r : CommandResult s (.sym b) t) (h : s.nbits.toNat ≤ 7) :
    ∃ bs : List Byte, bs.length ≤ 3 ∧ PushedTo bs s t := by
  cases r with
  | dropped => exact ⟨[], Nat.zero_le 3, rfl, rfl, rfl⟩
  | refused => exact ⟨[], Nat.zero_le 3, rfl, rfl, rfl⟩
  | consumed => exact consumeSymbol_pushedTo b h

/-- Settles O29: by what a `SYM` can do, each clause for the dropped, the refused and the accepted command; the
dictionary by whether it misses and whether there is room. -/
theorem symFrame : Obligations.SymFrame := by
  intro b s t h
  have r := exec_commandResult rfl h
  obtain ⟨hmcs, hpending⟩ := r.sym_mcs_pending
  refine ⟨hmcs, hpending, r.sym_status, fun ht => r.eq_of_mode_fault (r.sym_mode_fault ht),
    ⟨fun hm hn => ?_, fun hm hn p a => ?_, fun hm => ?_⟩, fun hbits => ?_⟩
  · rw [Misses.eq_missSymbol hm h]
    exact missSymbol_room_lookup hn
  · rw [Misses.eq_missSymbol hm h, dictLookup, missSymbol_full_dict hn, Memory.read_nil]
  · obtain ⟨hdict, hnext, hpacker⟩ := r.sym_not_miss hm
    exact ⟨fun p a => by rw [dictLookup, hdict, dictLookup], hnext, hpacker⟩
  · obtain ⟨bs, hlen, hp⟩ := r.sym_pushedTo hbits
    exact ⟨bs, hlen, hp.blk, hp.blen, hp.out⟩

end Sys2Proof.Machine
end

section
/-! The LzwEncoder's invariant while a frame is open, apart from the packer's: rule R164 I1 to I5 of
42_composition.md, opened by `START` and kept by every accepted `SYM`. -/

namespace Sys2Proof.Machine

variable {s t : State} {b : Symbol} {m : MinCodeSize} {n : Nat} {d : Memory Code} {p c : Code}

/-! ### The dictionary -/

/-- A dictionary of a frame with minimum code size `m` whose next assignable code is `n` (rule R164 I3, I4). -/
structure DictOk (m : MinCodeSize) (n : Nat) (d : Memory Code) : Prop where
  wf : d.wf = true
  size : d.length + (minDictLen m + 2) = n
  values : ∀ e ∈ d, minDictLen m + 2 ≤ e.2.toNat ∧ e.2.toNat < n
  once : (d.map Prod.snd).Nodup
  keys : ∀ e ∈ d, LegalEntry m e

theorem DictOk.nil (m : MinCodeSize) : DictOk m (minDictLen m + 2) [] :=
  ⟨rfl, Nat.zero_add _, nofun, List.nodup_nil, nofun⟩

/-- A code that can be a current match: a literal, or a code of the dictionary (rule R164 I5). -/
def IsMatch (m : MinCodeSize) (n : Nat) (c : Code) : Prop :=
  c.toNat < minDictLen m ∨ (minDictLen m + 2 ≤ c.toNat ∧ c.toNat < n)

theorem dictKey_div (p : Code) (b : Symbol) : dictKey p b / 256 = p.toNat := by
  have := b.isLt
  rw [dictKey_eq]
  omega

theorem dictKey_mod (p : Code) (b : Symbol) : dictKey p b % 256 = b.toNat := by
  have := b.isLt
  rw [dictKey_eq]
  omega

theorem legalEntry_dictKey (hb : b.toNat < minDictLen m) (hp : IsMatch m c.toNat p) :
    LegalEntry m (dictKey p b, c) := by
  have hp12 := p.isLt
  have hb8 := b.isLt
  rw [LegalEntry, dictKey_div, dictKey_mod]
  refine ⟨?_, hb, hp⟩
  rw [dictKey_eq]
  omega

/-- The code `n` is not yet in the dictionary, so giving it to an absent pair keeps the values distinct. -/
theorem DictOk.insert (h : DictOk m n d) (hlow : minDictLen m + 2 ≤ n) (hc : c.toNat = n) (hp : IsMatch m n p)
    (hb : b.toNat < minDictLen m) (hd : d.read (dictKey p b) = none) :
    DictOk m (n + 1) (d.write (dictKey p b) c) := by
  have hperm := Memory.write_perm c hd
  have hmem : ∀ e ∈ d.write (dictKey p b) c, e = (dictKey p b, c) ∨ e ∈ d :=
    fun e he => List.mem_cons.mp (hperm.mem_iff.mp he)
  refine ⟨Memory.wf_write _ _ h.wf, ?_, fun e he => ?_, ?_, fun e he => ?_⟩
  · have hlen := hperm.length_eq
    rw [List.length_cons] at hlen
    have := h.size
    omega
  · obtain rfl | he := hmem e he
    · show _ ≤ c.toNat ∧ c.toNat < _
      omega
    · have := h.values e he
      omega
  · refine (hperm.map Prod.snd).nodup_iff.mpr (List.nodup_cons.mpr ⟨fun hm => ?_, h.once⟩)
    obtain ⟨e, he, hec⟩ := List.mem_map.mp hm
    have hlt := (h.values e he).2
    have hec : e.2 = c := hec
    rw [hec] at hlt
    omega
  · obtain rfl | he := hmem e he
    · exact legalEntry_dictKey hb (hc ▸ hp)
    · exact h.keys e he

/-! ### The encoder -/

/-- The LzwEncoder's half of the invariant of an open frame (rule R164 I1 to I5). -/
structure EncoderOpen (s : State) : Prop where
  mcs_legal : legalMcs s.mcs = true
  next_low : minDictLen s.mcs + 2 ≤ s.next.toNat
  next_high : s.next.toNat ≤ 4096
  dict : DictOk s.mcs s.next.toNat s.dict
  match_code : s.have_ = true → IsMatch s.mcs s.next.toNat s.cur
  no_match : s.have_ = false → s.cur = 0 ∧ s.next = firstCode s.mcs ∧ s.dict = []

/-- The match codes below `next` are the literals and the codes of the dictionary (rule R78). -/
theorem isMatch_iff (hm : legalMcs m = true) (hn : minDictLen m + 2 ≤ n) :
    IsMatch m n c ↔ c.toNat < n ∧ isMatchCode m c = true := by
  rw [isMatchCode_iff hm, IsMatch]
  omega

/-- It is the encoder's half of the whole invariant. -/
theorem FrameOpen.encoderOpen (h : FrameOpen s) : EncoderOpen s where
  mcs_legal := h.mcs_legal
  next_low := h.next_low
  next_high := h.next_high
  dict := ⟨h.dict_wf, h.dict_size, h.dict_values, h.dict_once, h.dict_keys⟩
  match_code hh := (isMatch_iff h.mcs_legal h.next_low).mpr (h.match_code hh)
  no_match := h.no_match

theorem EncoderOpen.isMatchCode_cur (h : EncoderOpen s) (hh : s.have_ = true) : isMatchCode s.mcs s.cur = true :=
  ((isMatch_iff h.mcs_legal h.next_low).mp (h.match_code hh)).2

@[simp] theorem openFrame_mcs (m : MinCodeSize) (s : State) : (openFrame m s).mcs = m := by simp [openFrame]
@[simp] theorem openFrame_next (m : MinCodeSize) (s : State) : (openFrame m s).next = firstCode m := by
  simp [openFrame]
@[simp] theorem openFrame_cur (m : MinCodeSize) (s : State) : (openFrame m s).cur = 0 := by simp [openFrame]

theorem openFrame_encoderOpen (hm : legalMcs m = true) (s : State) : EncoderOpen (openFrame m s) := by
  obtain ⟨-, hmax, -, -, hfirst, -⟩ := frame_constants m hm
  refine ⟨by rwa [openFrame_mcs], ?_, ?_, ?_, fun hh => ?_, fun _ => ?_⟩
  · rw [openFrame_mcs, openFrame_next, hfirst]
  · rw [openFrame_next, hfirst]
    omega
  · rw [openFrame_mcs, openFrame_next, hfirst, openFrame_dict]
    exact DictOk.nil m
  · rw [openFrame_have_] at hh
    cases hh
  · rw [openFrame_cur, openFrame_next, openFrame_mcs, openFrame_dict]
    exact ⟨rfl, rfl, rfl⟩

/-- The literal of a legal symbol can be the match, whatever the dictionary holds (rule R101). -/
theorem isMatch_literalCode (hb : symbolInRange m b = true) (n : Nat) : IsMatch m n (literalCode b) :=
  .inl (by rw [literalCode_toNat]; exact symbolInRange_iff.mp hb)

theorem EncoderOpen.room_dictOk (h : EncoderOpen s) (hb : symbolInRange s.mcs b = true) (hh : s.have_ = true)
    (hd : dictLookup s.cur b s = none) (hn : s.next.toNat < 4096) :
    (s.next + 1).toNat = s.next.toNat + 1 ∧
      DictOk s.mcs (s.next.toNat + 1) (s.dict.write (dictKey s.cur b) (s.next.setWidth 12)) := by
  refine ⟨by bv_omega, h.dict.insert h.next_low ?_ (h.match_code hh) (symbolInRange_iff.mp hb) hd⟩
  rw [BitVec.toNat_setWidth, Nat.mod_eq_of_lt hn]

/-- An accepted `SYM` keeps the encoder's invariant (rule R105). -/
theorem consumeSymbol_encoderOpen (h : EncoderOpen s) (hb : symbolInRange s.mcs b = true) :
    EncoderOpen (consumeSymbol b s) := by
  cases hh : s.have_ with
  | false =>
    rw [consumeSymbol_first hh]
    exact ⟨h.mcs_legal, h.next_low, h.next_high, h.dict, fun _ => isMatch_literalCode hb _, nofun⟩
  | true =>
    cases hd : dictLookup s.cur b s with
    | some c =>
      rw [consumeSymbol_hit hh hd]
      refine ⟨h.mcs_legal, h.next_low, h.next_high, h.dict, fun _ => .inr ?_, fun hf => ?_⟩
      · exact h.dict.values _ (Memory.mem_of_read hd)
      · rw [hh] at hf
        cases hf
    | none =>
      have hfalse : (missSymbol b s).have_ ≠ false := by rw [missSymbol_have_, hh]; exact nofun
      rw [consumeSymbol_miss hh hd]
      by_cases hn : s.next.toNat < 4096
      · obtain ⟨hnext, hdict⟩ := h.room_dictOk hb hh hd hn
        have hlow := h.next_low
        rw [missSymbol_room b hn] at hfalse ⊢
        refine ⟨?_, ?_, ?_, ?_, fun _ => ?_, fun hf => absurd hf hfalse⟩ <;>
          simp only [enterPair_mcs, enterPair_next, enterPair_dict, emit_mcs, emit_next, emit_dict, emit_cur, hnext]
        · exact h.mcs_legal
        · omega
        · omega
        · exact hdict
        · exact isMatch_literalCode hb _
      · obtain ⟨-, hmax, -, -, hfirst, -⟩ := frame_constants s.mcs h.mcs_legal
        rw [missSymbol_full b (Nat.not_lt.mp hn)] at hfalse ⊢
        refine ⟨?_, ?_, ?_, ?_, fun _ => ?_, fun hf => absurd hf hfalse⟩ <;>
          simp only [resetDictionary_mcs, resetDictionary_next, resetDictionary_dict, emit_mcs, hfirst]
        · exact h.mcs_legal
        · exact Nat.le_refl _
        · omega
        · exact DictOk.nil s.mcs
        · exact isMatch_literalCode hb _

end Sys2Proof.Machine
end

section
/-! A sequence of commands: execution, code stream and spelled symbols of one sequence after another, and of the
commands of a frame (40_lzw_encoder.md rules R100, R110; 70_reset_and_hazards.md rule R204). -/

namespace Sys2Proof.Machine

variable {s t : State} {i : Instr} {is : List Instr} {m : MinCodeSize} {B : List Symbol}

theorem execAll_cons (js : List Instr) (h : exec i s = .next t) : execAll (i :: js) s = execAll js t := by
  simp [execAll, h]

theorem codeStream_cons (js : List Instr) (h : exec i s = .next t) :
    codeStream (i :: js) s = emittedCodes i s ++ codeStream js t := by
  simp [codeStream, h]

theorem spelledSymbols_cons (js : List Instr) (h : exec i s = .next t) :
    spelledSymbols (i :: js) s = emittedSymbols i s ++ spelledSymbols js t := by
  simp [spelledSymbols, h]

/-- `SYM b_0; SYM b_1; ...`, all accepted. -/
def consumeSymbols (B : List Symbol) (s : State) : State := B.foldl (fun st b => consumeSymbol b st) s

@[simp] theorem consumeSymbols_nil (s : State) : consumeSymbols [] s = s := rfl

@[simp] theorem consumeSymbols_cons (b : Symbol) (B : List Symbol) (s : State) :
    consumeSymbols (b :: B) s = consumeSymbols B (consumeSymbol b s) := rfl

@[simp] theorem consumeSymbols_mode (B : List Symbol) (s : State) : (consumeSymbols B s).mode = s.mode := by
  induction B generalizing s with
  | nil => rfl
  | cons b B ih => rw [consumeSymbols_cons, ih, consumeSymbol_mode]

@[simp] theorem consumeSymbols_mcs (B : List Symbol) (s : State) : (consumeSymbols B s).mcs = s.mcs := by
  induction B generalizing s with
  | nil => rfl
  | cons b B ih => rw [consumeSymbols_cons, ih, consumeSymbol_mcs]

/-- An open frame that can take the symbols `B`. -/
structure Accepts (B : List Symbol) (s : State) : Prop where
  active : s.mode = .active
  encoder : EncoderOpen s
  symbols : ∀ b ∈ B, symbolInRange s.mcs b = true

theorem Accepts.head {b : Symbol} (h : Accepts (b :: B) s) : symbolInRange s.mcs b = true :=
  h.symbols b List.mem_cons_self

theorem Accepts.exec_head {b : Symbol} (h : Accepts (b :: B) s) : exec (.sym b) s = .next (consumeSymbol b s) :=
  exec_sym_inRange h.active h.head

theorem Accepts.tail {b : Symbol} (h : Accepts (b :: B) s) : Accepts B (consumeSymbol b s) where
  active := (consumeSymbol_mode b s).trans h.active
  encoder := consumeSymbol_encoderOpen h.encoder h.head
  symbols a ha := by
    rw [consumeSymbol_mcs]
    exact h.symbols a (List.mem_cons_of_mem b ha)

theorem Accepts.consumeSymbols (h : Accepts B s) : Accepts [] (consumeSymbols B s) := by
  induction B generalizing s with
  | nil => exact h
  | cons b B ih => exact ih h.tail

theorem openFrame_accepts (hm : legalMcs m = true) (hB : ∀ b ∈ B, b.toNat < 2 ^ m.toNat) (s : State) :
    Accepts B (openFrame m s) where
  active := openFrame_mode m s
  encoder := openFrame_encoderOpen hm s
  symbols b hb := by
    rw [openFrame_mcs]
    exact symbolInRange_iff.mpr (hB b hb)

/-- The symbols of a frame are all accepted, and the commands after them run from where they lead. -/
theorem Accepts.execAll_syms (h : Accepts B s) (js : List Instr) :
    execAll (B.map .sym ++ js) s = execAll js (Machine.consumeSymbols B s) := by
  induction B generalizing s with
  | nil => rfl
  | cons b B ih =>
    rw [List.map_cons, List.cons_append, execAll_cons _ h.exec_head, ih h.tail, consumeSymbols_cons]

theorem Accepts.codeStream_syms (h : Accepts B s) (js : List Instr) :
    codeStream (B.map .sym ++ js) s =
      codeStream (B.map .sym) s ++ codeStream js (Machine.consumeSymbols B s) := by
  induction B generalizing s with
  | nil => rfl
  | cons b B ih =>
    simp only [List.map_cons, List.cons_append, codeStream_cons _ h.exec_head, ih h.tail, List.append_assoc,
      consumeSymbols_cons]

theorem Accepts.spelledSymbols_syms (h : Accepts B s) (js : List Instr) :
    spelledSymbols (B.map .sym ++ js) s =
      spelledSymbols (B.map .sym) s ++ spelledSymbols js (Machine.consumeSymbols B s) := by
  induction B generalizing s with
  | nil => rfl
  | cons b B ih =>
    simp only [List.map_cons, List.cons_append, spelledSymbols_cons _ h.exec_head, ih h.tail, List.append_assoc,
      consumeSymbols_cons]

/-! ### A frame -/

section Frame

variable (hm : legalMcs m = true) (hB : ∀ b ∈ B, b.toNat < 2 ^ m.toNat) (hs : s.mode = .idle)

include hm hB hs

theorem execAll_frameSoFar : execAll (frameSoFar m B) s = .next (consumeSymbols B (openFrame m s)) := by
  have h := (openFrame_accepts hm hB s).execAll_syms []
  rw [List.append_nil] at h
  rw [frameSoFar, execAll_cons _ (exec_start_legal hs hm), h, execAll]

theorem execAll_frameCommands :
    execAll (frameCommands m B) s = .next (closeFrame (consumeSymbols B (openFrame m s))) := by
  have h := openFrame_accepts hm hB s
  rw [frameCommands, frameSoFar, List.cons_append, execAll_cons _ (exec_start_legal hs hm), h.execAll_syms,
    execAll_cons _ (exec_finish_active h.consumeSymbols.active), execAll]

/-- However many of a frame's commands have run, the block is not in Fault mode (rule R110). -/
theorem execAll_take_frameCommands (k : Nat) :
    ∃ t, execAll ((frameCommands m B).take k) s = .next t ∧ t.mode ≠ .fault := by
  cases k with
  | zero => exact ⟨s, rfl, by rw [hs]; exact nofun⟩
  | succ j =>
    by_cases hj : j ≤ B.length
    · have htake : (frameCommands m B).take (j + 1) = frameSoFar m (B.take j) := by
        rw [frameCommands, frameSoFar, List.cons_append, List.take_succ_cons,
          List.take_append_of_le_length (by rwa [List.length_map]), ← List.map_take, frameSoFar]
      refine ⟨_, htake ▸ execAll_frameSoFar hm (fun b hb => hB b (List.mem_of_mem_take hb)) hs, ?_⟩
      rw [consumeSymbols_mode, openFrame_mode]
      exact nofun
    · have htake : (frameCommands m B).take (j + 1) = frameCommands m B := by
        apply List.take_of_length_le
        simp only [frameCommands, frameSoFar, List.length_append, List.length_cons, List.length_map, List.length_nil]
        omega
      refine ⟨_, htake ▸ execAll_frameCommands hm hB hs, ?_⟩
      rw [closeFrame_mode]
      exact nofun

end Frame

end Sys2Proof.Machine
end

section
/-! Stepwise equals batch (40_lzw_encoder.md rule R110): a `SYM` does to the encoder what one turn of the loop of
`LzwCodes` does to its variables (rule R109), and emits what the turn adds to its codes. -/

namespace Sys2Proof.Machine

open Sys2Proof.Batch (Walk walkSymbol)

variable {s : State} {w : Walk} {b : Symbol} {m : MinCodeSize} {B : List Symbol}

/-- The encoder's registers and dictionary hold the variables of the batch loop. -/
structure Tracks (w : Walk) (s : State) : Prop where
  have_ : s.have_ = true
  next : s.next.toNat = w.next
  cur : s.cur.toNat = w.cur
  dict : ∀ p a, (dictLookup p a s).map BitVec.toNat = w.dict.lookup (p.toNat, a.toNat)

/-! ### One turn of the loop -/

theorem walkSymbol_hit {mcs v c : Nat} (h : w.dict.lookup (w.cur, v) = some c) :
    walkSymbol mcs w v = { w with cur := c } := by
  simp [walkSymbol, h]

theorem walkSymbol_room {mcs v : Nat} (h : w.dict.lookup (w.cur, v) = none) (hn : w.next < 4096) :
    walkSymbol mcs w v =
      { next := w.next + 1, dict := ((w.cur, v), w.next) :: w.dict, cur := v
        codes := w.codes ++ [(w.cur, codeWidth w.next)] } := by
  simp [walkSymbol, h, Config.cap, hn]

theorem walkSymbol_full {mcs v : Nat} (h : w.dict.lookup (w.cur, v) = none) (hn : 4096 ≤ w.next) :
    walkSymbol mcs w v =
      { next := 2 ^ mcs + 2, dict := [], cur := v
        codes := w.codes ++ [(w.cur, codeWidth w.next), (2 ^ mcs, codeWidth w.next)] } := by
  simp [walkSymbol, h, Config.cap, Nat.not_lt.mpr hn]

theorem Tracks.lookup_cur (h : Tracks w s) (b : Symbol) :
    w.dict.lookup (w.cur, b.toNat) = (dictLookup s.cur b s).map BitVec.toNat := by
  rw [h.dict, h.cur]

/-- A pair entered in both dictionaries is found in both, and the other pairs as before (rule R52). -/
theorem Tracks.lookup_insert (h : Tracks w s) {c : Code} (hc : c.toNat = w.next) (p : Code) (a : Symbol) :
    (dictLookup p a (dictInsert s.cur b c s)).map BitVec.toNat =
      (((w.cur, b.toNat), w.next) :: w.dict).lookup (p.toNat, a.toNat) := by
  rw [List.lookup_cons]
  by_cases hpa : s.cur = p ∧ b = a
  · obtain ⟨rfl, rfl⟩ := hpa
    rw [dictLookup_dictInsert_same, h.cur]
    simp [hc]
  · have hne : ¬(p.toNat, a.toNat) = (w.cur, b.toNat) := fun he => by
      obtain ⟨hp, ha⟩ := Prod.mk.inj he
      exact hpa ⟨BitVec.eq_of_toNat_eq (h.cur.trans hp.symm), BitVec.eq_of_toNat_eq ha.symm⟩
    rw [dictLookup_dictInsert_other c s hpa, h.dict, beq_eq_false_iff_ne.mpr hne]

/-- The loop body of rule R109 is the `else` branch of rule R105. -/
theorem Tracks.consumeSymbol (h : Tracks w s) (ha : Accepts (b :: B) s) :
    Tracks (walkSymbol s.mcs.toNat w b.toNat) (consumeSymbol b s) ∧
      (walkSymbol s.mcs.toNat w b.toNat).codes = w.codes ++ emittedCodes (.sym b) s := by
  have hlookup := h.lookup_cur b
  have hhave : (Machine.consumeSymbol b s).have_ = true := consumeSymbol_have_ b s
  cases hd : dictLookup s.cur b s with
  | some c =>
    rw [hd, Option.map_some] at hlookup
    rw [walkSymbol_hit hlookup, consumeSymbol_hit h.have_ hd, emittedCodes, emissions_sym_hit hd]
    exact ⟨⟨h.have_, h.next, rfl, h.dict⟩, (List.append_nil _).symm⟩
  | none =>
    rw [hd, Option.map_none] at hlookup
    rw [consumeSymbol_miss h.have_ hd] at hhave ⊢
    by_cases hn : s.next.toNat < 4096
    · obtain ⟨hnext, -⟩ := ha.encoder.room_dictOk ha.head h.have_ hd hn
      have hcode : (s.next.setWidth 12).toNat = w.next := by
        rw [BitVec.toNat_setWidth, Nat.mod_eq_of_lt hn, h.next]
      rw [walkSymbol_room hlookup (h.next ▸ hn), emittedCodes,
        emissions_sym_room ha.active ha.head h.have_ hd hn]
      refine ⟨⟨hhave, ?_, ?_, fun p a => ?_⟩, ?_⟩
      · rw [missSymbol_room b hn, enterPair_next, emit_next, hnext, h.next]
      · rw [missSymbol_cur, literalCode_toNat]
      · rw [← h.lookup_insert hcode p a, dictLookup, missSymbol_room b hn, enterPair_dict, emit_dict, emit_cur,
          emit_next, dictLookup, dictInsert_dict]
      · rw [← h.cur, ← h.next, List.map_singleton]
    · have hn := Nat.not_lt.mp hn
      obtain ⟨-, -, hclear, -, hfirst, -⟩ := frame_constants s.mcs ha.encoder.mcs_legal
      rw [walkSymbol_full hlookup (h.next ▸ hn), emittedCodes,
        emissions_sym_full ha.active ha.head h.have_ hd hn]
      refine ⟨⟨hhave, ?_, ?_, fun p a => ?_⟩, ?_⟩
      · rw [missSymbol_full b hn, resetDictionary_next, emit_mcs, hfirst, minDictLen]
      · rw [missSymbol_cur, literalCode_toNat]
      · rw [dictLookup, missSymbol_full_dict hn, Memory.read_nil]
        rfl
      · rw [List.map_cons, List.map_singleton, hclear, emit_next, ← h.cur, ← h.next, minDictLen]

/-! ### The whole loop -/

/-- The symbols after the first (rule R109). -/
theorem Tracks.consumeSymbols (h : Tracks w s) (ha : Accepts B s) :
    Tracks ((symbolValues B).foldl (walkSymbol s.mcs.toNat) w) (consumeSymbols B s) ∧
      ((symbolValues B).foldl (walkSymbol s.mcs.toNat) w).codes = w.codes ++ codeStream (B.map .sym) s := by
  induction B generalizing w s with
  | nil => exact ⟨h, (List.append_nil _).symm⟩
  | cons b B ih =>
    obtain ⟨h', hcodes⟩ := h.consumeSymbol ha
    obtain ⟨hend, hall⟩ := ih h' ha.tail
    rw [consumeSymbol_mcs] at hend hall
    refine ⟨hend, ?_⟩
    rw [List.map_cons, codeStream_cons _ ha.exec_head, ← List.append_assoc, ← hcodes]
    exact hall

theorem codeStream_singleton (i : Instr) (s : State) : codeStream [i] s = emittedCodes i s := by
  rw [codeStream]
  cases exec i s <;> exact List.append_nil _

theorem emittedCodes_finish_active (hs : s.mode = .active) :
    emittedCodes .finish s =
      (if s.have_ then [(s.cur.toNat, codeWidth s.next.toNat)] else []) ++
        [((endCode s.mcs).toNat, codeWidth s.next.toNat)] := by
  rw [emittedCodes, emissions_finish_active hs]
  cases s.have_ <;> simp

/-- What the batch loop adds after its last turn is what `FINISH` emits. -/
theorem Tracks.emittedCodes_finish (h : Tracks w s) (ha : Accepts [] s) :
    emittedCodes .finish s =
      [(w.cur, codeWidth w.next), (2 ^ s.mcs.toNat + 1, codeWidth w.next)] := by
  obtain ⟨-, -, -, hend, -, -⟩ := frame_constants s.mcs ha.encoder.mcs_legal
  rw [emittedCodes_finish_active ha.active, if_pos h.have_, hend, h.cur, h.next, minDictLen]
  rfl

/-- The first symbol of a frame starts the loop (rule R109). -/
theorem tracks_first (hm : legalMcs m = true) (b : Symbol) (s : State) :
    Tracks (Batch.walk m.toNat b.toNat []) (consumeSymbol b (openFrame m s)) := by
  obtain ⟨-, -, -, -, hfirst, -⟩ := frame_constants m hm
  rw [consumeSymbol_first (openFrame_have_ m s)]
  refine ⟨rfl, ?_, literalCode_toNat b, fun p a => ?_⟩
  · exact (congrArg BitVec.toNat (openFrame_next m s)).trans hfirst
  · show (Memory.read (openFrame m s).dict (dictKey p a)).map BitVec.toNat = none
    rw [openFrame_dict]
    rfl

/-- The batch walk over the symbols of a frame is the frame so far (rule R110). -/
theorem tracks_walk (hm : legalMcs m = true) {s : State} (ha : Accepts (b :: B) (openFrame m s)) :
    Tracks (Batch.walk m.toNat b.toNat (symbolValues B)) (consumeSymbols (b :: B) (openFrame m s)) ∧
      (Batch.walk m.toNat b.toNat (symbolValues B)).codes =
        (minDictLen m, m.toNat + 1) :: codeStream ((b :: B).map .sym) (openFrame m s) := by
  obtain ⟨-, -, -, -, -, hwidth⟩ := frame_constants m hm
  obtain ⟨htracks, hcodes⟩ := (tracks_first hm b s).consumeSymbols ha.tail
  rw [consumeSymbol_mcs, openFrame_mcs] at htracks hcodes
  refine ⟨htracks, ?_⟩
  rw [List.map_cons, codeStream_cons _ ha.exec_head, emittedCodes, emissions_sym_first b (openFrame_have_ m s),
    ← hwidth]
  exact hcodes

theorem codeStream_frameCommands (hm : legalMcs m = true) (hB : ∀ b ∈ B, b.toNat < 2 ^ m.toNat)
    (hs : s.mode = .idle) : codeStream (frameCommands m B) s = Batch.lzwCodes (symbolValues B) m.toNat := by
  have ha := openFrame_accepts hm hB s
  rw [frameCommands, frameSoFar, List.cons_append, codeStream_cons _ (exec_start_legal hs hm),
    emittedCodes_start_legal hs hm, ha.codeStream_syms, codeStream_singleton]
  cases B with
  | nil =>
    obtain ⟨-, -, -, hend, hfirst, hwidth⟩ := frame_constants m hm
    rw [consumeSymbols_nil, emittedCodes_finish_active ha.active, openFrame_have_, openFrame_mcs, openFrame_next, hend,
      hfirst, ← hwidth]
    rfl
  | cons b B =>
    obtain ⟨htracks, hcodes⟩ := tracks_walk hm ha
    have hlast := htracks.emittedCodes_finish ha.consumeSymbols
    rw [consumeSymbols_mcs, openFrame_mcs] at hlast
    rw [hlast, ← List.append_assoc, List.singleton_append, ← hcodes]
    rfl

/-- Settles O39: the encoder tracks the batch loop from the first symbol on. -/
theorem stepwiseEqualsBatch : Obligations.StepwiseEqualsBatch := by
  intro m B s hlo hhi hB hs
  have hm := (legalMcs_iff m).mpr ⟨hlo, hhi⟩
  exact ⟨codeStream_frameCommands hm hB hs, execAll_take_frameCommands hm hB hs⟩

end Sys2Proof.Machine
end

section
/-! The strings of the codes (40_lzw_encoder.md rule R108): the strings of the match codes emitted, followed by the
string of the current match, are the symbols consumed. -/

namespace Sys2Proof.Machine

variable {s : State} {b : Symbol} {m : MinCodeSize} {n : Nat} {d : Memory Code} {p c v : Code} {B : List Symbol}

/-! ### The entry of a code -/

/-- The entry that has the code `c` as its value, if there is one. -/
def entryOf (d : Memory Code) (c : Code) : Option (Nat × Code) := d.find? (fun e => decide (e.2 = c))

theorem entryOf_eq_none : entryOf d c = none ↔ ∀ e ∈ d, e.2 ≠ c := by
  simp [entryOf]

theorem mem_of_entryOf {e : Nat × Code} (h : entryOf d c = some e) : e ∈ d ∧ e.2 = c :=
  ⟨List.mem_of_find?_eq_some h, by simpa using List.find?_some h⟩

/-- No two entries have one value, so a listed entry is the entry of its value. -/
theorem entryOf_of_mem (hd : (d.map Prod.snd).Nodup) {e : Nat × Code} (he : e ∈ d) : entryOf d e.2 = some e := by
  cases hf : entryOf d e.2 with
  | none => exact absurd rfl (entryOf_eq_none.mp hf e he)
  | some e' =>
    obtain ⟨he', heq⟩ := mem_of_entryOf hf
    rw [List.inj_on_of_nodup_map hd he' he heq]

/-- A pair entered with a new code leaves the entries of the other codes as they are. -/
theorem entryOf_write {k : Nat} (hd : ((d.write k v).map Prod.snd).Nodup) (hk : d.read k = none) (hc : c ≠ v) :
    entryOf (d.write k v) c = entryOf d c := by
  have hmem : ∀ e, e ∈ d.write k v ↔ e = (k, v) ∨ e ∈ d :=
    fun e => (Memory.write_perm v hk).mem_iff.trans List.mem_cons
  cases hf : entryOf d c with
  | none =>
    refine entryOf_eq_none.mpr fun e he => ?_
    obtain rfl | he := (hmem e).mp he
    · exact Ne.symm hc
    · exact entryOf_eq_none.mp hf e he
  | some e =>
    obtain ⟨he, rfl⟩ := mem_of_entryOf hf
    exact entryOf_of_mem hd ((hmem e).mpr (.inr he))

/-! ### The string of a code -/

theorem codeString_of_no_entry (h : entryOf d c = none) (fuel : Nat) : codeString fuel d c = [c.setWidth 8] := by
  cases fuel with
  | zero => rfl
  | succ fuel =>
    rw [entryOf] at h
    rw [codeString, h]

theorem codeString_of_entry {e : Nat × Code} (h : entryOf d c = some e) (fuel : Nat) :
    codeString (fuel + 1) d c = codeString fuel d (BitVec.ofNat 12 (e.1 / 256)) ++ [BitVec.ofNat 8 e.1] := by
  rw [entryOf] at h
  rw [codeString, h]

theorem DictOk.entryOf_literal (h : DictOk m n d) (hc : c.toNat < minDictLen m) : entryOf d c = none := by
  refine entryOf_eq_none.mpr fun e he hec => ?_
  have hlow := (h.values e he).1
  rw [hec] at hlow
  omega

/-- The parent of an entry is a smaller code (rule R164 I4). -/
theorem DictOk.parent_lt (h : DictOk m n d) {e : Nat × Code} (he : e ∈ d) :
    (BitVec.ofNat 12 (e.1 / 256)).toNat < e.2.toNat := by
  obtain ⟨-, -, hparent⟩ := h.keys e he
  have hlow := (h.values e he).1
  refine lt_of_le_of_lt (BitVec.toNat_ofNat .. ▸ Nat.mod_le _ _) ?_
  omega

/-- Parents are smaller, so any fuel that is at least the code is enough. -/
theorem DictOk.codeString_fuel (h : DictOk m n d) {f f' : Nat} (hf : c.toNat ≤ f) (hf' : c.toNat ≤ f') :
    codeString f d c = codeString f' d c := by
  induction f generalizing c f' with
  | zero =>
    have hlit : c.toNat < minDictLen m := lt_of_le_of_lt hf (minDictLen_pos m)
    rw [codeString_of_no_entry (h.entryOf_literal hlit), codeString_of_no_entry (h.entryOf_literal hlit)]
  | succ f ih =>
    cases hentry : entryOf d c with
    | none => rw [codeString_of_no_entry hentry, codeString_of_no_entry hentry]
    | some e =>
      obtain ⟨he, rfl⟩ := mem_of_entryOf hentry
      have hparent := h.parent_lt he
      cases f' with
      | zero => omega
      | succ f' =>
        rw [codeString_of_entry hentry, codeString_of_entry hentry, ih (f' := f') (by omega) (by omega)]

/-- The string of a child is the string of its parent and the symbol (rule R108). -/
theorem DictOk.codeString_child (h : DictOk m n d) (he : d.read (dictKey p b) = some c) :
    codeString 4096 d c = codeString 4096 d p ++ [b] := by
  have hkey : BitVec.ofNat 8 (dictKey p b) = b :=
    BitVec.eq_of_toNat_eq ((BitVec.toNat_ofNat ..).trans (dictKey_mod p b))
  rw [codeString_of_entry (entryOf_of_mem h.once (Memory.mem_of_read he)), dictKey_div, BitVec.ofNat_toNat,
    BitVec.setWidth_eq, hkey, h.codeString_fuel (Nat.le_of_lt_succ p.isLt) p.isLt.le]

theorem DictOk.codeString_literal (h : DictOk m n d) (hb : b.toNat < minDictLen m) :
    codeString 4096 d (literalCode b) = [b] := by
  have hw : (literalCode b).setWidth 8 = b :=
    BitVec.setWidth_setWidth_of_le b (by decide) |>.trans (BitVec.setWidth_eq b)
  rw [codeString_of_no_entry (h.entryOf_literal (by rwa [literalCode_toNat])), hw]

/-! ### The current match -/

/-- The string of the current match; empty before the first symbol. -/
def matchString (s : State) : List Symbol := if s.have_ then codeString 4096 s.dict s.cur else []

theorem matchString_have (hh : s.have_ = true) : matchString s = codeString 4096 s.dict s.cur := if_pos hh

theorem matchString_no_match (hh : s.have_ = false) : matchString s = [] := by simp [matchString, hh]

/-- A miss begins a new match with its symbol. -/
theorem matchString_of_literal (h : EncoderOpen s) (hh : s.have_ = true) (hb : symbolInRange s.mcs b = true)
    (hc : s.cur = literalCode b) : matchString s = [b] := by
  rw [matchString_have hh, hc]
  exact h.dict.codeString_literal (symbolInRange_iff.mp hb)

/-- What a command spells in match codes is the match it emits; Clear and End spell nothing. -/
theorem emittedSymbols_sym_miss {b : Symbol} (ha : Accepts (b :: B) s) (hh : s.have_ = true)
    (hd : dictLookup s.cur b s = none) : emittedSymbols (.sym b) s = matchString s := by
  have hcur := ha.encoder.isMatchCode_cur hh
  have hclear := isMatchCode_clear s.mcs
  rw [emittedSymbols, matchString_have hh]
  by_cases hn : s.next.toNat < 4096
  · rw [emissions_sym_room ha.active ha.head hh hd hn]
    simp [hcur]
  · rw [emissions_sym_full ha.active ha.head hh hd (Nat.not_lt.mp hn)]
    simp [hcur, hclear]

theorem emittedSymbols_finish (ha : Accepts [] s) : emittedSymbols .finish s = matchString s := by
  have hend := isMatchCode_end s.mcs
  rw [emittedSymbols, emissions_finish_active ha.active]
  cases hh : s.have_ with
  | false => simp [hend, matchString_no_match hh]
  | true => simp [hend, ha.encoder.isMatchCode_cur hh, matchString_have hh]

theorem emittedSymbols_start (hm : legalMcs m = true) (hs : s.mode = .idle) : emittedSymbols (.start m) s = [] := by
  have hclear := isMatchCode_clear m
  simp [emittedSymbols, emissions, hs, hm, hclear]

/-- The symbol consumed comes after what the match spelled before, in what is emitted or in the new match. -/
theorem Accepts.spells_symbol {b : Symbol} (ha : Accepts (b :: B) s) :
    emittedSymbols (.sym b) s ++ matchString (consumeSymbol b s) = matchString s ++ [b] := by
  cases hh : s.have_ with
  | false =>
    rw [matchString_of_literal ha.tail.encoder (consumeSymbol_have_ b s) (by rw [consumeSymbol_mcs]; exact ha.head)
      (by rw [consumeSymbol_first hh]), emittedSymbols, emissions_sym_first b hh, matchString_no_match hh]
    rfl
  | true =>
    cases hd : dictLookup s.cur b s with
    | some c =>
      have hstring := ha.encoder.dict.codeString_child hd
      rw [consumeSymbol_hit hh hd, emittedSymbols, emissions_sym_hit hd, matchString_have hh, ← hstring]
      exact matchString_have hh
    | none =>
      rw [emittedSymbols_sym_miss ha hh hd, matchString_of_literal ha.tail.encoder (consumeSymbol_have_ b s)
        (by rw [consumeSymbol_mcs]; exact ha.head) (by rw [consumeSymbol_miss hh hd, missSymbol_cur])]

theorem Accepts.spells_symbols (ha : Accepts B s) :
    spelledSymbols (B.map .sym) s ++ matchString (Machine.consumeSymbols B s) = matchString s ++ B := by
  induction B generalizing s with
  | nil => simp [spelledSymbols]
  | cons b B ih =>
    rw [List.map_cons, spelledSymbols_cons _ ha.exec_head, consumeSymbols_cons, List.append_assoc, ih ha.tail,
      ← List.append_assoc, ha.spells_symbol, List.append_assoc, List.singleton_append]

theorem spelledSymbols_singleton (i : Instr) (s : State) : spelledSymbols [i] s = emittedSymbols i s := by
  rw [spelledSymbols]
  cases exec i s <;> exact List.append_nil _

/-- After at least one symbol there is a match. -/
theorem consumeSymbols_have_ (hB : B ≠ []) (s : State) : (consumeSymbols B s).have_ = true := by
  induction B generalizing s with
  | nil => exact absurd rfl hB
  | cons b B ih =>
    cases B with
    | nil => exact consumeSymbol_have_ b s
    | cons a B => exact ih (List.cons_ne_nil a B) (consumeSymbol b s)

/-- Settles O42: `START` spells nothing and opens no match; then each symbol is spelled in its turn; `FINISH` emits the
match that is left. -/
theorem matchedStringsSpellTheSymbols : Obligations.MatchedStringsSpellTheSymbols := by
  intro m B s hlo hhi hB hs
  have hm := (legalMcs_iff m).mpr ⟨hlo, hhi⟩
  have ha := openFrame_accepts hm hB s
  have hspells := ha.spells_symbols
  rw [matchString_no_match (openFrame_have_ m s), List.nil_append] at hspells
  refine ⟨?_, fun t ht hne => ?_⟩
  · rw [frameCommands, frameSoFar, List.cons_append, spelledSymbols_cons _ (exec_start_legal hs hm),
      emittedSymbols_start hm hs, List.nil_append, ha.spelledSymbols_syms, spelledSymbols_singleton,
      emittedSymbols_finish ha.consumeSymbols, hspells]
  · have hhave := consumeSymbols_have_ hne (openFrame m s)
    rw [← next_unique (execAll_frameSoFar hm hB hs) ht]
    refine ⟨hhave, ?_⟩
    rw [frameSoFar, spelledSymbols_cons _ (exec_start_legal hs hm), emittedSymbols_start hm hs, List.nil_append,
      ← matchString_have hhave, hspells]

end Sys2Proof.Machine
end

section
/-! The codes of `LzwCodes` by their places (40_lzw_encoder.md rules R109, R111, R113): an invariant of the batch walk,
in terms of the number of codes so far. -/

namespace Sys2Proof.Machine

open Sys2Proof.Batch (Walk walkSymbol)

variable {m n : Nat} {w : Walk} {B : List Nat}

/-! ### The walk -/

/-- What holds after the first symbol and is kept by every turn of the loop holds after all symbols. -/
theorem walk_induction {P : List Nat → Walk → Prop} {b : Nat} (rest : List Nat) (first : P [b] (Batch.walk m b []))
    (turn : ∀ l w v, v ∈ rest → P l w → P (l ++ [v]) (walkSymbol m w v)) : P (b :: rest) (Batch.walk m b rest) := by
  induction rest using List.reverseRecOn with
  | nil => exact first
  | append_singleton rest v ih =>
    have h := turn (b :: rest) (Batch.walk m b rest) v (by simp)
      (ih fun l w a ha => turn l w a (List.mem_append_left _ ha))
    rwa [Batch.walk, List.foldl_append]

/-- The three outcomes of a turn (rule R109). -/
inductive TurnResult (m : Nat) (w : Walk) (v : Nat) : Walk → Prop
  | hit {c : Nat} (hd : w.dict.lookup (w.cur, v) = some c) : TurnResult m w v { w with cur := c }
  | room (hd : w.dict.lookup (w.cur, v) = none) (hn : w.next < 4096) : TurnResult m w v
      { next := w.next + 1, dict := ((w.cur, v), w.next) :: w.dict, cur := v
        codes := w.codes ++ [(w.cur, codeWidth w.next)] }
  | full (hd : w.dict.lookup (w.cur, v) = none) (hn : 4096 ≤ w.next) : TurnResult m w v
      { next := 2 ^ m + 2, dict := [], cur := v
        codes := w.codes ++ [(w.cur, codeWidth w.next), (2 ^ m, codeWidth w.next)] }

theorem walkSymbol_turnResult (m : Nat) (w : Walk) (v : Nat) : TurnResult m w v (walkSymbol m w v) := by
  cases hd : w.dict.lookup (w.cur, v) with
  | some c => exact walkSymbol_hit hd ▸ .hit hd
  | none =>
    by_cases hn : w.next < 4096
    · exact walkSymbol_room hd hn ▸ .room hd hn
    · exact walkSymbol_full hd (Nat.not_lt.mp hn) ▸ .full hd (Nat.not_lt.mp hn)

/-! ### Codes by their places -/

/-- The number of codes from one Clear to the next (rule R111). -/
def period (m : Nat) : Nat := 4096 - 2 ^ m

/-- What stands at place `i` of the codes up to the last match code: Clear at the multiples of the period; at the
`k`-th place after a Clear a match code, as wide as the `k - 1` entries made since then ask (rules R111, R136). -/
def CodeAt (m i : Nat) (cw : Nat × Nat) : Prop :=
  if i % period m = 0 then cw = (2 ^ m, if i = 0 then m + 1 else 12)
  else (cw.1 < 2 ^ m ∨ 2 ^ m + 2 ≤ cw.1) ∧ cw.2 = codeWidth (2 ^ m + 1 + i % period m)

theorem CodeAt.clear_iff {i : Nat} {cw : Nat × Nat} (h : CodeAt m i cw) : cw.1 = 2 ^ m ↔ i % period m = 0 := by
  unfold CodeAt at h
  split at h
  next hi => simp [hi, h]
  next hi => exact ⟨fun he => by omega, fun h0 => absurd h0 hi⟩

theorem CodeAt.width_after_clear {i : Nat} {cw : Nat × Nat} (h : CodeAt m i cw) (hi : i % period m = 1) :
    cw.2 = codeWidth (2 ^ m + 2) := by
  rw [CodeAt, hi, if_neg Nat.one_ne_zero] at h
  exact h.2

/-- Every code of the list is one that can stand at its place. -/
def CodesAt (m : Nat) (l : List (Nat × Nat)) : Prop := ∀ i cw, l[i]? = some cw → CodeAt m i cw

theorem CodesAt.append_singleton {l : List (Nat × Nat)} {cw : Nat × Nat} (h : CodesAt m l)
    (hcw : CodeAt m l.length cw) : CodesAt m (l ++ [cw]) := by
  intro i cw' hi
  rw [List.getElem?_append] at hi
  split at hi
  next hlt => exact h i cw' hi
  next hge =>
    obtain ⟨hzero, rfl⟩ : i - l.length = 0 ∧ cw = cw' := by
      rw [List.getElem?_singleton] at hi
      split at hi
      next h0 => exact ⟨h0, Option.some.inj hi⟩
      next => cases hi
    rwa [show i = l.length by omega]

/-- The walk after `q` Clears in mid-stream: where the next code comes to stand, and that those before stand where they
can. -/
structure CodesOk (m q : Nat) (w : Walk) : Prop where
  cur : w.cur < 2 ^ m ∨ 2 ^ m + 2 ≤ w.cur
  values : ∀ e ∈ w.dict, 2 ^ m + 2 ≤ e.2
  next_low : 2 ^ m + 2 ≤ w.next
  next_high : w.next ≤ 4096
  length : w.codes.length = period m * q + (w.next - (2 ^ m + 1))
  codes : CodesAt m w.codes

variable {q : Nat}

theorem CodesOk.length_mod (h : CodesOk m q w) : w.codes.length % period m = w.next - (2 ^ m + 1) := by
  have hlow := h.next_low
  have hhigh := h.next_high
  rw [h.length, Nat.mul_comm, Nat.mul_add_mod_of_lt]
  unfold period
  omega

/-- The current match, emitted now, stands at a match code's place and has its width. -/
theorem CodesOk.append_match (h : CodesOk m q w) : CodesAt m (w.codes ++ [(w.cur, codeWidth w.next)]) := by
  have hlow := h.next_low
  refine h.codes.append_singleton ?_
  rw [CodeAt, h.length_mod, if_neg (by omega), show 2 ^ m + 1 + (w.next - (2 ^ m + 1)) = w.next by omega]
  exact ⟨h.cur, rfl⟩

/-- With the dictionary full the code after the match stands at a multiple of the period. -/
theorem CodesOk.append_clear (h : CodesOk m q w) (hn : w.next = 4096) :
    CodesAt m (w.codes ++ [(w.cur, codeWidth w.next), (2 ^ m, codeWidth w.next)]) := by
  have hlow := h.next_low
  have hlen := h.length
  have hplace : w.codes.length + 1 = (q + 1) * period m := by
    rw [hlen, Nat.succ_mul, Nat.mul_comm, period]
    omega
  rw [← List.singleton_append, ← List.append_assoc]
  refine h.append_match.append_singleton ?_
  rw [List.length_append, List.length_singleton, CodeAt, hplace, if_pos (Nat.mul_mod_left _ _), ← hplace,
    if_neg (Nat.succ_ne_zero _), hn, codeWidth_of_cap_le (Nat.le_refl 4096)]

theorem codesOk_first {b : Nat} (hhi : m ≤ 8) (hb : b < 2 ^ m) (hw : codeWidth (2 ^ m + 2) = m + 1) :
    CodesOk m 0 (Batch.walk m b []) := by
  have hpow : 2 ^ m ≤ 2 ^ 8 := Nat.pow_le_pow_right (by decide) hhi
  refine ⟨.inl hb, nofun, Nat.le_refl _, ?_, ?_, ?_⟩
  · show 2 ^ m + 2 ≤ 4096
    omega
  · show 1 = period m * 0 + (2 ^ m + 2 - (2 ^ m + 1))
    omega
  · have hnil : CodesAt m [] := nofun
    refine hnil.append_singleton ?_
    rw [List.length_nil, CodeAt, Nat.zero_mod, if_pos rfl, if_pos rfl, hw]

/-- One turn keeps the places: an entry with a code, or a full dictionary, two codes and the next Clear. -/
theorem CodesOk.turn {v : Nat} {w' : Walk} (h : CodesOk m q w) (hv : v < 2 ^ m) (hhi : m ≤ 8)
    (r : TurnResult m w v w') :
    (w'.codes.length ≤ w.codes.length + 1 ∧ CodesOk m q w') ∨
      (w'.codes.length = w.codes.length + 2 ∧ CodesOk m (q + 1) w') := by
  have hmatch := h.append_match
  have hclear := h.append_clear
  obtain ⟨hcur, hvalues, hlow, hhigh, hlen, hcodes⟩ := h
  cases r with
  | @hit c hd =>
    obtain ⟨l₁, l₂, hl, -⟩ := List.lookup_eq_some_iff.mp hd
    have hc := hvalues ((w.cur, v), c) (by simp [hl])
    exact .inl ⟨Nat.le_succ _, .inr hc, hvalues, hlow, hhigh, hlen, hcodes⟩
  | room hd hn =>
    refine .inl ⟨by simp, .inl hv, fun e he => ?_, Nat.le_succ_of_le hlow, hn, ?_, hmatch⟩
    · obtain rfl | he := List.mem_cons.mp he
      · exact hlow
      · exact hvalues e he
    · show (w.codes ++ _).length = _ + (w.next + 1 - _)
      rw [List.length_append, List.length_singleton]
      omega
  | full hd hn =>
    have hpow : 2 ^ m ≤ 2 ^ 8 := Nat.pow_le_pow_right (by decide) hhi
    have hn : w.next = 4096 := Nat.le_antisymm hhigh hn
    refine .inr ⟨by simp, .inl hv, nofun, Nat.le_refl _, ?_, ?_, hclear hn⟩
    · show 2 ^ m + 2 ≤ 4096
      omega
    · show (w.codes ++ _).length = period m * (q + 1) + (2 ^ m + 2 - (2 ^ m + 1))
      rw [List.length_append, hlen, Nat.mul_succ, hn]
      unfold period
      simp only [List.length_cons, List.length_nil]
      omega

theorem codeWidth_first (hlo : 2 ≤ m) (hhi : m ≤ 8) : codeWidth (2 ^ m + 2) = m + 1 := by
  interval_cases m <;> decide

/-- The walk over the symbols of a frame: its codes stand at their places, and besides the Clears there are no more of
them than symbols (rules R111, R113). -/
theorem walk_codesOk {b : Nat} {rest : List Nat} (hlo : 2 ≤ m) (hhi : m ≤ 8) (hB : ∀ v ∈ b :: rest, v < 2 ^ m) :
    ∃ q, CodesOk m q (Batch.walk m b rest) ∧ (Batch.walk m b rest).codes.length ≤ (b :: rest).length + q := by
  obtain ⟨hb, hrest⟩ := List.forall_mem_cons.mp hB
  refine walk_induction (P := fun l w => ∃ q, CodesOk m q w ∧ w.codes.length ≤ l.length + q) rest
    ⟨0, codesOk_first hhi hb (codeWidth_first hlo hhi), Nat.le_refl 1⟩ fun l w v hv ⟨q, h, hcount⟩ => ?_
  rw [List.length_append, List.length_singleton]
  obtain ⟨hlen, h'⟩ | ⟨hlen, h'⟩ := h.turn (hrest v hv) hhi (walkSymbol_turnResult m w v)
  · exact ⟨q, h', by omega⟩
  · exact ⟨q + 1, h', by omega⟩

theorem lzwCodes_cons (m b : Nat) (rest : List Nat) :
    Batch.lzwCodes (b :: rest) m =
      (Batch.walk m b rest).codes ++ [((Batch.walk m b rest).cur, codeWidth (Batch.walk m b rest).next)] ++
        [(2 ^ m + 1, codeWidth (Batch.walk m b rest).next)] := by
  rw [List.append_assoc]
  rfl

/-- The codes of a frame with symbols, the last match code at place `last`: all up to it stand at their places, it is
not at a Clear's, and End follows (rule R111). -/
structure FrameCodes (m last : Nat) (S : List (Nat × Nat)) : Prop where
  length : S.length = last + 2
  last_mod : last % period m ≠ 0
  places : ∀ i ≤ last, ∀ cw, S[i]? = some cw → CodeAt m i cw
  end_code : ∀ cw, S[last + 1]? = some cw → cw.1 = 2 ^ m + 1

theorem lzwCodes_frameCodes {b : Nat} {rest : List Nat} (hlo : 2 ≤ m) (hhi : m ≤ 8)
    (hB : ∀ v ∈ b :: rest, v < 2 ^ m) : ∃ last, FrameCodes m last (Batch.lzwCodes (b :: rest) m) := by
  obtain ⟨q, h, -⟩ := walk_codesOk hlo hhi hB
  have hlow := h.next_low
  rw [lzwCodes_cons]
  refine ⟨(Batch.walk m b rest).codes.length, by simp, ?_, fun i hi cw hcw => h.append_match i cw ?_, fun cw hcw => ?_⟩
  · rw [h.length_mod]
    omega
  · rwa [List.getElem?_append_left (by simp; omega)] at hcw
  · rw [List.getElem?_append_right (by simp)] at hcw
    simp only [List.length_append, List.length_singleton, Nat.sub_self, List.getElem?_cons_zero,
      Option.some.injEq] at hcw
    rw [← hcw]

theorem FrameCodes.clear_iff {last i : Nat} {S : List (Nat × Nat)} {cw : Nat × Nat} (h : FrameCodes m last S)
    (hi : S[i]? = some cw) : cw.1 = 2 ^ m ↔ i % period m = 0 ∧ i < last := by
  have hlen := h.length
  have hlt : i < S.length := (List.getElem?_eq_some_iff.mp hi).1
  by_cases hle : i ≤ last
  · rw [(h.places i hle cw hi).clear_iff]
    refine ⟨fun h0 => ⟨h0, lt_of_le_of_ne hle ?_⟩, And.left⟩
    rintro rfl
    exact h.last_mod h0
  · obtain rfl : i = last + 1 := by omega
    have := h.end_code cw hi
    omega

theorem period_gt_one (hhi : m ≤ 8) : 1 < period m := by
  have hpow : 2 ^ m ≤ 2 ^ 8 := Nat.pow_le_pow_right (by decide) hhi
  unfold period
  omega

/-- Settles O53: every code but End stands at its place, the last match code not at a Clear's. -/
theorem clearCodesFallAtMultiples : Obligations.ClearCodesFallAtMultiples := by
  intro m B hlo hhi hne hB S i cw hi
  cases B with
  | nil => exact absurd rfl hne
  | cons b rest =>
    obtain ⟨last, h⟩ := lzwCodes_frameCodes hlo hhi hB
    have hlen : S.length = last + 2 := h.length
    refine ⟨(h.clear_iff hi).trans (and_congr_right' (by omega)), fun hclear cw' hcw' => ?_⟩
    obtain ⟨h0, hlt⟩ := (h.clear_iff hi).mp hclear
    have hone : (i + 1) % period m = 1 := by
      rw [Nat.add_mod, h0, Nat.zero_add, Nat.mod_mod, Nat.mod_eq_of_lt (period_gt_one hhi)]
    rw [(h.places (i + 1) hlt cw' hcw').width_after_clear hone, codeWidth_first hlo hhi]

/-! ### Counts -/

/-- Between two Clears there are more symbols than entries, so few symbols have few Clears (rule R113). -/
theorem lzwCodes_length_le {b : Nat} {rest : List Nat} (hlo : 2 ≤ m) (hhi : m ≤ 8)
    (hB : ∀ v ∈ b :: rest, v < 2 ^ m) :
    (Batch.lzwCodes (b :: rest) m).length ≤ (b :: rest).length + 2 + (b :: rest).length / (4096 - (2 ^ m + 2)) := by
  obtain ⟨q, h, hcount⟩ := walk_codesOk hlo hhi hB
  have hpow : 2 ^ m ≤ 2 ^ 8 := Nat.pow_le_pow_right (by decide) hhi
  have hlen := h.length
  have hperiod : period m * q = (4096 - (2 ^ m + 2)) * q + 2 * q := by
    rw [← Nat.add_mul, period]
    congr 1
    omega
  have hq : q ≤ (b :: rest).length / (4096 - (2 ^ m + 2)) := by
    rw [Nat.le_div_iff_mul_le (by omega), Nat.mul_comm]
    omega
  rw [lzwCodes_cons]
  simp only [List.length_append, List.length_singleton]
  omega

theorem lzwCodes_length_ge {b : Nat} {rest : List Nat} (hlo : 2 ≤ m) (hhi : m ≤ 8)
    (hB : ∀ v ∈ b :: rest, v < 2 ^ m) : 3 ≤ (Batch.lzwCodes (b :: rest) m).length := by
  obtain ⟨q, h, -⟩ := walk_codesOk hlo hhi hB
  have hlow := h.next_low
  have hlen := h.length
  rw [lzwCodes_cons]
  simp only [List.length_append, List.length_singleton]
  omega

variable {s : State}

theorem emittedCodes_length (i : Instr) (s : State) : (emittedCodes i s).length = (emissions i s).length :=
  List.length_map _

theorem emissions_sym_length_le (b : Symbol) (s : State) : (emissions (.sym b) s).length ≤ 2 := by
  by_cases hs : s.mode = .active
  · by_cases hb : symbolInRange s.mcs b = true
    · cases hh : s.have_ with
      | false => simp [emissions_sym_first b hh]
      | true =>
        cases hd : dictLookup s.cur b s with
        | some c => simp [emissions_sym_hit hd]
        | none =>
          by_cases hn : s.next.toNat < 4096
          · simp [emissions_sym_room hs hb hh hd hn]
          · simp [emissions_sym_full hs hb hh hd (Nat.not_lt.mp hn)]
    · simp [emissions_sym_outOfRange hb]
  · simp [emissions_sym_of_ne_active b hs]

theorem emissions_finish_length_le (s : State) : (emissions .finish s).length ≤ 2 := by
  by_cases hs : s.mode = .active
  · rw [emissions_finish_active hs]
    cases s.have_ <;> simp
  · simp [emissions_finish_of_ne_active hs]

/-- Settles O55: the batch counts by the places of the codes, those of a command by its cases, the entries by I3. -/
theorem codeCounts : Obligations.CodeCounts := by
  refine ⟨fun m B hlo hhi hB => ?_, fun b s => ?_, fun s => ?_, fun m s t hs h ht => ?_, fun s h hs => ?_⟩
  · cases B with
    | nil => exact ⟨fun _ => rfl, fun hne => absurd rfl hne, Nat.le_add_right 2 _⟩
    | cons b rest => exact ⟨nofun, fun _ => lzwCodes_length_ge hlo hhi hB, lzwCodes_length_le hlo hhi hB⟩
  · rw [emittedCodes_length]
    exact emissions_sym_length_le b s
  · rw [emittedCodes_length]
    exact emissions_finish_length_le s
  · cases exec_commandResult rfl h with
    | dropped hf => rw [hs] at hf; cases hf
    | refused => cases ht
    | opened _ hm => rw [emittedCodes_start_legal hs hm, List.length_singleton]
  · rw [← (h.active hs).dict_size, minDictLen, Nat.add_sub_cancel]

end Sys2Proof.Machine
end

section
/-! A run of one symbol (40_lzw_encoder.md rule R112): the walk matches one, two, three, ... copies in turn, and enters
the next longer run each time. -/

namespace Sys2Proof.Machine

open Sys2Proof.Batch (Walk walkSymbol)

variable {m b j r : Nat} {w : Walk}

/-- The code of `i + 1` copies of the symbol `b`, once it is entered. -/
def runCode (m b i : Nat) : Nat := if i = 0 then b else 2 ^ m + 2 + (i - 1)

@[simp] theorem runCode_zero (m b : Nat) : runCode m b 0 = b := rfl

@[simp] theorem runCode_succ (m b i : Nat) : runCode m b (i + 1) = 2 ^ m + 2 + i := rfl

theorem runCode_inj (hb : b < 2 ^ m) {i i' : Nat} (h : runCode m b i = runCode m b i') : i = i' := by
  cases i <;> cases i' <;> simp only [runCode_zero, runCode_succ] at h <;> omega

/-- The walk has emitted runs of `1` to `j` copies, entered those of `2` to `j + 1`, and matches `r + 1` copies. -/
structure RunWalk (m b j r : Nat) (w : Walk) : Prop where
  next : w.next = 2 ^ m + 2 + j
  cur : w.cur = runCode m b r
  codes : w.codes.map Prod.fst = 2 ^ m :: (List.range j).map (runCode m b)
  dict : ∀ i, w.dict.lookup (runCode m b i, b) = if i < j then some (runCode m b (i + 1)) else none

theorem runWalk_first (m b : Nat) : RunWalk m b 0 0 (Batch.walk m b []) :=
  ⟨rfl, rfl, rfl, fun _ => rfl⟩

/-- One copy more than a run already entered is a hit. -/
theorem RunWalk.hit (h : RunWalk m b j r w) (hr : r < j) : RunWalk m b j (r + 1) (walkSymbol m w b) := by
  have hlookup : w.dict.lookup (w.cur, b) = some (runCode m b (r + 1)) := by rw [h.cur, h.dict, if_pos hr]
  rw [walkSymbol_hit hlookup]
  exact ⟨h.next, rfl, h.codes, h.dict⟩

/-- One copy more than the longest run entered is a miss, which enters the next longer one. -/
theorem RunWalk.miss (h : RunWalk m b j j w) (hb : b < 2 ^ m) (hn : 2 ^ m + 2 + j < 4096) :
    RunWalk m b (j + 1) 0 (walkSymbol m w b) := by
  have hlookup : w.dict.lookup (w.cur, b) = none := by rw [h.cur, h.dict, if_neg (Nat.lt_irrefl j)]
  rw [walkSymbol_room hlookup (h.next ▸ hn)]
  refine ⟨?_, rfl, ?_, fun i => ?_⟩
  · rw [h.next, Nat.add_assoc]
  · rw [List.map_append, h.codes, List.range_succ, List.map_append, h.cur]
    rfl
  · rw [List.lookup_cons, h.cur, h.next, h.dict]
    by_cases hi : i = j
    · simp [hi]
    · have hne : ¬(runCode m b i, b) = (runCode m b j, b) := fun he => hi (runCode_inj hb (Prod.mk.inj he).1)
      rw [beq_eq_false_iff_ne.mpr hne]
      simp only [show i < j + 1 ↔ i < j by omega]

theorem walk_replicate_succ (m b n : Nat) :
    Batch.walk m b (List.replicate (n + 1) b) = walkSymbol m (Batch.walk m b (List.replicate n b)) b := by
  rw [Batch.walk, List.replicate_succ', List.foldl_append]
  rfl

/-- Runs of `1`, ..., `j` copies and `r + 1` copies more are `1 + n` copies, where `2n = j(j+1) + 2r`. -/
theorem runWalk_replicate (hb : b < 2 ^ m) (n : Nat) (hr : r ≤ j) (hn : 2 * n = j * (j + 1) + 2 * r)
    (hcap : 2 ^ m + 2 + j ≤ 4096) : RunWalk m b j r (Batch.walk m b (List.replicate n b)) := by
  induction n generalizing j r with
  | zero =>
    obtain rfl : r = 0 := by omega
    obtain rfl : j = 0 := by
      by_contra hj
      have hpos : 0 < j * (j + 1) := Nat.mul_pos (Nat.pos_of_ne_zero hj) (Nat.succ_pos j)
      omega
    exact runWalk_first m b
  | succ n ih =>
    rw [walk_replicate_succ]
    cases r with
    | succ r => exact (ih (by omega) (by omega) hcap).hit hr
    | zero =>
      cases j with
      | zero => omega
      | succ j =>
        have hsq : (j + 1) * (j + 1 + 1) = j * (j + 1) + 2 * j + 2 := by ring
        exact (ih (Nat.le_refl j) (by omega) (by omega)).miss hb (by omega)

/-- The codes of a run, Clear first and End last. -/
theorem RunWalk.lzwCodes {n : Nat} (h : RunWalk m b j r (Batch.walk m b (List.replicate n b))) :
    (Batch.lzwCodes (List.replicate (n + 1) b) m).map Prod.fst =
      2 ^ m :: (List.range j).map (runCode m b) ++ [runCode m b r] ++ [2 ^ m + 1] := by
  rw [List.replicate_succ, lzwCodes_cons, List.map_append, List.map_append, h.codes, List.map_singleton,
    List.map_singleton, h.cur]

theorem range_map_runCode (m b t : Nat) :
    (List.range (t + 1)).map (runCode m b) = b :: (List.range t).map (2 ^ m + 2 + ·) := by
  rw [List.range_succ_eq_map, List.map_cons, List.map_map]
  rfl

/-- Settles O57: after `t(t+1)/2 + r` copies the walk has emitted the runs up to `t - 1` copies and matches `t` copies,
for `r = 0`, or has emitted those up to `t` copies and matches `r` copies. -/
theorem runOfOneSymbol : Obligations.RunOfOneSymbol := by
  intro m b t r hlo hhi hb ht hr hcap
  have htriangle : 2 * (t * (t + 1) / 2) = t * (t + 1) := Nat.two_mul_div_two_of_even (Nat.even_mul_succ_self t)
  have hpow : 2 ^ m ≤ 2 ^ 8 := Nat.pow_le_pow_right (by decide) hhi
  obtain ⟨t, rfl⟩ : ∃ k, t = k + 1 := ⟨t - 1, by omega⟩
  have hsq : (t + 1) * (t + 1 + 1) = t * (t + 1) + 2 * t + 2 := by ring
  obtain ⟨n, hn⟩ : ∃ n, (t + 1) * (t + 1 + 1) / 2 + r = n + 1 := ⟨(t + 1) * (t + 1 + 1) / 2 + r - 1, by omega⟩
  rw [hn, Nat.add_sub_cancel, ← range_map_runCode]
  cases r with
  | zero =>
    have h : RunWalk m b t t _ := runWalk_replicate hb n (Nat.le_refl t) (by omega) (by omega)
    rw [h.lzwCodes, List.range_succ, List.map_append]
    simp
  | succ r =>
    have h : RunWalk m b (t + 1) r _ := runWalk_replicate hb n (by omega) (by omega) (by omega)
    rw [h.lzwCodes]
    cases r with
    | zero => rfl
    | succ r => rfl

end Sys2Proof.Machine
end

section
/-! `PackBits` as one number (41_bitpacker.md rule R138): the loop keeps the complete bytes of the sum of the shifted
codes, least significant first, and the bits above them in `acc`. -/

namespace Sys2Proof.Machine

open Sys2Proof.Batch (Pack)

variable {T V : Nat}

/-! ### The low bytes of a number -/

@[simp] theorem lowBytes_length (n v : Nat) : (lowBytes n v).length = n := by simp [lowBytes]

theorem lowBytes_add (n k v : Nat) : lowBytes (n + k) v = lowBytes n v ++ lowBytes k (v >>> (8 * n)) := by
  induction n generalizing v with
  | zero => simp [lowBytes]
  | succ n ih =>
    rw [Nat.succ_add, lowBytes_succ, lowBytes_succ, ih, ← Nat.shiftRight_add, List.cons_append, Nat.mul_succ,
      Nat.add_comm 8]

/-- What stands above the low bytes does not change them. -/
theorem lowBytes_add_mul (n v x : Nat) : lowBytes n (v + x * 2 ^ (8 * n)) = lowBytes n v := by
  induction n generalizing v with
  | zero => rfl
  | succ n ih =>
    have hpow : x * 2 ^ (8 * (n + 1)) = x * 2 ^ (8 * n) * 2 ^ 8 := by rw [Nat.mul_assoc, ← Nat.pow_add, Nat.mul_succ]
    have hlow : BitVec.ofNat 8 (v + x * 2 ^ (8 * n) * 2 ^ 8) = BitVec.ofNat 8 v :=
      BitVec.eq_of_toNat_eq (by simp)
    have hhigh : (v + x * 2 ^ (8 * n) * 2 ^ 8) >>> 8 = v >>> 8 + x * 2 ^ (8 * n) := by
      rw [Nat.shiftRight_eq_div_pow, Nat.shiftRight_eq_div_pow, Nat.add_mul_div_right _ _ (Nat.two_pow_pos 8)]
    rw [hpow, lowBytes_succ, lowBytes_succ, hlow, hhigh, ih]

/-! ### The loop -/

/-- The inner loop of rule R138 takes whole bytes off the low end of `acc`. -/
theorem takeBytes_eq (k : Nat) (p : Pack) :
    Pack.takeBytes k p =
      { acc := p.acc >>> (8 * k), n := p.n - 8 * k, bytes := p.bytes ++ lowBytes k p.acc } := by
  induction k generalizing p with
  | zero => simp [Pack.takeBytes, lowBytes]
  | succ k ih =>
    rw [Pack.takeBytes, ih, lowBytes_succ, ← Nat.shiftRight_add, Nat.sub_sub, List.append_assoc,
      List.singleton_append, Nat.mul_succ, Nat.add_comm 8]

/-- One turn of the outer loop: the complete bytes go, the rest stays. -/
theorem addCode_eq (p : Pack) (c w : Nat) :
    p.addCode (c, w) =
      { acc := (p.acc ||| c <<< p.n) >>> (8 * ((p.n + w) / 8))
        n := (p.n + w) % 8
        bytes := p.bytes ++ lowBytes ((p.n + w) / 8) (p.acc ||| c <<< p.n) } := by
  have hrest : p.n + w - 8 * ((p.n + w) / 8) = (p.n + w) % 8 := by omega
  rw [Pack.addCode, takeBytes_eq, ← hrest]

/-- The loop's variables once `T` bits of value `V` are packed. -/
def packOf (T V : Nat) : Pack := { acc := V >>> (8 * (T / 8)), n := T % 8, bytes := lowBytes (T / 8) V }

/-- The bits of a code stand above those packed before it. -/
theorem packOf_addCode (hV : V < 2 ^ T) (c w : Nat) :
    (packOf T V).addCode (c, w) = packOf (T + w) (V + c * 2 ^ T) := by
  obtain ⟨q, r, hr, rfl⟩ : ∃ q r, r < 8 ∧ T = 8 * q + r := ⟨T / 8, T % 8, by omega, by omega⟩
  have hdiv : (8 * q + r) / 8 = q := by omega
  have hmod : (8 * q + r) % 8 = r := by omega
  have hdiv' : (8 * q + r + w) / 8 = q + (r + w) / 8 := by omega
  have hmod' : (8 * q + r + w) % 8 = (r + w) % 8 := by omega
  have hpow : c * 2 ^ (8 * q + r) = c * 2 ^ r * 2 ^ (8 * q) := by rw [Nat.pow_add, Nat.mul_assoc, Nat.mul_comm (2 ^ r)]
  have hlt : V >>> (8 * q) < 2 ^ r := by
    rwa [Nat.shiftRight_eq_div_pow, Nat.div_lt_iff_lt_mul (Nat.two_pow_pos _), ← Nat.pow_add, Nat.add_comm r]
  have hacc : V >>> (8 * q) ||| c <<< r = (V + c * 2 ^ r * 2 ^ (8 * q)) >>> (8 * q) := by
    rw [Nat.or_comm, ← Nat.shiftLeft_add_eq_or_of_lt hlt, Nat.shiftLeft_eq, Nat.shiftRight_eq_div_pow,
      Nat.shiftRight_eq_div_pow, Nat.add_mul_div_right _ _ (Nat.two_pow_pos _), Nat.add_comm]
  rw [addCode_eq]
  simp only [packOf, hdiv, hmod, hdiv', hmod', hpow, hacc, lowBytes_add, lowBytes_add_mul, ← Nat.shiftRight_add,
    Nat.mul_add]

/-- `V` of rule R138: the sum of the codes, each shifted by the widths before it. -/
def packedSum (S : List (Nat × Nat)) : Nat := S.foldr (fun cw v => cw.1 + v * 2 ^ cw.2) 0

theorem foldl_addCode_packOf {S : List (Nat × Nat)} (hS : ∀ cw ∈ S, cw.1 < 2 ^ cw.2) (hV : V < 2 ^ T) :
    S.foldl Pack.addCode (packOf T V) = packOf (T + (S.map Prod.snd).sum) (V + packedSum S * 2 ^ T) := by
  induction S generalizing T V with
  | nil => simp [packedSum]
  | cons cw S ih =>
    obtain ⟨hcw, hS⟩ := List.forall_mem_cons.mp hS
    have hlt : V + cw.1 * 2 ^ T < 2 ^ (T + cw.2) :=
      calc V + cw.1 * 2 ^ T < (cw.1 + 1) * 2 ^ T := by rw [Nat.succ_mul]; omega
        _ ≤ 2 ^ cw.2 * 2 ^ T := Nat.mul_le_mul_right _ hcw
        _ = 2 ^ (T + cw.2) := by rw [← Nat.pow_add, Nat.add_comm]
    have hsum : V + cw.1 * 2 ^ T + packedSum S * 2 ^ (T + cw.2) = V + packedSum (cw :: S) * 2 ^ T := by
      simp only [packedSum, List.foldr_cons]
      ring
    rw [List.foldl_cons, packOf_addCode hV, ih hS hlt, hsum, List.map_cons, List.sum_cons, Nat.add_assoc]

/-- What follows the loop of rule R138: the last bits as one more byte, if there are any. -/
def closedBytes (p : Pack) : List Byte := if p.n > 0 then p.bytes ++ [BitVec.ofNat 8 p.acc] else p.bytes

theorem packBits_eq (S : List (Nat × Nat)) :
    Batch.packBits S = closedBytes (S.foldl Pack.addCode { acc := 0, n := 0, bytes := [] }) := rfl

theorem closedBytes_packOf (T V : Nat) : closedBytes (packOf T V) = lowBytes ((T + 7) / 8) V := by
  unfold closedBytes packOf
  split
  next hn =>
    have hceil : (T + 7) / 8 = T / 8 + 1 := by dsimp only at hn; omega
    rw [hceil, lowBytes_add]
    rfl
  next hn =>
    have hceil : (T + 7) / 8 = T / 8 := by dsimp only at hn; omega
    rw [hceil]

/-- Settles O52: the loop, from no bits at all, and the last byte. -/
theorem packBitsIsLittleEndian : Obligations.PackBitsIsLittleEndian := by
  intro S hS
  have hloop := foldl_addCode_packOf hS (Nat.two_pow_pos 0)
  rw [Nat.zero_add, Nat.zero_add, Nat.pow_zero, Nat.mul_one] at hloop
  exact (congrArg closedBytes hloop).trans (closedBytes_packOf _ _)

end Sys2Proof.Machine
end

section
/-! `Blockify` (41_bitpacker.md rule R139): its loop, its blocks one after another, and its length. -/

namespace Sys2Proof.Machine

open Sys2Proof.Batch (blocks blockify)

/-- Bytes as one sub-block, none if there are no bytes (rules R132, R139). -/
def subBlock (X : List Byte) : List Byte := if X = [] then [] else BitVec.ofNat 8 X.length :: X

theorem blocks_zero (X : List Byte) : blocks 0 X = subBlock X := by
  simp [blocks, subBlock, List.length_pos_iff]

/-- A full block is the sub-block of its 255 bytes. -/
theorem blocks_one {X : List Byte} (h : X.length = 255) : blocks 1 X = subBlock X := by
  have hne : X ≠ [] := List.ne_nil_of_length_eq_add_one h
  rw [blocks, subBlock, if_neg hne, List.take_of_length_le h.le, List.drop_of_length_le h.le, h]
  exact congrArg _ (List.append_nil X)

/-- After as many full blocks as `X` has come the blocks of the rest. -/
theorem blocks_append {q : Nat} {X : List Byte} (h : X.length = 255 * q) (r : Nat) (Y : List Byte) :
    blocks (q + r) (X ++ Y) = blocks q X ++ blocks r Y := by
  induction q generalizing X with
  | zero =>
    obtain rfl := List.length_eq_zero_iff.mp h
    simp [blocks]
  | succ q ih =>
    have hdrop : (X.drop 255).length = 255 * q := by rw [List.length_drop]; omega
    have hle : 255 ≤ X.length := by omega
    rw [Nat.succ_add, blocks, blocks, List.take_append_of_le_length hle, List.drop_append_of_le_length hle, ih hdrop,
      List.cons_append, List.append_assoc]

/-- `Blockify` with at most a full block left after `q` full ones. -/
theorem blockify_append {q : Nat} {X Y : List Byte} (hX : X.length = 255 * q) (hY : Y.length ≤ 255) :
    blockify (X ++ Y) = blocks q X ++ subBlock Y ++ [0x00] := by
  rw [blockify, List.length_append, hX]
  obtain hlt | hY := Nat.lt_or_eq_of_le hY
  · rw [show (255 * q + Y.length) / Config.blk = q + 0 by unfold Config.blk; omega, blocks_append hX, blocks_zero]
  · rw [show (255 * q + Y.length) / Config.blk = q + 1 by unfold Config.blk; omega, blocks_append hX, blocks_one hY]

theorem blockify_short {X : List Byte} (h : X.length ≤ 255) : blockify X = subBlock X ++ [0x00] :=
  blockify_append (q := 0) (X := []) rfl h

/-- One turn of the loop of rule R139. -/
theorem blockify_long {X : List Byte} (h : 255 ≤ X.length) :
    blockify X = 255#8 :: X.take 255 ++ blockify (X.drop 255) := by
  have hq : X.length / Config.blk = (X.drop 255).length / Config.blk + 1 := by
    rw [List.length_drop]
    unfold Config.blk
    omega
  rw [blockify, hq, blocks, blockify]
  simp only [List.cons_append, List.append_assoc]

theorem subBlock_length (X : List Byte) : (subBlock X).length = X.length + if X = [] then 0 else 1 := by
  unfold subBlock
  split
  next h => simp [h]
  next => rfl

/-- Rule R139: a length byte for each block begun, and the terminator. -/
theorem blockify_length (X : List Byte) : (blockify X).length = X.length + (X.length + 254) / 255 + 1 := by
  obtain ⟨n, hn⟩ : ∃ n, X.length = n := ⟨_, rfl⟩
  induction n using Nat.strongRecOn generalizing X with
  | ind n ih =>
    by_cases h : 255 ≤ X.length
    · have hdrop : (X.drop 255).length = n - 255 := by rw [List.length_drop, hn]
      rw [blockify_long h, List.length_append, List.length_cons, List.length_take, ih (n - 255) (by omega) _ hdrop,
        hdrop]
      omega
    · rw [blockify_short (by omega), List.length_append, List.length_singleton, subBlock_length]
      cases X with
      | nil => rfl
      | cons b X =>
        simp only [List.length_cons, reduceCtorEq, if_false] at h ⊢
        omega

/-- Settles O51: a full block and the loop again, or the last block, or none. -/
theorem blockifyShape : Obligations.BlockifyShape := by
  refine ⟨rfl, fun X => ⟨?_, blockify_length X⟩⟩
  split
  next h => exact blockify_long h
  next h =>
    rw [blockify_short (by omega), subBlock]
    cases X <;> rfl

end Sys2Proof.Machine
end

section
/-! The three packer tokens (41_bitpacker.md rules R130 to R132): their meanings, and what they leave alone. -/

namespace Sys2Proof.Machine

variable {s : State}

/-! ### PINIT -/

/-- Settles O22: `PINIT`'s word is `START`'s, and its writes are those of `pInit`. -/
theorem pinitMeaning : Obligations.PinitMeaning := fun m _ =>
  ⟨(congrArg decodeToken (encode_start_eq_or m)).trans (decodeOfEncode (.pinit m)), rfl⟩

/-! ### PUT -/

/-- `pk_next` as the width is taken (rule R131): only a match code that is not the first after a Clear counts. -/
theorem moveSchedule_pk_next (c : Code) (s : State) :
    (moveSchedule c s).pk_next =
      if isMatchCode s.mcs c ∧ s.pk_first = false ∧ s.pk_next.toNat < 4096 then s.pk_next + 1 else s.pk_next := by
  by_cases hc : isMatchCode s.mcs c = true
  · cases hf : s.pk_first with
    | true => simp [moveSchedule, hc, hf]
    | false => by_cases hn : s.pk_next.toNat < 4096 <;> simp [moveSchedule, hc, hf, Config.cap, hn]
  · rw [moveSchedule_reserved (Bool.eq_false_of_not_eq_true hc), if_neg fun h => hc h.1]

/-- Neither reserved code (rule R131), as one test. -/
theorem isMatchCode_eq_decide (m : MinCodeSize) (c : Code) :
    isMatchCode m c = decide (c ≠ clearCode m ∧ c ≠ endCode m) :=
  Bool.eq_iff_iff.mpr (by simp [isMatchCode])

theorem scheduleAfter_fst (c : Code) (s : State) :
    (scheduleAfter c s).1 = if c = clearCode s.mcs then firstCode s.mcs else (moveSchedule c s).pk_next := by
  unfold scheduleAfter
  split <;> rfl

theorem scheduleAfter_snd (c : Code) (s : State) :
    (scheduleAfter c s).2 =
      if c = clearCode s.mcs then true else if isMatchCode s.mcs c then false else s.pk_first := by
  rw [← moveSchedule_pk_first, scheduleAfter]
  split <;> rfl

/-- Settles O23: the equation of `PUT`, with the moved schedule written out. -/
theorem putMeaning : Obligations.PutMeaning := by
  intro c s hn clear isMatch pn pf w n v
  have hmatch : isMatchCode s.mcs c = isMatch := isMatchCode_eq_decide s.mcs c
  have hpn : (moveSchedule c s).pk_next = pn := by rw [moveSchedule_pk_next, hmatch]
  have hbits : packedBits c s = n := by rw [packedBits, packerWidth, hpn]
  have hnext : (scheduleAfter c s).1 = if c = clear then firstCode s.mcs else pn := by
    rw [scheduleAfter_fst, hpn]
    rfl
  have hfirst : (scheduleAfter c s).2 = if c = clear then true else pf := by
    rw [scheduleAfter_snd, hmatch]
    rfl
  refine ⟨decodeOfEncode (.put c), (exec_put c s).trans (congrArg _ ?_)⟩
  rw [putCode_eq c hn, hbits, hnext, hfirst]
  rfl

/-! ### PFLUSH -/

/-- The buffer as `PFLUSH` outputs it: one sub-block, if there are any bytes (rules R132, R134). -/
theorem dataTokens_buffer (h : BufferOk s) :
    (if s.blen.toNat > 0 then dataTokens (s.blen :: s.blk) else []) = dataTokens (subBlock s.blk) := by
  unfold subBlock
  have hlen : BitVec.ofNat 8 s.blk.length = s.blen := by rw [h.blk_len, BitVec.ofNat_toNat, BitVec.setWidth_eq]
  have hnil : s.blk = [] ↔ ¬s.blen.toNat > 0 := by rw [← h.blk_len, ← List.length_eq_zero_iff]; omega
  by_cases hpos : s.blen.toNat > 0
  · rw [if_pos hpos, if_neg (hnil.not.mpr (not_not.mpr hpos)), hlen]
  · rw [if_neg hpos, if_pos (hnil.mpr hpos)]
    rfl

/-- What `PFLUSH` has still to output as data: the waiting bytes, and the last bits padded to a byte (rule R132). -/
def restBytes (s : State) : List Byte := s.blk ++ if s.nbits.toNat > 0 then [BitVec.ofNat 8 s.acc.toNat] else []

/-- The rest goes out as one sub-block, whether the pad byte fills the buffer or not (rule R132 (b)). -/
theorem padded_out_buffer (h : BufferOk s) :
    (padded s).out ++ (if (padded s).blen.toNat > 0 then dataTokens ((padded s).blen :: (padded s).blk) else []) =
      s.out ++ dataTokens (subBlock (restBytes s)) := by
  rw [dataTokens_buffer (padded_ok h), restBytes, padded]
  split
  · have hbyte : s.acc.setWidth 8 = BitVec.ofNat 8 s.acc.toNat := BitVec.eq_of_toNat_eq (by simp)
    rw [hbyte]
    obtain ⟨-, he⟩ | ⟨hfull, he⟩ := pushByte_cases h (BitVec.ofNat 8 s.acc.toNat)
    · rw [he]
    · have hlen : (s.blk ++ [BitVec.ofNat 8 s.acc.toNat]).length = 255 := by
        rw [List.length_append, h.blk_len, hfull, List.length_singleton]
      rw [he, subBlock, subBlock, if_pos rfl, if_neg (by simp), hlen]
      exact List.append_nil _
  · rw [List.append_nil]

/-- The pad touches the buffer, its length and the output only. -/
theorem padded_frame (s : State) :
    padded s = { s with blen := (padded s).blen, blk := (padded s).blk, out := (padded s).out } := by
  unfold padded pushByte flushFull
  split
  · split <;> rfl
  · rfl

/-- `PFlush()` from a state between commands (rule R132). -/
theorem pFlush_eq_restBytes (h : PackerOk s) :
    pFlush s = { s with
      acc := 0, nbits := 0, pk_next := 0, pk_first := false, blen := 0, blk := []
      out := s.out ++ dataTokens (subBlock (restBytes s)) ++ [⟨0x00, true⟩] } := by
  rw [pFlush_eq h, padded_out_buffer h.toBufferOk, padded_frame s]

/-- Settles O24: the equation of `PFLUSH`. -/
theorem pflushMeaning : Obligations.PflushMeaning := fun _ hn ha hl hk =>
  ⟨rfl, congrArg _ (pFlush_eq_restBytes ⟨⟨hl, hk⟩, hn, ha⟩)⟩

/-! ### The frame of the tokens -/

theorem pInit_encoder (m : MinCodeSize) (s : State) : (pInit m s).encoder = s.encoder := rfl

/-- Settles O30: the encoder's part, the dictionary in it, is no token's to write, and each extends the output. -/
theorem tokenFrame : Obligations.TokenFrame := by
  intro i s t hf h
  have hframe : t.encoder = s.encoder ∧ s.out <+: t.out := by
    cases i with
    | start => cases hf
    | sym => cases hf
    | finish => cases hf
    | abort => cases hf
    | pinit m => exact next_unique (u := pInit m s) rfl h ▸ ⟨pInit_encoder m s, List.prefix_rfl⟩
    | put c => exact next_unique (exec_put c s) h ▸ ⟨putCode_encoder s c, putCode_out_grows c s⟩
    | pflush => exact next_unique (exec_pflush s) h ▸ ⟨pFlush_encoder s, pFlush_out_grows s⟩
  obtain ⟨hencoder, hout⟩ := hframe
  have hdict : t.dict = s.dict := congrArg EncoderPart.dict hencoder
  exact ⟨hencoder, fun p a => by rw [dictLookup, hdict, dictLookup], hout.imp fun _ => Eq.symm⟩

end Sys2Proof.Machine
end

section
/-! The packer's schedule tracks the encoder's (41_bitpacker.md rule R137): each code meets the packer with `pk_next`,
once moved, equal to `next`. -/

namespace Sys2Proof.Machine

variable {s : State} {c : Code} {i : Instr}

/-- The packer takes the width of `c` from the count the encoder has, which is above `c` (rules R78, R137). -/
structure TakenAtNext (c : Code) (s : State) : Prop where
  pk_next : (moveSchedule c s).pk_next = s.next
  lt_next : c.toNat < s.next.toNat
  next_high : s.next.toNat ≤ 4096

theorem TakenAtNext.packerWidth_eq (h : TakenAtNext c s) : packerWidth c s = codeWidth s.next.toNat :=
  congrArg (fun n : CodeCount => codeWidth n.toNat) h.pk_next

theorem TakenAtNext.fits (h : TakenAtNext c s) : c.toNat < 2 ^ codeWidth s.next.toNat :=
  h.lt_next.trans_le (le_two_pow_codeWidth h.next_high)

/-- The Clear of a `START` (rule R104). -/
theorem beforeClear_takenAtNext {m : MinCodeSize} (hm : legalMcs m = true) (s : State) :
    TakenAtNext (clearCode m) (beforeClear m s) := by
  obtain ⟨-, hmax, hclear, -, hfirst, -⟩ := frame_constants m hm
  have hnext : (beforeClear m s).next.toNat = minDictLen m + 2 := hfirst
  refine ⟨?_, by omega, by omega⟩
  rw [moveSchedule_reserved (isMatchCode_clear m)]
  rfl

theorem FrameOpen.match_takenAtNext (h : FrameOpen s) (hh : s.have_ = true) : TakenAtNext s.cur s :=
  ⟨h.moveSchedule_match_pk_next hh, (h.match_code hh).1, h.next_high⟩

/-- A reserved code after the match finds the count the match was taken at (rule R131 (a)). -/
theorem FrameOpen.reserved_takenAtNext (h : FrameOpen s) (hc : isMatchCode s.mcs c = false)
    (hlt : c.toNat < minDictLen s.mcs + 2) : TakenAtNext c (emitMatch s) := by
  have hlow := h.next_low
  refine ⟨?_, ?_, ?_⟩
  · rw [moveSchedule_reserved (by rwa [emitMatch_mcs]), h.emitMatch_packer.2, emitMatch_next]
  · rw [emitMatch_next]
    omega
  · rw [emitMatch_next]
    exact h.next_high

theorem FrameOpen.end_takenAtNext (h : FrameOpen s) : TakenAtNext (endCode s.mcs) (emitMatch s) := by
  obtain ⟨-, -, -, hend, -, -⟩ := frame_constants s.mcs h.mcs_legal
  exact h.reserved_takenAtNext (isMatchCode_end s.mcs) (by omega)

theorem FrameOpen.clear_takenAtNext (h : FrameOpen s) : TakenAtNext (clearCode s.mcs) (emitMatch s) := by
  obtain ⟨-, -, hclear, -, -, -⟩ := frame_constants s.mcs h.mcs_legal
  exact h.reserved_takenAtNext (isMatchCode_clear s.mcs) (by omega)

theorem emitMatch_of_have (hh : s.have_ = true) : emitMatch s = emit s.cur s := if_pos hh

/-- The calls of `Emit` (rule R100): a `START`'s Clear, the current match, and after it Clear or End. -/
inductive Emission (s : State) : Instr → Code × State → Prop
  | opening {m : MinCodeSize} (hm : legalMcs m = true) : Emission s (.start m) (clearCode m, beforeClear m s)
  | current {i : Instr} (hs : s.mode = .active) (hh : s.have_ = true) : Emission s i (s.cur, s)
  | clear {b : Symbol} (hs : s.mode = .active) : Emission s (.sym b) (clearCode s.mcs, emitMatch s)
  | ending (hs : s.mode = .active) : Emission s .finish (endCode s.mcs, emitMatch s)

theorem emission_of_mem {e : Code × State} (he : e ∈ emissions i s) : Emission s i e := by
  unfold emissions at he
  split at he
  next m hs =>
    split at he
    next hm => exact List.mem_singleton.mp he ▸ .opening hm
    next => cases he
  next b hs =>
    split at he
    next hmiss =>
      simp only [Bool.and_eq_true] at hmiss
      obtain ⟨⟨-, hh⟩, -⟩ := hmiss
      split at he
      next => exact List.mem_singleton.mp he ▸ .current hs hh
      next =>
        rw [← emitMatch_of_have hh] at he
        obtain rfl | he := List.mem_cons.mp he
        · exact .current hs hh
        · exact List.mem_singleton.mp he ▸ .clear hs
    next => cases he
  next hs =>
    obtain he | he := List.mem_append.mp he
    · split at he
      next hh => exact List.mem_singleton.mp he ▸ .current hs hh
      next => cases he
    · exact List.mem_singleton.mp he ▸ .ending hs
  next => cases he

theorem Emission.takenAtNext {e : Code × State} (he : Emission s i e) (h : BlockInvariant s) :
    TakenAtNext e.1 e.2 := by
  cases he with
  | opening hm => exact beforeClear_takenAtNext hm s
  | current hs hh => exact (h.active hs).match_takenAtNext hh
  | clear hs => exact (h.active hs).clear_takenAtNext
  | ending hs => exact (h.active hs).end_takenAtNext

/-- Settles O36: by the kinds of code a command emits. -/
theorem packerTracksEncoder : Obligations.PackerTracksEncoder := by
  intro i s hi e he
  have h := (emission_of_mem he).takenAtNext hi
  exact ⟨h.pk_next, h.packerWidth_eq, h.fits⟩

end Sys2Proof.Machine
end

section
/-! The packer computes the batch functions (41_bitpacker.md rule R140): it holds at every moment what `PackBits` has in
its variables, the whole blocks of the bytes already in `out`; `PFLUSH` outputs the rest. -/

namespace Sys2Proof.Machine

open Sys2Proof.Batch (Pack blocks blockify)

variable {s : State} {o : List OutToken} {X : List Byte} {p : Pack} {c : Code}

theorem dataTokens_append (X Y : List Byte) : dataTokens (X ++ Y) = dataTokens X ++ dataTokens Y := List.map_append

/-- A frame's bytes end with the terminator, which alone carries `last` (rule R77). -/
theorem frameTokens_append_singleton (X : List Byte) (b : Byte) :
    frameTokens (X ++ [b]) = dataTokens X ++ [⟨b, true⟩] := by
  simp [frameTokens]

/-! ### The block buffer -/

/-- Of the bytes `X` pushed since the output was `o`, the whole blocks of 255 are in `out`, the others in `blk` (rules
R133, R164 I11). -/
def Buffered (o : List OutToken) (X : List Byte) (s : State) : Prop :=
  ∃ q full, full.length = 255 * q ∧ X = full ++ s.blk ∧ s.out = o ++ dataTokens (blocks q full)

/-- A buffer holds its bytes, none of them output. -/
theorem buffered_self (s : State) : Buffered s.out s.blk s :=
  ⟨0, [], rfl, rfl, (List.append_nil _).symm⟩

/-- `PushByte` is the loop body of `Blockify`, run as the byte arrives (rule R140). -/
theorem Buffered.pushByte (h : Buffered o X s) (hok : BufferOk s) (b : Byte) :
    Buffered o (X ++ [b]) (pushByte b s) := by
  obtain ⟨q, full, hfull, rfl, hout⟩ := h
  obtain ⟨-, he⟩ | ⟨h254, he⟩ := pushByte_cases hok b
  · rw [he]
    exact ⟨q, full, hfull, List.append_assoc _ _ _, hout⟩
  · have hblk : (s.blk ++ [b]).length = 255 := by rw [List.length_append, hok.blk_len, h254, List.length_singleton]
    have hlast : subBlock (s.blk ++ [b]) = 255 :: (s.blk ++ [b]) := by
      rw [subBlock, if_neg (by simp), hblk]
      rfl
    rw [he]
    refine ⟨q + 1, full ++ (s.blk ++ [b]), ?_, ?_, ?_⟩
    · rw [List.length_append, hfull, hblk, Nat.mul_succ]
    · simp only [List.append_assoc, List.append_nil]
    · rw [blocks_append hfull, blocks_one hblk, hlast, dataTokens_append, hout, List.append_assoc]

theorem Buffered.pushBytes (h : Buffered o X s) (hok : BufferOk s) (bs : List Byte) :
    Buffered o (X ++ bs) (pushBytes bs s) := by
  induction bs generalizing X s with
  | nil => rwa [List.append_nil, pushBytes_nil]
  | cons b bs ih =>
    rw [pushBytes_cons, ← List.singleton_append, ← List.append_assoc]
    exact ih (h.pushByte hok b) (pushByte_ok hok b)

/-! ### The packer -/

/-- The packer holds the variables of the loop of rule R138 (rules R140, R164 I10). -/
structure PackerHolds (o : List OutToken) (p : Pack) (s : State) : Prop where
  ok : PackerOk s
  acc : s.acc.toNat = p.acc
  nbits : s.nbits.toNat = p.n
  buffer : Buffered o p.bytes s

/-- A packer between commands holds its own bits and bytes. -/
theorem PackerOk.packerHolds (h : PackerOk s) : PackerHolds s.out ⟨s.acc.toNat, s.nbits.toNat, s.blk⟩ s :=
  ⟨h, rfl, rfl, buffered_self s⟩

theorem pInit_packerHolds (m : MinCodeSize) (s : State) : PackerHolds s.out ⟨0, 0, []⟩ (pInit m s) :=
  PackerOk.packerHolds (s := pInit m s) ⟨⟨Nat.zero_le _, rfl⟩, Nat.zero_le _, Nat.one_pos⟩

/-- `Put` is the loop body of `PackBits` (rule R140). -/
theorem PackerHolds.putCode (h : PackerHolds o p s) (hc : c.toNat < 2 ^ packerWidth c s) :
    PackerHolds o (p.addCode (c.toNat, packerWidth c s)) (putCode c s) := by
  have hn := h.ok.nbits_low
  have hbuffer := h.buffer.pushBytes h.ok.toBufferOk (lowBytes (packedBits c s / 8) (packedValue c s))
  refine ⟨putCode_packerOk h.ok hc, ?_, ?_, ?_⟩ <;> rw [putCode_eq c hn, addCode_eq, ← h.acc, ← h.nbits]
  · show (BitVec.ofNat 19 _).toNat = packedValue c s >>> (8 * (packedBits c s / 8))
    rw [BitVec.toNat_ofNat, Nat.mod_eq_of_lt ((Nat.shiftRight_le _ _).trans_lt (packedValue_lt hn))]
  · show (BitVec.ofNat 5 (packedBits c s % 8)).toNat = packedBits c s % 8
    rw [BitVec.toNat_ofNat]
    omega
  · exact hbuffer

/-- `PUT c_1; PUT c_2; ...` (rule R140). -/
def putCodes (cs : List Code) (s : State) : State := cs.foldl (fun st c => putCode c st) s

theorem execAll_puts (cs : List Code) (js : List Instr) (s : State) :
    execAll (cs.map .put ++ js) s = execAll js (putCodes cs s) := by
  induction cs generalizing s with
  | nil => rfl
  | cons c cs ih => exact (execAll_cons _ (exec_put c s)).trans (ih (putCode c s))

theorem PackerHolds.putCodes {cs : List Code} (h : PackerHolds o p s)
    (hcs : ∀ cw ∈ packerCodes cs s, cw.1 < 2 ^ cw.2) :
    PackerHolds o ((packerCodes cs s).foldl Pack.addCode p) (putCodes cs s) := by
  induction cs generalizing p s with
  | nil => exact h
  | cons c cs ih =>
    obtain ⟨hc, hcs⟩ := List.forall_mem_cons.mp hcs
    exact ih (h.putCode hc) hcs

/-- `PFLUSH` outputs what is missing of the blocks of all bytes, the last bits padded (rules R132, R140). -/
theorem PackerHolds.pFlush_out (h : PackerHolds o p s) :
    (pFlush s).out = o ++ frameTokens (blockify (closedBytes p)) := by
  obtain ⟨hok, hacc, hn, q, full, hfull, hbytes, hout⟩ := h
  have hrest : (restBytes s).length ≤ 255 := by
    have hlow := hok.blen_low
    rw [restBytes, List.length_append, hok.blk_len]
    split
    · rw [List.length_singleton]
      omega
    · rw [List.length_nil]
      omega
  have hclosed : closedBytes p = full ++ restBytes s := by
    rw [restBytes, hacc, hn, ← List.append_assoc, ← hbytes, closedBytes]
    split
    · rfl
    · exact (List.append_nil _).symm
  rw [pFlush_eq_restBytes hok, hclosed, blockify_append hfull hrest, frameTokens_append_singleton, dataTokens_append,
    hout]
  simp only [List.append_assoc]

/-- Settles O44: `PINIT` starts the loop of `PackBits`, each `PUT` is a turn of it, `PFLUSH` ends both functions. -/
theorem packerComputesBatchFunctions : Obligations.PackerComputesBatchFunctions := by
  intro m cs s _ _ _ S hS
  refine ⟨pFlush (putCodes cs (pInit m s)), ?_, ((pInit_packerHolds m s).putCodes hS).pFlush_out⟩
  rw [List.cons_append, execAll_cons (t := pInit m s) _ rfl, execAll_puts, execAll_cons _ (exec_pflush _), execAll]

end Sys2Proof.Machine
end

section
/-! What each command outputs (41_bitpacker.md rule R142, 42_composition.md rule R162), by the number of bits and bytes
its codes come to. -/

namespace Sys2Proof.Machine

open Sys2Proof.Batch (Pack blocks blockify)

variable {s t : State} {o : List OutToken} {p : Pack} {c : Code}

/-! ### Counts of bits and bytes -/

/-- The bits packed: those of the complete bytes and those that wait (rule R138). -/
def packedLength (p : Pack) : Nat := 8 * p.bytes.length + p.n

theorem addCode_packedLength (p : Pack) (c w : Nat) : packedLength (p.addCode (c, w)) = packedLength p + w := by
  rw [addCode_eq, packedLength, packedLength, List.length_append, lowBytes_length]
  dsimp only
  omega

theorem closedBytes_length (hn : p.n ≤ 7) : (closedBytes p).length = (packedLength p + 7) / 8 := by
  unfold closedBytes packedLength
  split
  · rw [List.length_append, List.length_singleton]
    omega
  · omega

theorem PackerHolds.n_le (h : PackerHolds o p s) : p.n ≤ 7 := h.nbits ▸ h.ok.nbits_low

theorem PackerHolds.closedBytes_length (h : PackerHolds o p s) :
    (closedBytes p).length = (packedLength p + 7) / 8 := Machine.closedBytes_length h.n_le

/-! ### SYM -/

/-- Few bytes pushed output at most the one block they fill (rule R133). -/
theorem pushBytes_out (h : BufferOk s) {bs : List Byte} (hbs : bs.length ≤ 3) :
    (pushBytes bs s).out = s.out ∨
      ∃ payload : List Byte, payload.length = 255 ∧ (pushBytes bs s).out = s.out ++ dataTokens (255 :: payload) := by
  obtain ⟨q, full, hfull, hX, hout⟩ := (buffered_self s).pushBytes h bs
  have hlen := congrArg List.length hX
  have hlow := h.blen_low
  rw [List.length_append, List.length_append, h.blk_len, hfull] at hlen
  obtain rfl | rfl : q = 0 ∨ q = 1 := by omega
  · obtain rfl := List.length_eq_zero_iff.mp hfull
    exact .inl (hout.trans (List.append_nil _))
  · refine .inr ⟨full, hfull, ?_⟩
    rw [hout, blocks_one hfull, subBlock, if_neg (List.ne_nil_of_length_eq_add_one hfull), hfull]
    rfl

theorem CommandResult.sym_out {b : Symbol} (r : CommandResult s (.sym b) t) (h : BlockInvariant s) :
    t.out = s.out ∨ ∃ payload : List Byte, payload.length = 255 ∧ t.out = s.out ++ dataTokens (255 :: payload) := by
  cases r with
  | dropped => exact .inl rfl
  | refused => exact .inl rfl
  | consumed hs =>
    have hok := (h.active hs).packerOk
    obtain ⟨bs, hbs, hp⟩ := consumeSymbol_pushedTo b hok.nbits_low
    rw [hp.out]
    exact pushBytes_out hok.toBufferOk hbs

/-! ### START and FINISH -/

theorem CommandResult.start_out {m : MinCodeSize} (r : CommandResult s (.start m) t) : t.out = s.out := by
  cases r with
  | dropped => rfl
  | refused => rfl
  | opened hs hm => rw [openFrame_eq hm]

/-- The last match code adds its width, if there is one. -/
theorem FrameOpen.emitMatch_packerHolds (h : FrameOpen s) : ∃ p, PackerHolds s.out p (emitMatch s) ∧
    packedLength p ≤ 8 * s.blk.length + s.nbits.toNat + 12 := by
  have hself := h.packerOk.packerHolds
  cases hh : s.have_ with
  | false =>
    rw [emitMatch, if_neg (by rw [hh]; exact Bool.false_ne_true)]
    exact ⟨_, hself, Nat.le_add_right _ 12⟩
  | true =>
    rw [emitMatch_of_have hh, emit]
    refine ⟨_, hself.putCode (h.match_lt_two_pow_packerWidth hh), ?_⟩
    rw [addCode_packedLength]
    exact Nat.add_le_add_left (codeWidth_le_max _) _

/-- A closed frame's last data: at least the bits of End, at most a full buffer and two codes. -/
theorem FrameOpen.end_packerHolds (h : FrameOpen s) :
    ∃ p, PackerHolds s.out p (emit (endCode s.mcs) (emitMatch s)) ∧ 0 < packedLength p ∧
      packedLength p ≤ 8 * 254 + 7 + 24 := by
  obtain ⟨p, hp, hle⟩ := h.emitMatch_packerHolds
  have hend := h.end_takenAtNext
  have hwidth : packerWidth (endCode s.mcs) (emitMatch s) = codeWidth s.next.toNat := by
    rw [hend.packerWidth_eq, emitMatch_next]
  have hfits : (endCode s.mcs).toNat < 2 ^ packerWidth (endCode s.mcs) (emitMatch s) := by
    rw [hend.packerWidth_eq]
    exact hend.fits
  have hlow : s.mcs.toNat + 1 ≤ codeWidth s.next.toNat := h.mcs_lt_codeWidth_next
  have hmax := codeWidth_le_max s.next.toNat
  have hnbits := h.nbits_low
  have hblen := h.blen_low
  have hblk := h.blk_len
  refine ⟨_, hp.putCode hfits, ?_⟩
  rw [addCode_packedLength, hwidth]
  omega

/-- From the number of bits to the number of bytes (rule R139). -/
theorem FrameOpen.closeFrame_out (h : FrameOpen s) : ∃ bytes : List Byte, 2 ≤ bytes.length ∧ bytes.length ≤ 260 ∧
    (closeFrame s).out = s.out ++ dataTokens bytes ++ [⟨0x00, true⟩] := by
  obtain ⟨p, hp, hpos, hle⟩ := h.end_packerHolds
  have hbytes := hp.closedBytes_length
  have hlen := blockify_length (closedBytes p)
  rw [blockify, List.length_append, List.length_singleton] at hlen
  refine ⟨blocks ((closedBytes p).length / Config.blk) (closedBytes p), by omega, by omega, ?_⟩
  rw [closeFrame, endFrame_out, hp.pFlush_out, blockify, frameTokens_append_singleton, List.append_assoc]

/-- Settles O35: `START` by its equation, `SYM` by the bytes it pushes, `FINISH` by the bytes of its last blocks. -/
theorem outputOfEachCommand : Obligations.OutputOfEachCommand := by
  intro s t hi
  refine ⟨fun m h => (exec_commandResult rfl h).start_out, fun b h => (exec_commandResult rfl h).sym_out hi,
    fun h hs => ?_⟩
  rw [← next_unique (exec_finish_active hs) h]
  exact (hi.active hs).closeFrame_out

end Sys2Proof.Machine
end

section
/-! The widths of the codes by their places (41_bitpacker.md rule R136, 30_encoding.md rule R79). -/

namespace Sys2Proof.Machine

variable {m i : Nat} {cw : Nat × Nat}

theorem CodeAt.first_width (h : CodeAt m 0 cw) : cw.2 = m + 1 := by
  rw [CodeAt, Nat.zero_mod, if_pos rfl, if_pos rfl] at h
  rw [h]

theorem CodeAt.clear_width (h : CodeAt m i cw) (hi : 0 < i) (hk : i % period m = 0) : cw.2 = 12 := by
  rw [CodeAt, if_pos hk, if_neg hi.ne'] at h
  rw [h]

/-- The count at the `k`-th place has not passed 4096: the next Clear comes before. -/
theorem CodeAt.match_width (h : CodeAt m i cw) (hm : m ≤ 8) (hk : 0 < i % period m) :
    cw.2 = codeWidth (min (2 ^ m + 2 + i % period m - 1) 4096) := by
  have hpow : 2 ^ m ≤ 2 ^ 8 := Nat.pow_le_pow_right (by decide) hm
  have hlt : i % period m < 4096 - 2 ^ m := Nat.mod_lt _ (Nat.lt_of_succ_lt (period_gt_one hm))
  have hpos : 0 < 2 ^ m := Nat.two_pow_pos m
  rw [CodeAt, if_neg hk.ne'] at h
  have hcount : min (2 ^ m + 2 + i % period m - 1) 4096 = 2 ^ m + 1 + i % period m := by omega
  rw [hcount, h.2]

theorem lzwCodes_nil (hlo : 2 ≤ m) (hhi : m ≤ 8) : Batch.lzwCodes [] m = [(2 ^ m, m + 1), (2 ^ m + 1, m + 1)] := by
  rw [Batch.lzwCodes, codeWidth_first hlo hhi]

/-- End comes after the last match code, with its width. -/
theorem lzwCodes_last_widths {b : Nat} {rest : List Nat} {cw' : Nat × Nat}
    (hi : i + 1 = (Batch.lzwCodes (b :: rest) m).length) (hcw : (Batch.lzwCodes (b :: rest) m)[i]? = some cw)
    (hcw' : (Batch.lzwCodes (b :: rest) m)[i - 1]? = some cw') : cw.2 = cw'.2 := by
  rw [lzwCodes_cons] at hi hcw hcw'
  simp only [List.length_append, List.length_singleton] at hi
  obtain rfl : i = (Batch.walk m b rest).codes.length + 1 := by omega
  obtain rfl : cw = (2 ^ m + 1, codeWidth (Batch.walk m b rest).next) :=
    Option.some.inj (hcw.symm.trans (by simp))
  obtain rfl : cw' = ((Batch.walk m b rest).cur, codeWidth (Batch.walk m b rest).next) :=
    Option.some.inj (hcw'.symm.trans (by simp))
  rfl

/-- Settles O54: all codes up to the last match code stand at their places, and End is as wide as that. -/
theorem widthsByPosition : Obligations.WidthsByPosition := by
  intro m B hlo hhi hB S
  cases B with
  | nil => exact ⟨fun _ => lzwCodes_nil hlo hhi, fun hne => absurd rfl hne⟩
  | cons b rest =>
    obtain ⟨last, h⟩ := lzwCodes_frameCodes hlo hhi hB
    have hlen : S.length = last + 2 := h.length
    refine ⟨nofun, fun _ i cw hcw => ?_⟩
    intro k
    refine ⟨?_, fun hi hpos hk => ?_, fun hi hk => ?_, fun hi => ⟨?_, fun cw' hcw' => ?_⟩⟩
    · rintro rfl
      exact (h.places 0 (Nat.zero_le _) cw hcw).first_width
    · exact (h.places i (by omega) cw hcw).clear_width hpos hk
    · exact (h.places i (by omega) cw hcw).match_width hhi hk
    · obtain rfl : i = last + 1 := by omega
      exact h.end_code cw hcw
    · exact lzwCodes_last_widths hi hcw hcw'

end Sys2Proof.Machine
end

section
/-! A host command is one operation of the block, the mode and `mcs` alone choosing which (40_lzw_encoder.md rule R103,
60_exceptions.md rule R183). -/

namespace Sys2Proof.Machine

variable {s t : State} {i : Instr}

/-- The operations a host command can come to: dropped, refused for a reason, or accepted. -/
inductive Action : (State → State) → Prop
  | drop : Action id
  | refuse (x : Cause) (hx : x ≠ .none) (cw : CommandWord) : Action (raiseFault x cw)
  | openFrame (m : MinCodeSize) : Action (openFrame m)
  | consume (b : Symbol) : Action (consumeSymbol b)
  | close : Action closeFrame
  | abort : Action returnToIdle

theorem exec_action (hf : i.format = .h) (s : State) :
    ∃ f, Action f ∧ ∀ s' : State, s'.mode = s.mode → s'.mcs = s.mcs → exec i s' = .next (f s') := by
  by_cases ha : i = .abort
  · exact ⟨_, .abort, fun s' _ _ => ha ▸ exec_abort s'⟩
  cases hm : s.mode with
  | fault => exact ⟨_, .drop, fun s' hs _ => exec_of_fault hf ha hs⟩
  | idle =>
    cases i with
    | start m =>
      by_cases hl : legalMcs m = true
      · exact ⟨_, .openFrame m, fun s' hs _ => exec_start_legal hs hl⟩
      · exact ⟨_, .refuse .paramError nofun _, fun s' hs _ => exec_start_illegal hs hl⟩
    | sym b => exact ⟨_, .refuse .protocolError nofun _, fun s' hs _ => exec_sym_idle b hs⟩
    | finish => exact ⟨_, .refuse .protocolError nofun _, fun s' hs _ => exec_finish_idle hs⟩
    | abort => exact absurd rfl ha
    | pinit m => cases hf
    | put c => cases hf
    | pflush => cases hf
  | active =>
    cases i with
    | start m => exact ⟨_, .refuse .protocolError nofun _, fun s' hs _ => exec_start_active m hs⟩
    | sym b =>
      by_cases hb : symbolInRange s.mcs b = true
      · exact ⟨_, .consume b, fun s' hs hmcs => exec_sym_inRange hs (hmcs ▸ hb)⟩
      · exact ⟨_, .refuse .encodingError nofun _, fun s' hs hmcs => exec_sym_outOfRange hs (hmcs ▸ hb)⟩
    | finish => exact ⟨_, .close, fun s' hs _ => exec_finish_active hs⟩
    | abort => exact absurd rfl ha
    | pinit m => cases hf
    | put c => cases hf
    | pflush => cases hf

/-- A command that enters Fault mode names a reason other than "none" (rule R180). -/
theorem exec_cause_ne_none (hf : i.format = .h) (hs : s.mode ≠ .fault) (h : exec i s = .next t)
    (ht : t.mode = .fault) : t.cause ≠ .none := by
  obtain ⟨f, haction, hexec⟩ := exec_action hf s
  obtain rfl := next_unique (hexec s rfl rfl) h
  cases haction with
  | drop => exact absurd ht hs
  | refuse x hx => exact hx
  | openFrame m => rw [openFrame_mode] at ht; cases ht
  | consume b => rw [consumeSymbol_mode] at ht; exact absurd ht hs
  | close => rw [closeFrame_mode] at ht; cases ht
  | abort => rw [returnToIdle_mode] at ht; cases ht

end Sys2Proof.Machine
end

section
/-! The block invariant (42_composition.md rule R164) is kept: an open frame is the encoder's half of the invariant, the
packer's and the lag between their counts (I7), and each accepted command keeps all three or closes the frame. -/

namespace Sys2Proof.Machine

variable {s t : State} {i : Instr} {b : Symbol} {m : MinCodeSize} {cw : CommandWord}

/-! ### The parts of an open frame -/

/-- Between commands (rule R164 I7): the packer's count of codes against the encoder's. -/
structure InStep (s : State) : Prop where
  after_clear : s.pk_first = true → s.pk_next = firstCode s.mcs ∧ s.next = firstCode s.mcs
  lag : s.pk_first = false → s.have_ = true ∧ s.pk_next.toNat + 1 = s.next.toNat ∧
    minDictLen s.mcs + 2 ≤ s.pk_next.toNat

theorem EncoderOpen.frameOpen (he : EncoderOpen s) (hp : PackerOk s) (hi : InStep s) : FrameOpen s where
  mcs_legal := he.mcs_legal
  next_low := he.next_low
  next_high := he.next_high
  dict_wf := he.dict.wf
  dict_size := he.dict.size
  dict_values := he.dict.values
  dict_once := he.dict.once
  dict_keys := he.dict.keys
  match_code hh := (isMatch_iff he.mcs_legal he.next_low).mp (he.match_code hh)
  no_match := he.no_match
  nbits_low := hp.nbits_low
  acc_low := hp.acc_low
  blen_low := hp.blen_low
  blk_len := hp.blk_len
  after_clear := hi.after_clear
  lag := hi.lag

theorem FrameOpen.inStep (h : FrameOpen s) : InStep s := ⟨h.after_clear, h.lag⟩

/-- The packer's half of the invariant sees the packer's part of the state alone (rule R160). -/
theorem PackerOk.congr (h : PackerOk s) (e : t.packer = s.packer) : PackerOk t := by
  obtain ⟨hacc, hnbits, -, -, hblen, hblk, -⟩ := PackerPart.mk.inj e
  exact ⟨⟨hblen ▸ h.blen_low, hblk ▸ hblen ▸ h.blk_len⟩, hnbits ▸ h.nbits_low, hacc ▸ hnbits ▸ h.acc_low⟩

/-! ### The commands of a frame -/

theorem TakenAtNext.emit_packerOk {c : Code} (h : TakenAtNext c s) (hp : PackerOk s) : PackerOk (emit c s) :=
  putCode_packerOk hp (h.packerWidth_eq ▸ h.fits)

/-- A Clear restarts the packer's count (rule R131 (b)). -/
theorem emit_clear_pk_next {c : Code} (hn : s.nbits.toNat ≤ 7) (hc : c = clearCode s.mcs) :
    (emit c s).pk_next = firstCode s.mcs := by
  rw [emit, putCode_pk_next hn, scheduleAfter, if_pos hc]

/-- `START` (rule R104). -/
theorem openFrame_frameOpen (hm : legalMcs m = true) (s : State) : FrameOpen (openFrame m s) := by
  have hp : PackerOk (beforeClear m s) := ⟨⟨Nat.zero_le _, rfl⟩, Nat.zero_le _, Nat.one_pos⟩
  refine (openFrame_encoderOpen hm s).frameOpen ((beforeClear_takenAtNext hm s).emit_packerOk hp) ⟨fun _ => ?_, ?_⟩
  · rw [openFrame_mcs]
    exact ⟨emit_clear_pk_next hp.nbits_low rfl, openFrame_next m s⟩
  · rw [openFrame_pk_first]
    exact nofun

/-- A miss: the packer catches up with the encoder as it takes the match code, then falls one behind again, or both
start at `First` (rules R105, R131). -/
theorem FrameOpen.missSymbol_packer (h : FrameOpen s) (hh : s.have_ = true) (b : Symbol) :
    PackerOk (missSymbol b s) ∧ InStep (missSymbol b s) := by
  obtain ⟨hok, hpk⟩ := h.emitMatch_packer
  have hclear := h.clear_takenAtNext
  have hfirst := emit_match_pk_first (h.match_code hh).2
  have hlow := h.next_low
  have hhigh : s.next.toNat ≤ 4096 := h.next_high
  rw [emitMatch_of_have hh] at hok hpk hclear
  by_cases hn : s.next.toNat < 4096
  · rw [missSymbol_room b hn]
    refine ⟨hok.congr rfl, fun hf => ?_, fun _ => ⟨?_, ?_, ?_⟩⟩
    · exact absurd (hfirst.symm.trans hf) nofun
    · exact (emit_have_ s s.cur).trans hh
    · show (emit s.cur s).pk_next.toNat + 1 = ((emit s.cur s).next + 1).toNat
      rw [hpk, emit_next]
      bv_omega
    · show minDictLen (emit s.cur s).mcs + 2 ≤ (emit s.cur s).pk_next.toNat
      rw [hpk, emit_mcs]
      exact hlow
  · rw [missSymbol_full b (Nat.not_lt.mp hn)]
    refine ⟨(hclear.emit_packerOk hok).congr ?_, fun _ => ?_, fun hf => ?_⟩
    · rw [resetDictionary, emit_mcs]
      rfl
    · show (resetDictionary _).pk_next = firstCode (resetDictionary _).mcs ∧
        (resetDictionary _).next = firstCode (resetDictionary _).mcs
      rw [resetDictionary_mcs]
      exact ⟨emit_clear_pk_next hok.nbits_low rfl, resetDictionary_next _⟩
    · rw [resetDictionary_pk_first] at hf
      cases hf

/-- An accepted `SYM` (rule R105). -/
theorem FrameOpen.consumeSymbol (h : FrameOpen s) (hb : symbolInRange s.mcs b = true) :
    FrameOpen (consumeSymbol b s) := by
  have hparts : PackerOk (Machine.consumeSymbol b s) ∧ InStep (Machine.consumeSymbol b s) := by
    cases hh : s.have_ with
    | false =>
      rw [consumeSymbol_first hh]
      exact ⟨h.packerOk.congr rfl, h.after_clear, fun hf => ⟨rfl, (h.lag hf).2⟩⟩
    | true =>
      cases hd : dictLookup s.cur b s with
      | some c =>
        rw [consumeSymbol_hit hh hd]
        exact ⟨h.packerOk.congr rfl, h.after_clear, h.lag⟩
      | none =>
        rw [consumeSymbol_miss hh hd]
        exact h.missSymbol_packer hh b
  exact (consumeSymbol_encoderOpen h.encoderOpen hb).frameOpen hparts.1 hparts.2

/-! ### Every step -/

theorem Canonical.raiseFault (h : Canonical s) (x : Cause) : Canonical (raiseFault x cw s) := { h with }

theorem FrameOpen.raiseFault (h : FrameOpen s) (x : Cause) : FrameOpen (raiseFault x cw s) := { h with }

/-- Fault entry freezes the registers the word found (rule R185). -/
theorem BlockInvariant.raiseFault (h : BlockInvariant s) (hs : s.mode ≠ .fault) {x : Cause} (hx : x ≠ .none) :
    BlockInvariant (raiseFault x cw s) where
  idle := nofun
  active := nofun
  frozen _ := by
    cases hm : s.mode with
    | idle => exact .inl ((h.idle hm).raiseFault x)
    | active => exact .inr ((h.active hm).raiseFault x)
    | fault => exact absurd hm hs
  cause := ⟨fun hc => absurd hc hx, fun hf => absurd rfl hf⟩
  finfo hf := absurd rfl hf

theorem BlockInvariant.of_active (hs : s.mode = .active) (h : FrameOpen s) (hc : s.cause = .none)
    (hf : s.finfo = 0) : BlockInvariant s where
  idle hi := by rw [hs] at hi; cases hi
  active _ := h
  frozen hx := by rw [hs] at hx; cases hx
  cause := ⟨fun _ => by rw [hs]; exact nofun, fun _ => hc⟩
  finfo _ := hf

theorem BlockInvariant.of_reset (e : t = { State.reset with out := t.out, pending := t.pending }) :
    BlockInvariant t := by
  rw [e]
  exact { invariantHoldsAtReset with
    idle := fun _ => ⟨rfl, rfl, rfl, rfl, rfl, rfl, rfl, rfl, rfl, rfl, rfl⟩
    active := nofun
    frozen := nofun }

theorem CommandResult.blockInvariant (r : CommandResult s i t) (hf : i.format = .h) (he : exec i s = .next t)
    (h : BlockInvariant s) : BlockInvariant t := by
  cases r with
  | dropped => exact h
  | refused x hs => exact h.raiseFault hs (exec_cause_ne_none hf hs he rfl)
  | opened hs hm =>
    have hnf : s.mode ≠ .fault := by rw [hs]; exact nofun
    refine .of_active (openFrame_mode _ s) (openFrame_frameOpen hm s) ?_ ?_
    · rw [openFrame_eq hm]
      exact h.cause.mpr hnf
    · rw [openFrame_eq hm]
      exact h.finfo hnf
  | consumed hs hb =>
    have hnf : s.mode ≠ .fault := by rw [hs]; exact nofun
    obtain ⟨-, -, hcause, hfinfo⟩ := consumeSymbol_frame _ s
    exact .of_active ((consumeSymbol_mode _ s).trans hs) ((h.active hs).consumeSymbol hb)
      (hcause.trans (h.cause.mpr hnf)) (hfinfo.trans (h.finfo hnf))
  | closed hs => exact .of_reset ((CommandResult.closed hs).eq_reset h (closeFrame_mode s))
  | aborted => exact .of_reset (returnToIdle_eq s)

theorem executeWord_blockInvariant (h : BlockInvariant s) (he : executeWord cw s = .next t) : BlockInvariant t := by
  cases hd : decodeCommand cw with
  | ok i =>
    have hf := (decodeCommand_ok hd).1
    rw [executeWord_ok hd] at he
    exact (exec_commandResult hf he).blockInvariant hf he h
  | error e =>
    rw [executeWord_error hd] at he
    obtain rfl := next_unique rfl he
    by_cases hs : s.mode = .fault
    · rwa [illegalWord_of_fault hs]
    · rw [illegalWord_of_not_fault hs]
      exact h.raiseFault hs nofun

/-- Settles O3: a wait changes nothing, a reset makes the reset state, and a word keeps the invariant by its result. -/
theorem invariantKeptByEveryStep : Obligations.InvariantKeptByEveryStep := by
  intro s t hi h
  cases hp : s.pending with
  | nil => exact next_unique (step_waits hp) h ▸ hi
  | cons j rest =>
    rw [step_of_pending hp] at h
    cases j with
    | reset => exact .of_reset (next_unique rfl h ▸ rfl)
    | command cw => exact executeWord_blockInvariant (hi.with_pending rest) h

end Sys2Proof.Machine
end

section
/-! Every command completes (42_composition.md rule R174), so every run goes on. -/

namespace Sys2Proof.Machine

variable {s : State}

theorem exec_total (i : Instr) (s : State) : ∃ t, exec i s = .next t := by
  by_cases hf : i.format = .h
  · obtain ⟨f, -, hexec⟩ := exec_action hf s
    exact ⟨f s, hexec s rfl rfl⟩
  · cases i with
    | start m => exact absurd rfl hf
    | sym b => exact absurd rfl hf
    | finish => exact absurd rfl hf
    | abort => exact absurd rfl hf
    | pinit m => exact ⟨pInit m s, rfl⟩
    | put c => exact ⟨putCode c s, exec_put c s⟩
    | pflush => exact ⟨pFlush s, exec_pflush s⟩

theorem executeWord_total (cw : CommandWord) (s : State) : ∃ t, executeWord cw s = .next t := by
  cases hd : decodeCommand cw with
  | ok i => exact executeWord_ok (s := s) hd ▸ exec_total i s
  | error e => exact ⟨_, executeWord_error hd⟩

theorem step_total (s : State) : ∃ t, step s = .next t := by
  cases hp : s.pending with
  | nil => exact ⟨s, step_waits hp⟩
  | cons j rest =>
    rw [step_of_pending hp]
    cases j with
    | reset => exact ⟨_, rfl⟩
    | command cw => exact executeWord_total cw _

/-- Settles O5: commands and tokens by their meanings, a word by what it decodes to, a step by what is presented. -/
theorem everyCommandCompletes : Obligations.EveryCommandCompletes := ⟨executeWord_total, exec_total, step_total⟩

theorem coreRun_succ (M : Host.Core) (n : Nat) {s t : M.State} (h : M.step s = .next t) :
    M.run (n + 1) s = M.run n t := by
  rw [Host.Core.run, h]

theorem run_succ (n : Nat) {t : State} (h : step s = .next t) : run (n + 1) s = run n t := coreRun_succ core n h

/-- Settles O4: by induction on the number of steps; each answers and keeps the invariant. -/
theorem everyRunGoesOn : Obligations.EveryRunGoesOn := by
  intro n
  induction n with
  | zero => exact fun s h => ⟨s, rfl, h⟩
  | succ n ih =>
    intro s h
    obtain ⟨t, ht⟩ := step_total s
    rw [run_succ n ht]
    exact ih t (invariantKeptByEveryStep s t h ht)

end Sys2Proof.Machine
end

section
/-! What an open frame holds (42_composition.md rule R164 I10, I11): the packer's registers, its buffer and the output
are the variables of `PackBits` after the codes emitted so far; so `FINISH` completes the bytes of `EncodeFrame`. -/

namespace Sys2Proof.Machine

open Sys2Proof.Batch (Pack blocks blockify packBits)

variable {s t : State} {o : List OutToken} {p : Pack} {c : Code} {b : Symbol} {m : MinCodeSize} {B : List Symbol}
  {S : List (Nat × Nat)}

/-! ### Codes taken at the encoder's count -/

/-- What the packer holds is a matter of the packer's part of the state alone (rule R160). -/
theorem PackerHolds.congr (h : PackerHolds o p s) (e : t.packer = s.packer) : PackerHolds o p t := by
  obtain ⟨hacc, hnbits, -, -, -, hblk, hout⟩ := PackerPart.mk.inj e
  refine ⟨h.ok.congr e, hacc ▸ h.acc, hnbits ▸ h.nbits, ?_⟩
  rw [Buffered, hblk, hout]
  exact h.buffer

theorem TakenAtNext.emit_packerHolds (h : TakenAtNext c s) (hp : PackerHolds o p s) :
    PackerHolds o (p.addCode (c.toNat, codeWidth s.next.toNat)) (emit c s) :=
  h.packerWidth_eq ▸ hp.putCode (h.packerWidth_eq ▸ h.fits)

/-- The codes of an accepted `SYM` reach the packer, each at its own width (rules R105, R137). -/
theorem FrameOpen.consumeSymbol_packerHolds (h : FrameOpen s) (hs : s.mode = .active)
    (hb : symbolInRange s.mcs b = true) (hp : PackerHolds o p s) :
    PackerHolds o ((emittedCodes (.sym b) s).foldl Pack.addCode p) (Machine.consumeSymbol b s) := by
  cases hh : s.have_ with
  | false =>
    rw [consumeSymbol_first hh, emittedCodes, emissions_sym_first b hh]
    exact hp.congr rfl
  | true =>
    cases hd : dictLookup s.cur b s with
    | some c =>
      rw [consumeSymbol_hit hh hd, emittedCodes, emissions_sym_hit hd]
      exact hp.congr rfl
    | none =>
      have hmatch := (h.match_takenAtNext hh).emit_packerHolds hp
      rw [consumeSymbol_miss hh hd, emittedCodes]
      by_cases hn : s.next.toNat < 4096
      · rw [missSymbol_room b hn, emissions_sym_room hs hb hh hd hn]
        exact hmatch.congr rfl
      · have hn := Nat.not_lt.mp hn
        have hclear := h.clear_takenAtNext
        rw [emitMatch_of_have hh] at hclear
        rw [missSymbol_full b hn, emissions_sym_full hs hb hh hd hn]
        refine (hclear.emit_packerHolds hmatch).congr ?_
        rw [resetDictionary, emit_mcs]
        rfl

theorem emitMatch_of_no_match (hh : s.have_ = false) : emitMatch s = s :=
  if_neg fun h => Bool.false_ne_true (hh.symm.trans h)

/-- The codes of a `FINISH` (rules R106, R137). -/
theorem FrameOpen.end_emit_packerHolds (h : FrameOpen s) (hs : s.mode = .active) (hp : PackerHolds o p s) :
    PackerHolds o ((emittedCodes .finish s).foldl Pack.addCode p) (emit (endCode s.mcs) (emitMatch s)) := by
  have hend := h.end_takenAtNext
  rw [emittedCodes, emissions_finish_active hs]
  cases hh : s.have_ with
  | false =>
    rw [emitMatch_of_no_match hh] at hend ⊢
    exact hend.emit_packerHolds hp
  | true =>
    rw [emitMatch_of_have hh] at hend ⊢
    exact hend.emit_packerHolds ((h.match_takenAtNext hh).emit_packerHolds hp)

/-! ### A frame so far -/

/-- The variables of `PackBits` after the codes `S` (rule R138). -/
def packed (S : List (Nat × Nat)) : Pack := S.foldl Pack.addCode ⟨0, 0, []⟩

/-- A frame is open that started at the output `o` and has emitted the codes `S`. -/
structure FrameHolds (o : List OutToken) (S : List (Nat × Nat)) (s : State) : Prop where
  active : s.mode = .active
  frame : FrameOpen s
  packer : PackerHolds o (packed S) s

theorem openFrame_holds (hm : legalMcs m = true) (hs : s.mode = .idle) :
    FrameHolds s.out (emittedCodes (.start m) s) (openFrame m s) where
  active := openFrame_mode m s
  frame := openFrame_frameOpen hm s
  packer := by
    have hempty : PackerHolds s.out ⟨0, 0, []⟩ (beforeClear m s) :=
      (pInit_packerHolds m (beginFrame m s)).congr rfl
    have hclear := (beforeClear_takenAtNext hm s).emit_packerHolds hempty
    rw [emittedCodes]
    simp only [emissions, hs, hm, if_true]
    exact hclear

theorem FrameHolds.consumeSymbol (h : FrameHolds o S s) (hb : symbolInRange s.mcs b = true) :
    FrameHolds o (S ++ emittedCodes (.sym b) s) (consumeSymbol b s) where
  active := (consumeSymbol_mode b s).trans h.active
  frame := h.frame.consumeSymbol hb
  packer := by
    rw [packed, List.foldl_append]
    exact h.frame.consumeSymbol_packerHolds h.active hb h.packer

theorem FrameHolds.consumeSymbols (h : FrameHolds o S s) (ha : Accepts B s) :
    FrameHolds o (S ++ codeStream (B.map .sym) s) (consumeSymbols B s) := by
  induction B generalizing S s with
  | nil => rwa [List.map_nil, codeStream, List.append_nil, consumeSymbols_nil]
  | cons b B ih =>
    rw [List.map_cons, codeStream_cons _ ha.exec_head, ← List.append_assoc]
    exact ih (h.consumeSymbol ha.head) ha.tail

/-- `FINISH` outputs the rest of the frame's bytes (rules R106, R161). -/
theorem FrameHolds.closeFrame_out (h : FrameHolds o S s) :
    (closeFrame s).out = o ++ frameTokens (blockify (packBits (S ++ emittedCodes .finish s))) := by
  rw [closeFrame, endFrame_out, (h.frame.end_emit_packerHolds h.active h.packer).pFlush_out, packBits_eq,
    List.foldl_append, packed]

/-! ### The commands of a frame -/

section Frame

variable (hm : legalMcs m = true) (hB : ∀ b ∈ B, b.toNat < 2 ^ m.toNat) (hs : s.mode = .idle)

include hm hB hs

theorem frameSoFar_holds :
    FrameHolds s.out (codeStream (frameSoFar m B) s) (consumeSymbols B (openFrame m s)) := by
  rw [frameSoFar, codeStream_cons _ (exec_start_legal hs hm)]
  exact (openFrame_holds hm hs).consumeSymbols (openFrame_accepts hm hB s)

theorem codeStream_frameCommands_eq_append : codeStream (frameCommands m B) s =
    codeStream (frameSoFar m B) s ++ emittedCodes .finish (consumeSymbols B (openFrame m s)) := by
  rw [frameCommands, frameSoFar, List.cons_append, codeStream_cons _ (exec_start_legal hs hm),
    codeStream_cons _ (exec_start_legal hs hm), (openFrame_accepts hm hB s).codeStream_syms, codeStream_singleton,
    List.append_assoc]

/-- The bytes of a frame (rule R163). -/
theorem frameCommands_out : (closeFrame (consumeSymbols B (openFrame m s))).out =
    s.out ++ frameTokens (Batch.encodeFrame (symbolValues B) m.toNat) := by
  rw [(frameSoFar_holds hm hB hs).closeFrame_out, ← codeStream_frameCommands_eq_append hm hB hs,
    codeStream_frameCommands hm hB hs, Batch.encodeFrame]

end Frame

/-- A frame's commands leave the status registers and the host's inputs (rule R163). -/
theorem consumeSymbols_frame (B : List Symbol) (s : State) :
    (consumeSymbols B s).cause = s.cause ∧ (consumeSymbols B s).finfo = s.finfo ∧
      (consumeSymbols B s).pending = s.pending := by
  induction B generalizing s with
  | nil => exact ⟨rfl, rfl, rfl⟩
  | cons b B ih =>
    obtain ⟨-, hpending, hcause, hfinfo⟩ := consumeSymbol_frame b s
    obtain ⟨hcause', hfinfo', hpending'⟩ := ih (consumeSymbol b s)
    exact ⟨hcause'.trans hcause, hfinfo'.trans hfinfo, hpending'.trans hpending⟩

theorem Canonical.eq_reset_status (h : Canonical s) (hm : s.mode = .idle) :
    s = { State.reset with cause := s.cause, finfo := s.finfo, out := s.out, pending := s.pending } := by
  obtain ⟨⟩ := s
  obtain ⟨⟩ := h
  simp_all [State.reset]

theorem closeFrame_status (s : State) :
    (closeFrame s).cause = s.cause ∧ (closeFrame s).finfo = s.finfo ∧ (closeFrame s).pending = s.pending := by
  simp [closeFrame]

theorem openFrame_status (m : MinCodeSize) (s : State) :
    (openFrame m s).cause = s.cause ∧ (openFrame m s).finfo = s.finfo ∧ (openFrame m s).pending = s.pending := by
  simp [openFrame]

theorem execAll_frameCommands_eq (hm : legalMcs m = true) (hB : ∀ b ∈ B, b.toNat < 2 ^ m.toNat)
    (hs : s.mode = .idle) : execAll (frameCommands m B) s =
      .next { State.reset with
        cause := s.cause, finfo := s.finfo, pending := s.pending
        out := s.out ++ frameTokens (Batch.encodeFrame (symbolValues B) m.toNat) } := by
  obtain ⟨hcause, hfinfo, hpending⟩ := closeFrame_status (consumeSymbols B (openFrame m s))
  obtain ⟨hcauseB, hfinfoB, hpendingB⟩ := consumeSymbols_frame B (openFrame m s)
  obtain ⟨hcauseO, hfinfoO, hpendingO⟩ := openFrame_status m s
  have hcanon := (frameSoFar_holds hm hB hs).frame.closeFrame_canonical
  rw [execAll_frameCommands hm hB hs, hcanon.eq_reset_status (closeFrame_mode _), frameCommands_out hm hB hs, hcause,
    hfinfo, hpending, hcauseB, hfinfoB, hpendingB, hcauseO, hfinfoO, hpendingO]

/-- Settles O40: no command of the frame faults, and the last one leaves an idle block with all bytes output. -/
theorem blockComputesFrameFunction : Obligations.BlockComputesFrameFunction := by
  intro m B s hlo hhi hB hs
  have hm := (legalMcs_iff m).mpr ⟨hlo, hhi⟩
  exact ⟨execAll_take_frameCommands hm hB hs, execAll_frameCommands_eq hm hB hs⟩

end Sys2Proof.Machine
end

section
/-! The data of an open frame and what it says of the frame's whole output: the whole blocks output so far begin it
(42_composition.md rules R42, R164, R172). -/

namespace Sys2Proof.Machine

open Sys2Proof.Batch (Pack blocks blockify packBits)

variable {s t : State} {o : List OutToken} {i : Instr} {is : List Instr} {m : MinCodeSize} {B : List Symbol}
  {S T : List (Nat × Nat)} {X Z : List Byte} {q : Nat}

/-- A buffer that is not full holds what exceeds the whole blocks (rule R164 I11). -/
theorem Buffered.blk_out (h : Buffered o X s) (hlow : s.blk.length ≤ 254) :
    s.blk = X.drop (255 * (X.length / 255)) ∧
      s.out = o ++ dataTokens (blocks (X.length / 255) (X.take (255 * (X.length / 255)))) := by
  obtain ⟨q, full, hfull, rfl, hout⟩ := h
  have hq : (full ++ s.blk).length / 255 = q := by
    rw [List.length_append, hfull]
    omega
  rw [hq, ← hfull, List.drop_left, List.take_left]
  exact ⟨rfl, hout⟩

theorem FrameHolds.blk_out (h : FrameHolds o S s) :
    s.blk = (packed S).bytes.drop (255 * ((packed S).bytes.length / 255)) ∧
      s.out = o ++ dataTokens (blocks ((packed S).bytes.length / 255)
        ((packed S).bytes.take (255 * ((packed S).bytes.length / 255)))) :=
  h.packer.buffer.blk_out (h.frame.blk_len ▸ h.frame.blen_low)

/-- Settles O45: the packer holds the variables of `PackBits` from `START` on. -/
theorem openFrameHoldsItsData : Obligations.OpenFrameHoldsItsData := by
  intro m B s t hlo hhi hB hs h
  have hm := (legalMcs_iff m).mpr ⟨hlo, hhi⟩
  obtain rfl := next_unique (execAll_frameSoFar hm hB hs) h
  have hholds := frameSoFar_holds hm hB hs
  exact ⟨hholds.active, hholds.packer.acc, hholds.packer.nbits, hholds.blk_out.1, hholds.frame.blk_len.symm,
    hholds.blk_out.2⟩

/-! ### Prefixes -/

theorem codeStream_prefix (is js : List Instr) (s : State) : codeStream is s <+: codeStream (is ++ js) s := by
  induction is generalizing s with
  | nil => exact List.nil_prefix
  | cons i is ih =>
    obtain ⟨t, ht⟩ := exec_total i s
    rw [List.cons_append, codeStream_cons _ ht, codeStream_cons _ ht]
    exact List.prefix_append_right_inj _ |>.mpr (ih t)

/-- Packing more codes leaves the bytes that are complete (rule R138). -/
theorem foldl_addCode_bytes_prefix (S : List (Nat × Nat)) (p : Pack) :
    p.bytes <+: (S.foldl Pack.addCode p).bytes := by
  induction S generalizing p with
  | nil => exact List.prefix_rfl
  | cons cw S ih =>
    have hstep : p.bytes <+: (p.addCode cw).bytes := by
      rw [addCode_eq]
      exact List.prefix_append _ _
    exact hstep.trans (ih _)

theorem closedBytes_prefix (p : Pack) : p.bytes <+: closedBytes p := by
  unfold closedBytes
  split
  · exact List.prefix_append _ _
  · exact List.prefix_rfl

theorem packed_bytes_prefix (h : S <+: T) : (packed S).bytes <+: packBits T := by
  obtain ⟨R, rfl⟩ := h
  rw [packBits_eq, List.foldl_append]
  exact (foldl_addCode_bytes_prefix R _).trans (closedBytes_prefix _)

/-- The blocks of the first bytes are the first blocks (rule R139). -/
theorem blocks_prefix_blockify (hX : X.length = 255 * q) (h : X <+: Z) : blocks q X <+: blockify Z := by
  obtain ⟨Y, rfl⟩ := h
  have hq : (X ++ Y).length / 255 = q + Y.length / 255 := by
    rw [List.length_append, hX]
    omega
  rw [blockify, hq, blocks_append hX, List.append_assoc]
  exact List.prefix_append _ _

theorem blocks_length (hX : X.length = 255 * q) : (blocks q X).length = 256 * q := by
  have hq : X.length / Config.blk = q := by rw [hX, Nat.mul_div_cancel_left q (by decide)]
  have hlen := blockify_length X
  rw [blockify, hq, List.length_append, List.length_singleton] at hlen
  omega

/-- Settles O46: the output so far is the whole blocks of the bytes packed so far, whose codes every completion begins
with. -/
theorem outputSoFarIsPrefix : Obligations.OutputSoFarIsPrefix := by
  intro m B s t hlo hhi hB hs h
  have hm := (legalMcs_iff m).mpr ⟨hlo, hhi⟩
  obtain rfl := next_unique (execAll_frameSoFar hm hB hs) h
  have hout := (frameSoFar_holds hm hB hs).blk_out.2
  set S := codeStream (frameSoFar m B) s
  have hlen : ((packed S).bytes.take (255 * ((packed S).bytes.length / 255))).length =
      255 * ((packed S).bytes.length / 255) := by
    rw [List.length_take]
    omega
  refine ⟨_, hout, ?_, fun C hC => ?_, fun cw u hu hstop => (outputOnlyGrows cw _ u hu).2 hstop.symm⟩
  · rw [blocks_length hlen]
    exact Nat.dvd_mul_right _ _
  · have hBC : ∀ b ∈ B ++ C, b.toNat < 2 ^ m.toNat := fun b hb => (List.mem_append.mp hb).elim (hB b) (hC b)
    have hcodes : S <+: Batch.lzwCodes (symbolValues (B ++ C)) m.toNat := by
      have happend : frameCommands m (B ++ C) = frameSoFar m B ++ (C.map .sym ++ [.finish]) := by
        simp only [frameCommands, frameSoFar, List.map_append, List.cons_append, List.append_assoc]
      rw [← codeStream_frameCommands hm hBC hs, happend]
      exact codeStream_prefix _ _ s
    exact blocks_prefix_blockify hlen ((List.take_prefix _ _).trans (packed_bytes_prefix hcodes))

/-! ### Several frames -/

theorem execAll_append (js : List Instr) (h : execAll is s = .next t) : execAll (is ++ js) s = execAll js t := by
  induction is generalizing s with
  | nil => rw [← next_unique rfl h, List.nil_append]
  | cons i is ih =>
    obtain ⟨u, hu⟩ := exec_total i s
    rw [execAll_cons _ hu] at h
    rw [List.cons_append, execAll_cons _ hu, ih h]

/-- Settles O47: each frame leaves the idle block the next one needs. -/
theorem severalFrames : Obligations.SeveralFrames := by
  intro frames
  induction frames with
  | nil => exact fun s hs _ => ⟨s, rfl, hs, (List.append_nil _).symm⟩
  | cons f frames ih =>
    intro s hs hlegal
    obtain ⟨⟨hlo, hhi, hB⟩, hrest⟩ := List.forall_mem_cons.mp hlegal
    obtain ⟨u, hu, hum, huout⟩ : ∃ u, execAll (frameCommands f.1 f.2) s = .next u ∧ u.mode = .idle ∧
        u.out = s.out ++ frameTokens (Batch.encodeFrame (symbolValues f.2) f.1.toNat) :=
      ⟨_, execAll_frameCommands_eq ((legalMcs_iff f.1).mpr ⟨hlo, hhi⟩) hB hs, rfl, rfl⟩
    obtain ⟨t, ht, htm, hout⟩ := ih u hum hrest
    refine ⟨t, ?_, htm, ?_⟩
    · rw [List.flatMap_cons, execAll_append _ hu]
      exact ht
    · rw [hout, huout, List.flatMap_cons, List.append_assoc]

end Sys2Proof.Machine
end

section
/-! No command reads the output or the host's later inputs (42_composition.md rules R160, R165): a state `after` other
output and before other inputs runs as the state itself. So what an idle block did before has no influence, and a
command presented at the port is a command executed. -/

namespace Sys2Proof.Machine

variable {s s' t : State} {i : Instr} {is : List Instr} {m : MinCodeSize} {B : List Symbol}

/-- The state with the output `o` before its own and the inputs `q` before those it has still to take. -/
def State.after (o : List OutToken) (q : List Input) (s : State) : State :=
  { s with out := o ++ s.out, pending := q ++ s.pending }

variable (o : List OutToken) (q : List Input) (s : State)

/-! ### The packer's operations -/

theorem flushBlock_after : flushBlock (s.after o q) = (flushBlock s).after o q := by
  simp only [flushBlock, outToken_out, State.after, List.append_assoc]
  rfl

theorem pushByte_after (b : Byte) : pushByte b (s.after o q) = (pushByte b s).after o q := by
  show (if _ then flushBlock ((storeByte b s).after o q) else (storeByte b s).after o q) = _
  rw [flushBlock_after, ← apply_ite (State.after o q)]
  rfl

theorem drainByte_after : drainByte (s.after o q) = (drainByte s).after o q := by
  have h : pushByte ((s.after o q).acc.setWidth 8) (s.after o q) = (pushByte (s.acc.setWidth 8) s).after o q :=
    pushByte_after o q s _
  rw [drainByte, h]
  rfl

theorem drainBytes_after (n : Nat) : drainBytes n (s.after o q) = (drainBytes n s).after o q := by
  induction n generalizing s with
  | zero => rfl
  | succ n ih => rw [drainBytes, drainByte_after, ih, drainBytes]

theorem moveSchedule_after (c : Code) : moveSchedule c (s.after o q) = (moveSchedule c s).after o q := by
  simp only [moveSchedule, apply_ite (State.after o q)]
  rfl

theorem restartSchedule_after (c : Code) : restartSchedule c (s.after o q) = (restartSchedule c s).after o q := by
  simp only [restartSchedule, apply_ite (State.after o q)]
  rfl

theorem emit_after (c : Code) : emit c (s.after o q) = (emit c s).after o q := by
  have happend : appendCode c (moveSchedule c (s.after o q)) = (appendCode c (moveSchedule c s)).after o q := by
    rw [moveSchedule_after]
    rfl
  have hdrain : drainComplete (appendCode c (moveSchedule c (s.after o q))) =
      (drainComplete (appendCode c (moveSchedule c s))).after o q := by
    rw [happend]
    exact drainBytes_after o q _ _
  rw [emit, putCode, hdrain, restartSchedule_after, emit, putCode]

theorem padLastByte_after : padLastByte (s.after o q) = (padLastByte s).after o q := by
  have h : pushByte ((s.after o q).acc.setWidth 8) (s.after o q) = (pushByte (s.acc.setWidth 8) s).after o q :=
    pushByte_after o q s _
  simp only [padLastByte, h, apply_ite (State.after o q)]
  rfl

theorem flushRest_after : flushRest (s.after o q) = (flushRest s).after o q := by
  simp only [flushRest, flushBlock_after, apply_ite (State.after o q)]
  rfl

theorem pFlush_after : pFlush (s.after o q) = (pFlush s).after o q := by
  rw [pFlush, padLastByte_after, flushRest_after, pFlush]
  simp only [outToken, State.after, List.append_assoc]

/-! ### The host commands -/

theorem emitMatch_after : emitMatch (s.after o q) = (emitMatch s).after o q := by
  have h : emit (s.after o q).cur (s.after o q) = (emit s.cur s).after o q := emit_after o q s _
  simp only [emitMatch, h, apply_ite (State.after o q)]
  rfl

theorem endFrame_after : endFrame (s.after o q) = (endFrame s).after o q := rfl

theorem closeFrame_after : closeFrame (s.after o q) = (closeFrame s).after o q := by
  have h : emit (endCode (s.after o q).mcs) (emitMatch (s.after o q)) =
      (emit (endCode s.mcs) (emitMatch s)).after o q := by
    rw [emitMatch_after]
    exact emit_after o q _ _
  rw [closeFrame, h, pFlush_after, endFrame_after, closeFrame]

theorem openFrame_after (m : MinCodeSize) : openFrame m (s.after o q) = (openFrame m s).after o q :=
  emit_after o q (beforeClear m s) _

theorem resetDictionary_after : resetDictionary (s.after o q) = (resetDictionary s).after o q := by
  have h : emit (clearCode (s.after o q).mcs) (s.after o q) = (emit (clearCode s.mcs) s).after o q := emit_after o q s _
  rw [resetDictionary, h]
  rfl

theorem missSymbol_after (b : Symbol) : missSymbol b (s.after o q) = (missSymbol b s).after o q := by
  have h : emit (s.after o q).cur (s.after o q) = (emit s.cur s).after o q := emit_after o q s _
  have hgrow : growOrReset b ((emit s.cur s).after o q) = (growOrReset b (emit s.cur s)).after o q := by
    simp only [growOrReset, resetDictionary_after, apply_ite (State.after o q)]
    rfl
  rw [missSymbol, h, hgrow]
  rfl

theorem consumeSymbol_after (b : Symbol) : consumeSymbol b (s.after o q) = (consumeSymbol b s).after o q := by
  cases hh : s.have_ with
  | false => rw [consumeSymbol_first hh, consumeSymbol_first (s := s.after o q) hh]; rfl
  | true =>
    cases hd : dictLookup s.cur b s with
    | some c => rw [consumeSymbol_hit hh hd, consumeSymbol_hit (s := s.after o q) hh hd]; rfl
    | none =>
      rw [consumeSymbol_miss hh hd, consumeSymbol_miss (s := s.after o q) hh hd]
      exact missSymbol_after o q s b

theorem Action.after {f : State → State} (h : Action f) : f (s.after o q) = (f s).after o q := by
  cases h with
  | drop => rfl
  | refuse x hx cw => rfl
  | openFrame m => exact openFrame_after o q s m
  | consume b => exact consumeSymbol_after o q s b
  | close => exact closeFrame_after o q s
  | abort => rfl

variable {s}

theorem exec_after (hf : i.format = .h) (h : exec i s = .next t) : exec i (s.after o q) = .next (t.after o q) := by
  obtain ⟨f, haction, hexec⟩ := exec_action hf s
  rw [hexec (s.after o q) rfl rfl, haction.after, next_unique (hexec s rfl rfl) h]

theorem execAll_after (his : ∀ i ∈ is, i.format = .h) (h : execAll is s = .next t) :
    execAll is (s.after o q) = .next (t.after o q) := by
  induction is generalizing s with
  | nil => rw [← next_unique rfl h]; rfl
  | cons i is ih =>
    obtain ⟨hi, his⟩ := List.forall_mem_cons.mp his
    obtain ⟨u, hu⟩ := exec_total i s
    rw [execAll_cons _ hu] at h
    rw [execAll_cons _ (exec_after o q hi hu)]
    exact ih his h

/-! ### Histories -/

theorem execAll_total (is : List Instr) (s : State) : ∃ t, execAll is s = .next t := by
  induction is generalizing s with
  | nil => exact ⟨s, rfl⟩
  | cons i is ih =>
    obtain ⟨u, hu⟩ := exec_total i s
    rw [execAll_cons _ hu]
    exact ih u

/-- An idle block is the reset block after the output it has made (rule R39). -/
theorem BlockInvariant.eq_reset_after (h : BlockInvariant s) (hs : s.mode = .idle) :
    s = State.reset.after s.out s.pending := by
  have he := h.eq_reset hs
  rw [State.after, show s.out ++ State.reset.out = s.out from List.append_nil _,
    show s.pending ++ State.reset.pending = s.pending from List.append_nil _]
  exact he

/-- Settles O48: both blocks do what the reset block does, after their own histories. -/
theorem historyHasNoInfluence : Obligations.HistoryHasNoInfluence := by
  intro is s s' his hi hi' hs hs'
  obtain ⟨r, hr⟩ := execAll_total is State.reset
  refine ⟨r.after s.out s.pending, r.after s'.out s'.pending, r.out, ?_, ?_, rfl, rfl, rfl⟩
  · rw [← execAll_after s.out s.pending his hr, ← hi.eq_reset_after hs]
  · rw [← execAll_after s'.out s'.pending his hr, ← hi'.eq_reset_after hs']

/-! ### Presented commands -/

theorem decodeCommand_encode (hf : i.format = .h) : decodeCommand (encode i) = .ok i := by
  have h := decodeOfEncode i
  rwa [hf] at h

/-- As many steps as commands presented execute them, and leave the host's later inputs (rules R103, R204). -/
theorem run_present (his : ∀ i ∈ is, i.format = .h) (h : execAll is s = .next t) :
    run is.length (present (asInputs is) s) = .next t := by
  induction is generalizing s with
  | nil => exact h
  | cons i is ih =>
    obtain ⟨hi, his⟩ := List.forall_mem_cons.mp his
    obtain ⟨u, hu⟩ := exec_total i s
    have hstep : step (present (asInputs (i :: is)) s) = .next (present (asInputs is) u) := by
      rw [step_of_pending (j := .command (encode i)) (rest := asInputs is ++ s.pending) rfl]
      show executeWord (encode i) (s.after [] (asInputs is)) = _
      rw [executeWord_ok (decodeCommand_encode hi)]
      exact exec_after [] (asInputs is) hi hu
    rw [execAll_cons _ hu] at h
    rw [List.length_cons, run_succ _ hstep]
    exact ih his h

theorem frameCommands_format (m : MinCodeSize) (B : List Symbol) : ∀ i ∈ frameCommands m B, i.format = .h := by
  intro i hi
  rw [frameCommands, frameSoFar, List.mem_append, List.mem_cons, List.mem_map, List.mem_singleton] at hi
  obtain (rfl | ⟨b, -, rfl⟩) | rfl := hi <;> rfl

/-- Settles O41: the presented words are the commands of the frame. -/
theorem hostRunComputesFrameFunction : Obligations.HostRunComputesFrameFunction := by
  intro m B s hlo hhi hB hs
  have hlen : (frameCommands m B).length = B.length + 2 := by simp [frameCommands, frameSoFar]
  rw [← hlen]
  exact run_present (frameCommands_format m B) (execAll_frameCommands_eq ((legalMcs_iff m).mpr ⟨hlo, hhi⟩) hB hs)

end Sys2Proof.Machine
end

section
/-! The two units share only tokens (42_composition.md rule R160): a host command does to the encoder, and sends, what
it does and sends with the packer at its reset values; a token does to the packer what it does with the encoder's
registers but `mcs` at theirs. -/

namespace Sys2Proof.Machine

variable {s s' t t' : State} {i : Instr}

/-! ### The encoder -/

/-- The state with the packer's part at its reset value. -/
def State.encoderOnly (s : State) : State :=
  { State.reset with
    mode := s.mode, cause := s.cause, finfo := s.finfo, mcs := s.mcs, next := s.next, have_ := s.have_, cur := s.cur
    dict := s.dict, pending := s.pending }

theorem encoder_encoderOnly (s : State) : s.encoderOnly.encoder = s.encoder := rfl

theorem encoderOnly_congr (h : s.encoder = s'.encoder) : s.encoderOnly = s'.encoderOnly :=
  congrArg (fun e : EncoderPart =>
    { State.reset with
      mode := e.mode, cause := e.cause, finfo := e.finfo, mcs := e.mcs, next := e.next, have_ := e.have_, cur := e.cur
      dict := e.dict, pending := e.pending }) h

/-- A miss writes the dictionary, `next` and the match, by what the encoder holds alone (rule R105). -/
theorem missSymbol_encoder (b : Symbol) (s : State) : (missSymbol b s).encoder =
    if s.next.toNat < 4096 then
      { s.encoder with
        dict := s.dict.write (dictKey s.cur b) (s.next.setWidth 12), next := s.next + 1, cur := literalCode b }
    else { s.encoder with dict := [], next := firstCode s.mcs, cur := literalCode b } := by
  split
  next hn => simp [missSymbol_room b hn, State.encoder]
  next hn => simp [missSymbol_full b (Nat.not_lt.mp hn), State.encoder]

theorem consumeSymbol_encoderOnly (b : Symbol) (s : State) :
    (consumeSymbol b s.encoderOnly).encoder = (consumeSymbol b s).encoder := by
  cases hh : s.have_ with
  | false => rw [consumeSymbol_first hh, consumeSymbol_first (s := s.encoderOnly) hh]; rfl
  | true =>
    cases hd : dictLookup s.cur b s with
    | some c => rw [consumeSymbol_hit hh hd, consumeSymbol_hit (s := s.encoderOnly) hh hd]; rfl
    | none =>
      rw [consumeSymbol_miss hh hd, consumeSymbol_miss (s := s.encoderOnly) hh hd, missSymbol_encoder,
        missSymbol_encoder]
      rfl

theorem openFrame_encoder (m : MinCodeSize) (s : State) : (openFrame m s).encoder =
    { s.encoder with mode := .active, mcs := m, next := firstCode m, have_ := false, cur := 0, dict := [] } :=
  putCode_encoder _ _

theorem emitMatch_encoder (s : State) : (emitMatch s).encoder = s.encoder := by
  simp only [emitMatch, emit, apply_ite State.encoder, putCode_encoder, ite_self]

theorem closeFrame_encoder (s : State) : (closeFrame s).encoder =
    { s.encoder with mode := .idle, mcs := 0, next := 0, have_ := false, cur := 0, dict := [] } := by
  have h : (pFlush (emit (endCode s.mcs) (emitMatch s))).encoder = s.encoder := by
    rw [pFlush_encoder, emit, putCode_encoder, emitMatch_encoder]
  rw [← h]
  rfl

theorem Action.encoderOnly {f : State → State} (h : Action f) (s : State) :
    (f s.encoderOnly).encoder = (f s).encoder := by
  cases h with
  | drop => rfl
  | refuse x hx cw => rfl
  | openFrame m => rw [openFrame_encoder, openFrame_encoder]; rfl
  | consume b => exact consumeSymbol_encoderOnly b s
  | close => rw [closeFrame_encoder, closeFrame_encoder]; rfl
  | abort => rfl

/-- Which codes a command emits is the encoder's to say (rule R160). -/
theorem emissions_puts_encoderOnly (i : Instr) (s : State) :
    ((emissions i s.encoderOnly).map fun e => Instr.put e.1) = (emissions i s).map fun e => Instr.put e.1 := by
  have hm : s.encoderOnly.mode = s.mode := rfl
  cases i with
  | start m =>
    cases h : s.mode <;> simp only [emissions, hm, h]
    split <;> rfl
  | sym b =>
    cases h : s.mode <;> simp only [emissions, hm, h]
    simp only [apply_ite (List.map _), List.map_cons, List.map_nil]
    rfl
  | finish =>
    cases h : s.mode <;> simp only [emissions, hm, h]
    simp only [apply_ite (List.map _), List.map_append, List.map_cons, List.map_nil]
    rfl
  | abort => rfl
  | pinit m => rfl
  | put c => rfl
  | pflush => rfl

theorem sentTokens_encoderOnly (i : Instr) (s : State) : sentTokens i s.encoderOnly = sentTokens i s := by
  unfold sentTokens
  rw [emissions_puts_encoderOnly]
  rfl

/-! ### The packer -/

theorem exec_pinit (m : MinCodeSize) (s : State) : exec (.pinit m) s = .next (pInit m s) := rfl

theorem pInit_packerOnly (m : MinCodeSize) (s : State) : pInit m s.packerOnly = (pInit m s).packerOnly := rfl

theorem padLastByte_packerOnly (s : State) : padLastByte s.packerOnly = (padLastByte s).packerOnly := by
  have h : pushByte (s.packerOnly.acc.setWidth 8) s.packerOnly = (pushByte (s.acc.setWidth 8) s).packerOnly :=
    pushByte_packerOnly _ s
  simp only [padLastByte, h, apply_ite State.packerOnly]
  rfl

theorem flushRest_packerOnly (s : State) : flushRest s.packerOnly = (flushRest s).packerOnly := by
  simp only [flushRest, apply_ite State.packerOnly]
  rfl

theorem pFlush_packerOnly (s : State) : pFlush s.packerOnly = (pFlush s).packerOnly := by
  rw [pFlush, padLastByte_packerOnly, flushRest_packerOnly]
  rfl

theorem packerOnly_congr (h : s.packer = s'.packer) (hm : s.mcs = s'.mcs) : s.packerOnly = s'.packerOnly := by
  obtain ⟨hacc, hnbits, hnext, hfirst, hblen, hblk, hout⟩ := PackerPart.mk.inj h
  simp only [State.packerOnly, hacc, hnbits, hnext, hfirst, hblen, hblk, hout, hm]

theorem exec_token_packer_congr (hf : i.format = .p) (hp : s.packer = s'.packer) (hm : s.mcs = s'.mcs)
    (h : exec i s = .next t) (h' : exec i s' = .next t') : t.packer = t'.packer := by
  have honly := packerOnly_congr hp hm
  cases i with
  | start m => cases hf
  | sym b => cases hf
  | finish => cases hf
  | abort => cases hf
  | pinit m =>
    rw [← next_unique (exec_pinit m s) h, ← next_unique (exec_pinit m s') h', ← packer_packerOnly,
      ← pInit_packerOnly, honly, pInit_packerOnly, packer_packerOnly]
  | put c =>
    rw [← next_unique (exec_put c s) h, ← next_unique (exec_put c s') h']
    exact putCode_packer_congr c honly
  | pflush =>
    rw [← next_unique (exec_pflush s) h, ← next_unique (exec_pflush s') h', ← packer_packerOnly, ← pFlush_packerOnly,
      honly, pFlush_packerOnly, packer_packerOnly]

/-- Settles O38: a command's action and its tokens do not see the packer, a token's does not see the encoder. -/
theorem unitsShareOnlyTokens : Obligations.UnitsShareOnlyTokens := by
  refine ⟨fun i s s' t t' hf he h h' => ?_, fun i s s' t t' hf hp hm h h' => exec_token_packer_congr hf hp hm h h'⟩
  have honly := encoderOnly_congr he
  obtain ⟨f, haction, hexec⟩ := exec_action hf s
  have hmode : s'.mode = s.mode := (congrArg EncoderPart.mode he).symm
  have hmcs : s'.mcs = s.mcs := (congrArg EncoderPart.mcs he).symm
  rw [← next_unique (hexec s rfl rfl) h, ← next_unique (hexec s' hmode hmcs) h', ← haction.encoderOnly s,
    ← haction.encoderOnly s', ← sentTokens_encoderOnly i s, ← sentTokens_encoderOnly i s', honly]
  exact ⟨rfl, rfl⟩

end Sys2Proof.Machine
end

section
/-! `Deblockify` takes off what `Blockify` puts on (41_bitpacker.md rules R141, R169). -/

namespace Sys2Proof.Machine

open Sys2Proof.Batch (blockify deblockifyFrom)

variable {X : List Byte}

/-- `Blockify` takes its blocks off the front (rule R139). -/
theorem blockify_eq_subBlock_append (X : List Byte) :
    blockify X = subBlock (X.take 255) ++ blockify (X.drop 255) := by
  by_cases hlen : 255 ≤ X.length
  · have htake : (X.take 255).length = 255 := List.length_take_of_le hlen
    rw [blockify_long hlen, subBlock, if_neg (List.ne_nil_of_length_eq_add_one htake), htake]
  · rw [List.take_of_length_le (by omega), List.drop_of_length_le (by omega), blockify_short (by omega)]
    rfl

theorem deblockifyFrom_terminator (fuel : Nat) : deblockifyFrom (fuel + 1) [0x00] = some [] := rfl

/-- One turn reads one block (rule R141). -/
theorem deblockifyFrom_subBlock_append (hX : X ≠ []) (hlen : X.length ≤ 255) (fuel : Nat) (Y : List Byte) :
    deblockifyFrom (fuel + 1) (subBlock X ++ Y) = (deblockifyFrom fuel Y).map (X ++ ·) := by
  have hpos : 0 < X.length := List.length_pos_of_ne_nil hX
  have hcount : (BitVec.ofNat 8 X.length).toNat = X.length := by
    rw [BitVec.toNat_ofNat]
    omega
  have hne : BitVec.ofNat 8 X.length ≠ 0 := fun h => by
    rw [h] at hcount
    exact hpos.ne hcount
  rw [subBlock, if_neg hX, List.cons_append, deblockifyFrom, if_neg hne, hcount,
    if_neg (by rw [List.length_append]; omega), List.drop_left, List.take_left]

theorem deblockifyFrom_blockify (fuel : Nat) (hfuel : (X.length + 254) / 255 < fuel) :
    deblockifyFrom fuel (blockify X) = some X := by
  induction fuel generalizing X with
  | zero => exact absurd hfuel (Nat.not_lt_zero _)
  | succ fuel ih =>
    by_cases hX : X = []
    · subst hX
      exact deblockifyFrom_terminator fuel
    · have hpos : 0 < X.length := List.length_pos_of_ne_nil hX
      have hrest : ((X.drop 255).length + 254) / 255 < fuel := by
        rw [List.length_drop]
        omega
      have htake : X.take 255 ≠ [] := fun h => by
        have := congrArg List.length h
        rw [List.length_take, List.length_nil] at this
        omega
      rw [blockify_eq_subBlock_append X, deblockifyFrom_subBlock_append htake (List.length_take_le _ _), ih hrest,
        Option.map_some, List.take_append_drop]

/-- Settles O50: each turn of `Deblockify` reads a block of `Blockify`, and there are enough turns. -/
theorem deblockifyOfBlockify : Obligations.DeblockifyOfBlockify := by
  intro X
  refine deblockifyFrom_blockify _ ?_
  rw [blockify_length]
  omega

end Sys2Proof.Machine
end

section
/-! The codes still to come at a point of the batch walk (40_lzw_encoder.md rule R109): each is below the count that
gives its width, so it fits (rules R78, R137). -/

namespace Sys2Proof.Machine

open Sys2Proof.Batch (Walk walkSymbol lzwCodes)

variable {m b v : Nat} {w : Walk} {B rest : List Nat}

/-! ### The codes still to come -/

/-- The codes of one turn of the loop. -/
def turnCodes (m : Nat) (w : Walk) (v : Nat) : List (Nat × Nat) :=
  match w.dict.lookup (w.cur, v) with
  | some _ => []
  | none =>
    if w.next < 4096 then [(w.cur, codeWidth w.next)]
    else [(w.cur, codeWidth w.next), (2 ^ m, codeWidth w.next)]

/-- The codes of the remaining symbols and of the end of the frame. -/
def codesFrom (m : Nat) : Walk → List Nat → List (Nat × Nat)
  | w, [] => [(w.cur, codeWidth w.next), (2 ^ m + 1, codeWidth w.next)]
  | w, v :: rest => turnCodes m w v ++ codesFrom m (walkSymbol m w v) rest

theorem turnCodes_hit {c : Nat} (hd : w.dict.lookup (w.cur, v) = some c) : turnCodes m w v = [] := by
  simp [turnCodes, hd]

theorem turnCodes_room (hd : w.dict.lookup (w.cur, v) = none) (hn : w.next < 4096) :
    turnCodes m w v = [(w.cur, codeWidth w.next)] := by
  simp [turnCodes, hd, hn]

theorem turnCodes_full (hd : w.dict.lookup (w.cur, v) = none) (hn : 4096 ≤ w.next) :
    turnCodes m w v = [(w.cur, codeWidth w.next), (2 ^ m, codeWidth w.next)] := by
  simp [turnCodes, hd, Nat.not_lt.mpr hn]

theorem walkSymbol_codes (m : Nat) (w : Walk) (v : Nat) : (walkSymbol m w v).codes = w.codes ++ turnCodes m w v := by
  cases hd : w.dict.lookup (w.cur, v) with
  | some c => rw [walkSymbol_hit hd, turnCodes_hit hd, List.append_nil]
  | none =>
    by_cases hn : w.next < 4096
    · rw [walkSymbol_room hd hn, turnCodes_room hd hn]
    · rw [walkSymbol_full hd (Nat.not_lt.mp hn), turnCodes_full hd (Nat.not_lt.mp hn)]

theorem foldl_walkSymbol_codes (rest : List Nat) (w : Walk) :
    (rest.foldl (walkSymbol m) w).codes ++ codesFrom m (rest.foldl (walkSymbol m) w) [] =
      w.codes ++ codesFrom m w rest := by
  induction rest generalizing w with
  | nil => rfl
  | cons v rest ih => rw [List.foldl_cons, ih, walkSymbol_codes, codesFrom, List.append_assoc]

theorem lzwCodes_eq_codesFrom (m b : Nat) (rest : List Nat) :
    lzwCodes (b :: rest) m = (2 ^ m, codeWidth (2 ^ m + 2)) :: codesFrom m (Batch.walk m b []) rest :=
  foldl_walkSymbol_codes rest (Batch.walk m b [])

/-! ### What the walk keeps -/

/-- The entries and the match of the walk lie below `next` (rule R164 I2 to I5, of the batch loop). -/
structure WalkOk (m : Nat) (w : Walk) : Prop where
  next_low : 2 ^ m + 2 ≤ w.next
  next_high : w.next ≤ 4096
  cur : w.cur < 2 ^ m ∨ 2 ^ m + 2 ≤ w.cur ∧ w.cur < w.next
  entries : ∀ p v c, w.dict.lookup (p, v) = some c → p < c ∧ 2 ^ m + 2 ≤ c ∧ c < w.next

theorem first_le_cap (hhi : m ≤ 8) : 2 ^ m + 2 ≤ 4096 := by
  have : 2 ^ m ≤ 2 ^ 8 := Nat.pow_le_pow_right (by decide) hhi
  omega

theorem walkOk_first (hhi : m ≤ 8) (hb : b < 2 ^ m) : WalkOk m (Batch.walk m b []) :=
  ⟨Nat.le_refl _, first_le_cap hhi, .inl hb, nofun⟩

theorem lookup_cons_eq_some {k a : Nat × Nat} {x c : Nat} {l : List ((Nat × Nat) × Nat)}
    (h : ((k, x) :: l).lookup a = some c) : (a = k ∧ c = x) ∨ l.lookup a = some c := by
  by_cases ha : a = k
  · subst ha
    rw [List.lookup_cons_self] at h
    exact .inl ⟨rfl, (Option.some.inj h).symm⟩
  · rw [List.lookup_cons, beq_eq_false_iff_ne.mpr ha] at h
    exact .inr h

theorem WalkOk.cur_lt_next (h : WalkOk m w) : w.cur < w.next := by
  have := h.next_low
  have := h.cur
  omega

theorem WalkOk.turn {w' : Walk} (h : WalkOk m w) (hhi : m ≤ 8) (hv : v < 2 ^ m) (r : TurnResult m w v w') :
    WalkOk m w' := by
  have hlow := h.next_low
  have hcur := h.cur_lt_next
  cases r with
  | hit hd => exact ⟨hlow, h.next_high, .inr (h.entries _ _ _ hd).2, h.entries⟩
  | room hd hn =>
    refine ⟨hlow.trans (Nat.le_succ _), hn, .inl hv, fun p a c hc => ?_⟩
    obtain ⟨hpa, rfl⟩ | hc := lookup_cons_eq_some hc
    · obtain ⟨rfl, rfl⟩ := Prod.mk.inj hpa
      exact ⟨hcur, hlow, Nat.lt_succ_self _⟩
    · obtain ⟨hp, hclow, hchigh⟩ := h.entries p a c hc
      exact ⟨hp, hclow, Nat.lt_succ_of_lt hchigh⟩
  | full hd hn => exact ⟨Nat.le_refl _, first_le_cap hhi, .inl hv, nofun⟩

/-! ### The codes fit -/

/-- A code below a count of an open frame, with that count's width (rules R78, R137). -/
def Fits (m : Nat) (cw : Nat × Nat) : Prop :=
  ∃ n, cw.1 < n ∧ 2 ^ m + 2 ≤ n ∧ n ≤ 4096 ∧ cw.2 = codeWidth n

theorem Fits.lt_two_pow {cw : Nat × Nat} (h : Fits m cw) : cw.1 < 2 ^ cw.2 := by
  obtain ⟨n, hlt, -, hhigh, hwidth⟩ := h
  rw [hwidth]
  exact hlt.trans_le (le_two_pow_codeWidth hhigh)

theorem Fits.width_le {cw : Nat × Nat} (h : Fits m cw) : cw.2 ≤ 12 := by
  obtain ⟨n, -, -, -, hwidth⟩ := h
  exact hwidth ▸ codeWidth_le_max n

theorem Fits.le_width {cw : Nat × Nat} (h : Fits m cw) (hlo : 2 ≤ m) (hhi : m ≤ 8) : m + 1 ≤ cw.2 := by
  obtain ⟨n, -, hlow, hhigh, hwidth⟩ := h
  rw [hwidth, ← codeWidth_first hlo hhi]
  exact codeWidth_mono hlow hhigh

theorem WalkOk.fits (h : WalkOk m w) {c : Nat} (hc : c < w.next) : Fits m (c, codeWidth w.next) :=
  ⟨w.next, hc, h.next_low, h.next_high, rfl⟩

theorem WalkOk.turnCodes_fit (h : WalkOk m w) (v : Nat) : ∀ cw ∈ turnCodes m w v, Fits m cw := by
  have hcur := h.fits h.cur_lt_next
  have hclear : Fits m (2 ^ m, codeWidth w.next) := h.fits (by have := h.next_low; omega)
  cases hd : w.dict.lookup (w.cur, v) with
  | some c => rw [turnCodes_hit hd]; exact nofun
  | none =>
    by_cases hn : w.next < 4096
    · rw [turnCodes_room hd hn]
      exact List.forall_mem_singleton.mpr hcur
    · rw [turnCodes_full hd (Nat.not_lt.mp hn)]
      exact List.forall_mem_cons.mpr ⟨hcur, List.forall_mem_singleton.mpr hclear⟩

theorem WalkOk.codesFrom_fit (h : WalkOk m w) (hhi : m ≤ 8) (hrest : ∀ v ∈ rest, v < 2 ^ m) :
    ∀ cw ∈ codesFrom m w rest, Fits m cw := by
  induction rest generalizing w with
  | nil =>
    have hend : Fits m (2 ^ m + 1, codeWidth w.next) := h.fits (by have := h.next_low; omega)
    exact List.forall_mem_cons.mpr ⟨h.fits h.cur_lt_next, List.forall_mem_singleton.mpr hend⟩
  | cons v rest ih =>
    obtain ⟨hv, hrest⟩ := List.forall_mem_cons.mp hrest
    have hturn := ih (h.turn hhi hv (walkSymbol_turnResult m w v)) hrest
    exact fun cw hcw => (List.mem_append.mp hcw).elim (h.turnCodes_fit v cw) (hturn cw)

/-- Every code of a frame fits its width (rules R78, R161). -/
theorem lzwCodes_fit (hhi : m ≤ 8) (hB : ∀ b ∈ B, b < 2 ^ m) : ∀ cw ∈ lzwCodes B m, Fits m cw := by
  have hreserved {c : Nat} (hc : c < 2 ^ m + 2) : Fits m (c, codeWidth (2 ^ m + 2)) :=
    ⟨_, hc, Nat.le_refl _, first_le_cap hhi, rfl⟩
  cases B with
  | nil =>
    exact List.forall_mem_cons.mpr ⟨hreserved (by omega), List.forall_mem_singleton.mpr (hreserved (by omega))⟩
  | cons b rest =>
    obtain ⟨hb, hrest⟩ := List.forall_mem_cons.mp hB
    rw [lzwCodes_eq_codesFrom]
    exact List.forall_mem_cons.mpr ⟨hreserved (by omega), (walkOk_first hhi hb).codesFrom_fit hhi hrest⟩

end Sys2Proof.Machine
end

section
/-! The size of a frame (42_composition.md rule R173): the data bytes are as many as the codes' bits fill. -/

namespace Sys2Proof.Machine

open Sys2Proof.Batch (Pack packBits lzwCodes)

variable {m : Nat} {B : List Nat}

/-! ### The bits packed -/

theorem foldl_addCode_packedLength (S : List (Nat × Nat)) (p : Pack) :
    packedLength (S.foldl Pack.addCode p) = packedLength p + (S.map Prod.snd).sum := by
  induction S generalizing p with
  | nil => rfl
  | cons cw S ih =>
    rw [List.foldl_cons, ih, addCode_packedLength, List.map_cons, List.sum_cons, Nat.add_assoc]

theorem foldl_addCode_n_le (S : List (Nat × Nat)) {p : Pack} (hp : p.n ≤ 7) : (S.foldl Pack.addCode p).n ≤ 7 := by
  induction S generalizing p with
  | nil => exact hp
  | cons cw S ih =>
    refine ih ?_
    rw [addCode_eq]
    dsimp only
    omega

/-- `PackBits` gives as many bytes as the widths need, whatever the codes (rule R138). -/
theorem packBits_length (S : List (Nat × Nat)) : (packBits S).length = ((S.map Prod.snd).sum + 7) / 8 := by
  rw [packBits_eq, closedBytes_length (foldl_addCode_n_le S (Nat.zero_le 7)), foldl_addCode_packedLength]
  simp [packedLength]

/-! ### The codes of a frame -/

theorem lzwCodes_two_le_length (hlo : 2 ≤ m) (hhi : m ≤ 8) (hB : ∀ b ∈ B, b < 2 ^ m) : 2 ≤ (lzwCodes B m).length := by
  obtain ⟨hnil, hcons, -⟩ := codeCounts.1 m B hlo hhi hB
  by_cases h : B = []
  · exact (hnil h).ge
  · exact Nat.le_of_succ_le (hcons h)

/-- Settles O56: the codes are between `m + 1` and 12 bits wide, and their number is bounded by rule R113. -/
theorem frameSize : Obligations.FrameSize := by
  intro m B hlo hhi hB X D
  have hfit := lzwCodes_fit hhi hB
  have hcount := lzwCodes_two_le_length hlo hhi hB
  obtain ⟨-, -, hle⟩ := codeCounts.1 m B hlo hhi hB
  have hX : X.length = (((lzwCodes B m).map Prod.snd).sum + 7) / 8 := packBits_length _
  have hmax : ((lzwCodes B m).map Prod.snd).sum ≤ (lzwCodes B m).length * 12 := by
    have h := List.sum_le_card_nsmul ((lzwCodes B m).map Prod.snd) 12
      (List.forall_mem_map.mpr fun cw hcw => (hfit cw hcw).width_le)
    rwa [List.length_map, smul_eq_mul] at h
  have hmin : (lzwCodes B m).length * (m + 1) ≤ ((lzwCodes B m).map Prod.snd).sum := by
    have h := List.card_nsmul_le_sum ((lzwCodes B m).map Prod.snd) (m + 1)
      (List.forall_mem_map.mpr fun cw hcw => (hfit cw hcw).le_width hlo hhi)
    rwa [List.length_map, smul_eq_mul] at h
  have htwo : 2 * (m + 1) ≤ (lzwCodes B m).length * (m + 1) := Nat.mul_le_mul_right _ hcount
  have hD : X.length ≤ D := by
    rw [hX]
    exact Nat.div_le_div_right (by omega)
  refine ⟨hD, ?_, ?_, ?_⟩
  · rw [Batch.encodeFrame, blockify_length]
    show X.length + (X.length + 254) / 255 + 1 ≤ _
    omega
  · rw [hX]
    exact Nat.div_le_div_right (by omega)
  · rintro rfl
    rw [hX, lzwCodes_nil hlo hhi]
    show (m + 1 + (m + 1 + 0) + 7) / 8 = _
    split
    · omega
    · split <;> omega

end Sys2Proof.Machine
end

section
/-! The bits of a packed code stream (41_bitpacker.md rule R138, 42_composition.md rule R167): where the codes `S` stand
in the bytes, reading the width of the first gives its code and leads to the others. -/

namespace Sys2Proof.Machine

open Sys2Proof.Batch (bitAt readBits packBits)

variable {X : List Byte} {S : List (Nat × Nat)} {n pos c w V : Nat}

theorem packedSum_cons (c w : Nat) (S : List (Nat × Nat)) : packedSum ((c, w) :: S) = c + packedSum S * 2 ^ w := rfl

theorem packedSum_lt (hS : ∀ cw ∈ S, cw.1 < 2 ^ cw.2) : packedSum S < 2 ^ (S.map Prod.snd).sum := by
  induction S with
  | nil => exact Nat.one_pos
  | cons cw S ih =>
    obtain ⟨hcw, hS⟩ := List.forall_mem_cons.mp hS
    calc packedSum (cw :: S) < (packedSum S + 1) * 2 ^ cw.2 := by
          rw [packedSum_cons, Nat.succ_mul]
          omega
      _ ≤ 2 ^ (S.map Prod.snd).sum * 2 ^ cw.2 := Nat.mul_le_mul_right _ (ih hS)
      _ = 2 ^ ((cw :: S).map Prod.snd).sum := by rw [← Nat.pow_add, List.map_cons, List.sum_cons, Nat.add_comm]

/-- `bit(j)` of the low bytes of a number is its bit `j` (rules R58, R167). -/
theorem bitAt_lowBytes (hV : V < 2 ^ (8 * n)) (j : Nat) : bitAt (lowBytes n V) j = V.testBit j := by
  unfold bitAt
  by_cases hj : j / 8 < n
  · have hbyte : (lowBytes n V)[j / 8]? = some (BitVec.ofNat 8 (V >>> (8 * (j / 8)))) := by
      simp [lowBytes, hj]
    rw [List.getD_eq_getElem?_getD, hbyte, Option.getD_some, BitVec.getLsbD_ofNat, Nat.testBit_shiftRight,
      decide_eq_true (by omega), Bool.true_and]
    congr 1
    omega
  · have hpow : 2 ^ (8 * n) ≤ 2 ^ j := Nat.pow_le_pow_right (by decide) (by omega)
    rw [List.getD_eq_default _ _ (by rw [lowBytes_length]; omega), Nat.testBit_eq_false_of_lt (hV.trans_le hpow)]
    simp

/-- `read(w)` takes the low `w` bits of the number that stands at `pos` (rule R167). -/
theorem readBits_eq_mod (h : ∀ j, bitAt X (pos + j) = V.testBit j) (w : Nat) : readBits X pos w = V % 2 ^ w := by
  induction w with
  | zero => rw [Nat.pow_zero, Nat.mod_one]; rfl
  | succ w ih =>
    rw [readBits, List.range_succ, List.map_append, List.sum_append, ← readBits, ih, Nat.mod_pow_succ,
      ← Nat.toNat_testBit, List.map_singleton, List.sum_singleton, h]
    cases V.testBit w <;> simp

/-- The codes `S` stand at the bit `pos` of the bytes `X`, nothing but zeros after them. -/
def Reads (X : List Byte) (pos : Nat) (S : List (Nat × Nat)) : Prop := ∀ j, bitAt X (pos + j) = (packedSum S).testBit j

theorem reads_packBits (hS : ∀ cw ∈ S, cw.1 < 2 ^ cw.2) : Reads (packBits S) 0 S := by
  intro j
  have hpow : 2 ^ (S.map Prod.snd).sum ≤ 2 ^ (8 * (((S.map Prod.snd).sum + 7) / 8)) :=
    Nat.pow_le_pow_right (by decide) (by omega)
  rw [packBitsIsLittleEndian S hS, Nat.zero_add]
  exact bitAt_lowBytes ((packedSum_lt hS).trans_le hpow) j

theorem Reads.head (h : Reads X pos ((c, w) :: S)) (hc : c < 2 ^ w) : readBits X pos w = c := by
  rw [readBits_eq_mod h, packedSum_cons, Nat.add_mul_mod_self_right, Nat.mod_eq_of_lt hc]

theorem Reads.tail (h : Reads X pos ((c, w) :: S)) (hc : c < 2 ^ w) : Reads X (pos + w) S := by
  intro j
  rw [Nat.add_assoc, h, packedSum_cons, Nat.add_comm c, Nat.mul_comm, Nat.testBit_two_pow_mul_add _ hc,
    if_neg (by omega), Nat.add_sub_cancel_left]

/-- The last code may be read at any width that holds it: the bits past the end are zeros (D28). -/
theorem Reads.last (h : Reads X pos [(c, w)]) {w' : Nat} (hc : c < 2 ^ w') : readBits X pos w' = c := by
  rw [readBits_eq_mod h, packedSum_cons, packedSum, List.foldr_nil, Nat.zero_mul, Nat.add_zero, Nat.mod_eq_of_lt hc]

end Sys2Proof.Machine
end

section
/-! The round trip (42_composition.md rules R167, R168): the harness decoder follows the batch walk. It learns an entry
one code later than the walk makes it; between the match code and what comes after it, it has caught up. -/

namespace Sys2Proof.Machine

open Sys2Proof.Batch (Walk walkSymbol lzwCodes Decoder DecodeTurn readBits packBits)

variable {m v c p n f : Nat} {w : Walk} {str : Nat → List Nat} {d : Decoder} {X : List Byte} {rest B e : List Nat}

/-! ### The strings of the walk -/

/-- `str` gives every code of the walk its string (rule R108). -/
structure Spells (m : Nat) (str : Nat → List Nat) (w : Walk) : Prop where
  literal : ∀ v < 2 ^ m, str v = [v]
  child : ∀ p v c, w.dict.lookup (p, v) = some c → str c = str p ++ [v]
  nonempty : ∀ c, str c ≠ []

/-- The strings once the pair of the match and `v` has the next code. -/
def extend (str : Nat → List Nat) (w : Walk) (v : Nat) : Nat → List Nat :=
  Function.update str w.next (str w.cur ++ [v])

theorem extend_next (str : Nat → List Nat) (w : Walk) (v : Nat) : extend str w v w.next = str w.cur ++ [v] :=
  Function.update_self ..

theorem extend_of_lt (str : Nat → List Nat) (v : Nat) (hc : c < w.next) : extend str w v c = str c :=
  Function.update_of_ne hc.ne ..

theorem Spells.extend_nonempty (h : Spells m str w) (v c : Nat) : extend str w v c ≠ [] := by
  unfold extend
  by_cases hc : c = w.next
  · rw [hc, Function.update_self]
    exact List.append_ne_nil_of_right_ne_nil _ (List.cons_ne_nil v [])
  · rw [Function.update_of_ne hc]
    exact h.nonempty c

/-- A turn that enters a pair. -/
theorem Spells.room (h : Spells m str w) (hok : WalkOk m w) (hd : w.dict.lookup (w.cur, v) = none)
    (hn : w.next < 4096) : Spells m (extend str w v) (walkSymbol m w v) := by
  have hlow := hok.next_low
  rw [walkSymbol_room hd hn]
  refine ⟨fun a ha => ?_, fun p a c hc => ?_, h.extend_nonempty v⟩
  · rw [extend_of_lt str v (by omega)]
    exact h.literal a ha
  · obtain ⟨hpa, rfl⟩ | hc := lookup_cons_eq_some hc
    · obtain ⟨rfl, rfl⟩ := Prod.mk.inj hpa
      rw [extend_next, extend_of_lt str _ hok.cur_lt_next]
    · obtain ⟨hp, -, hlt⟩ := hok.entries p a c hc
      rw [extend_of_lt str v hlt, extend_of_lt str v (hp.trans hlt)]
      exact h.child p a c hc

/-- A turn that clears the dictionary. -/
theorem Spells.full (h : Spells m str w) (hd : w.dict.lookup (w.cur, v) = none) (hn : 4096 ≤ w.next) :
    Spells m str (walkSymbol m w v) := by
  rw [walkSymbol_full hd hn]
  exact ⟨h.literal, nofun, h.nonempty⟩

theorem Spells.hit (h : Spells m str w) (hd : w.dict.lookup (w.cur, v) = some c) :
    Spells m str (walkSymbol m w v) := by
  rw [walkSymbol_hit hd]
  exact ⟨h.literal, h.child, h.nonempty⟩

/-! ### The width -/

/-- The decoder's width grows as `W` does (rules R6, R167). -/
theorem codeWidth_succ (h : n ≤ 4096) :
    codeWidth (n + 1) = if n = 2 ^ codeWidth n ∧ codeWidth n < 12 then codeWidth n + 1 else codeWidth n := by
  have hle : n ≤ 2 ^ codeWidth n := le_two_pow_codeWidth h
  have hmax : codeWidth n ≤ 12 := codeWidth_le_max n
  split
  next hgrow =>
    obtain ⟨heq, hlt⟩ := hgrow
    have hpow : 2 ^ codeWidth n ≤ 2 ^ 11 := Nat.pow_le_pow_right (by decide) (by omega)
    have hsucc : n + 1 ≤ 2 ^ (codeWidth n + 1) := by
      have := Nat.two_pow_pos (codeWidth n)
      rw [Nat.pow_succ]
      omega
    refine Nat.le_antisymm (codeWidth_le_of hsucc) (Nat.lt_of_not_le fun hsmall => ?_)
    have := le_two_pow_codeWidth (n := n + 1) (by omega)
    have := Nat.pow_le_pow_right (show 0 < 2 by decide) hsmall
    omega
  next hstay =>
    by_cases hcap : n = 4096
    · subst hcap
      rw [codeWidth_of_cap_le (Nat.le_succ _), codeWidth_of_cap_le (Nat.le_refl _)]
    · refine Nat.le_antisymm (codeWidth_le_of ?_) (codeWidth_mono (Nat.le_succ n) (by omega))
      by_contra hgt
      have heq : n = 2 ^ codeWidth n := by omega
      have h12 : codeWidth n = 12 := by
        by_contra hne
        exact hstay ⟨heq, by omega⟩
      rw [h12] at heq
      exact hcap heq

theorem first_lt_two_pow (hlo : 2 ≤ m) : 2 ^ m + 2 < 2 ^ (m + 1) := by
  have : 2 ^ 2 ≤ 2 ^ m := Nat.pow_le_pow_right (by decide) hlo
  rw [Nat.pow_succ]
  omega

/-- The first entry of a frame does not widen the codes. -/
theorem codeWidth_first_succ (hlo : 2 ≤ m) (hhi : m ≤ 8) : codeWidth (2 ^ m + 2 + 1) = m + 1 := by
  have hlt := first_lt_two_pow hlo
  rw [codeWidth_succ (first_le_cap hhi), codeWidth_first hlo hhi, if_neg fun h => hlt.ne h.1]

/-! ### One turn of the decoder -/

theorem turn_clear (h : readBits X d.pos d.width = 2 ^ m) : d.turn X m = .more
    { d with pos := d.pos + d.width, table := [], avail := 2 ^ m + 2, width := m + 1, prev := none } := by
  simp [Decoder.turn, h]

theorem turn_end (h : readBits X d.pos d.width = 2 ^ m + 1) : d.turn X m = .done d.decoded := by
  simp [Decoder.turn, h]

/-- A match code: neither Clear nor End. -/
def IsMatchValue (m c : Nat) : Prop := c ≠ 2 ^ m ∧ c ≠ 2 ^ m + 1

theorem turn_first (h : readBits X d.pos d.width = c) (hc : IsMatchValue m c) (hp : d.prev = none)
    (hs : d.str m c = some e) :
    d.turn X m = .more { d with pos := d.pos + d.width, decoded := d.decoded ++ e, prev := some c } := by
  have hs' (q : Nat) (r : Option Nat) : Decoder.str { d with pos := q, prev := r } m c = some e := hs
  simp [Decoder.turn, h, hc.1, hc.2, hp, hs']

theorem grow_of_room (a e : List Nat) (h : d.avail < 4096) : d.grow a e =
    { d with
      table := (d.avail, a ++ e.take 1) :: d.table
      avail := d.avail + 1
      width := if d.avail + 1 = 2 ^ d.width ∧ d.width < 12 then d.width + 1 else d.width } :=
  if_pos h

theorem turn_next {a : List Nat} (h : readBits X d.pos d.width = c) (hc : IsMatchValue m c) (hp : d.prev = some p)
    (ha : d.str m p = some a) (he : d.entry m p c = some e) (hroom : d.avail < 4096) :
    d.turn X m = .more { d.grow a e with
      pos := d.pos + d.width, decoded := d.decoded ++ e, prev := some c } := by
  have ha' (q : Nat) (r : Option Nat) : Decoder.str { d with pos := q, prev := r } m p = some a := ha
  have he' (q : Nat) (r : Option Nat) : Decoder.entry { d with pos := q, prev := r } m p c = some e := he
  simp [Decoder.turn, h, hc.1, hc.2, hp, ha', he', grow_of_room, hroom]

/-! ### The decoder beside the walk -/

/-- The decoder's table has the strings of the codes up to `n`. -/
def Knows (m : Nat) (str : Nat → List Nat) (n : Nat) (d : Decoder) : Prop :=
  ∀ c, 2 ^ m + 2 ≤ c → c < n → d.table.lookup c = some (str c)

theorem Knows.str_eq (h : Knows m str n d) (hs : Spells m str w) (hc : c < 2 ^ m ∨ 2 ^ m + 2 ≤ c ∧ c < n) :
    d.str m c = some (str c) := by
  unfold Decoder.str
  obtain hc | ⟨hlow, hlt⟩ := hc
  · rw [if_pos hc, hs.literal c hc]
  · rw [if_neg (by omega)]
    exact h c hlow hlt

/-- Before a match code: either nothing was read since a Clear, or the decoder lacks the walk's latest entry, the string
of the match code before followed by the first symbol of the current match. -/
structure Behind (m : Nat) (str : Nat → List Nat) (w : Walk) (d : Decoder) : Prop where
  table : Knows m str d.avail d
  width : d.width = codeWidth (d.avail + 1)
  lag : (d.prev = none ∧ d.avail = 2 ^ m + 2 ∧ w.next = 2 ^ m + 2) ∨
    ∃ p, d.prev = some p ∧ d.avail + 1 = w.next ∧ 2 ^ m + 2 ≤ d.avail ∧
      (p < 2 ^ m ∨ 2 ^ m + 2 ≤ p ∧ p < d.avail) ∧ str d.avail = str p ++ (str w.cur).take 1

/-- After a match code, before the walk's next entry. -/
structure CaughtUp (m : Nat) (str : Nat → List Nat) (w : Walk) (d : Decoder) : Prop where
  avail : d.avail = w.next
  table : Knows m str w.next d
  width : d.width = codeWidth (w.next + 1)
  prev : d.prev = some w.cur

theorem Behind.width_eq (h : Behind m str w d) (hlo : 2 ≤ m) (hhi : m ≤ 8) : d.width = codeWidth w.next := by
  rw [h.width]
  obtain ⟨-, havail, hnext⟩ | ⟨p, -, havail, -⟩ := h.lag
  · rw [havail, hnext, codeWidth_first_succ hlo hhi, codeWidth_first hlo hhi]
  · rw [havail]

theorem WalkOk.cur_isMatchValue (h : WalkOk m w) : IsMatchValue m w.cur := by
  have := h.cur
  unfold IsMatchValue
  omega

/-- The code `avail` names the entry the decoder is about to make (rule R167). -/
theorem Behind.entry_eq (h : Behind m str w d) (hok : WalkOk m w) (hs : Spells m str w) (hp : d.prev = some p) :
    d.str m p = some (str p) ∧ d.entry m p w.cur = some (str w.cur) ∧ str d.avail = str p ++ (str w.cur).take 1 := by
  obtain ⟨hnone, -⟩ | ⟨p', hp', havail, hlow, hprev, hentry⟩ := h.lag
  · rw [hnone] at hp
    cases hp
  obtain rfl : p' = p := Option.some.inj (hp'.symm.trans hp)
  have hstr := h.table.str_eq hs hprev
  refine ⟨hstr, ?_, hentry⟩
  have hcur := hok.cur
  unfold Decoder.entry
  by_cases hlt : w.cur < d.avail
  · rw [if_pos hlt]
    exact h.table.str_eq hs (hcur.imp id fun hc => ⟨hc.1, hlt⟩)
  · obtain hcur : w.cur = d.avail := by omega
    obtain ⟨a, l, hal⟩ := List.exists_cons_of_ne_nil (hs.nonempty p')
    rw [hcur, hal] at hentry
    have hfirst : (str d.avail).take 1 = [a] := by
      rw [hentry]
      rfl
    rw [hcur, if_neg (Nat.lt_irrefl _), if_pos rfl, hstr, hal, hentry, hfirst]
    rfl

/-- Reading the match code: its string is decoded, and the table gets the walk's latest entry. -/
theorem Behind.turn_match (h : Behind m str w d) (hok : WalkOk m w) (hs : Spells m str w)
    (hread : readBits X d.pos d.width = w.cur) : ∃ d', d.turn X m = .more d' ∧ CaughtUp m str w d' ∧
      d'.pos = d.pos + d.width ∧ d'.decoded = d.decoded ++ str w.cur := by
  have hmatch := hok.cur_isMatchValue
  have hcap := hok.next_high
  obtain ⟨hp, havail, hnext⟩ | ⟨p, hp, havail, hlow, -⟩ := h.lag
  · have heq : d.avail = w.next := havail.trans hnext.symm
    have hstr : d.str m w.cur = some (str w.cur) := h.table.str_eq hs (heq ▸ hok.cur)
    exact ⟨_, turn_first hread hmatch hp hstr, ⟨heq, heq ▸ h.table, heq ▸ h.width, rfl⟩, rfl, rfl⟩
  · obtain ⟨hstr, hentry, hnew⟩ := h.entry_eq hok hs hp
    have hroom : d.avail < 4096 := by omega
    refine ⟨_, turn_next hread hmatch hp hstr hentry hroom, ?_, rfl, rfl⟩
    rw [grow_of_room _ _ hroom]
    refine ⟨havail, fun c hclow hclt => ?_, ?_, rfl⟩
    · show List.lookup c ((d.avail, str p ++ (str w.cur).take 1) :: d.table) = some (str c)
      by_cases hc : c = d.avail
      · rw [hc, List.lookup_cons_self, hnew]
      · rw [List.lookup_cons, beq_eq_false_iff_ne.mpr hc]
        exact h.table c hclow (by omega)
    · show (if d.avail + 1 = 2 ^ d.width ∧ d.width < 12 then d.width + 1 else d.width) = codeWidth (w.next + 1)
      rw [← havail, codeWidth_succ (by omega), h.width]

/-- The walk makes its next entry, and the decoder is behind again. -/
theorem CaughtUp.room (h : CaughtUp m str w d) (hok : WalkOk m w) (hs : Spells m str w)
    (hd : w.dict.lookup (w.cur, v) = none) (hn : w.next < 4096) (hv : v < 2 ^ m) :
    Behind m (extend str w v) (walkSymbol m w v) d := by
  have hlow := hok.next_low
  have hlit : extend str w v v = [v] := by
    rw [extend_of_lt str v (by omega), hs.literal v hv]
  rw [walkSymbol_room hd hn]
  refine ⟨fun c hclow hclt => ?_, h.avail ▸ h.width, .inr ⟨w.cur, h.prev, congrArg (· + 1) h.avail, h.avail ▸ hlow,
    h.avail ▸ hok.cur, ?_⟩⟩
  · rw [h.avail] at hclt
    rw [extend_of_lt str v hclt]
    exact h.table c hclow hclt
  · show extend str w v d.avail = extend str w v w.cur ++ (extend str w v v).take 1
    rw [h.avail, extend_next, extend_of_lt str v hok.cur_lt_next, hlit]
    rfl

/-- A decoder that has just read a Clear. -/
theorem behind_after_clear (hlo : 2 ≤ m) (hhi : m ≤ 8) (hn : w.next = 2 ^ m + 2) (pos : Nat) (decoded : List Nat) :
    Behind m str w ⟨pos, m + 1, 2 ^ m + 2, [], none, decoded⟩ :=
  ⟨fun _ hlow hlt => absurd hlow (Nat.not_le.mpr hlt), (codeWidth_first_succ hlo hhi).symm,
    .inl ⟨rfl, rfl, hn⟩⟩

/-- The walk's match grows by a symbol, its first symbol stays. -/
theorem Behind.hit (h : Behind m str w d) (hs : Spells m str w) (hd : w.dict.lookup (w.cur, v) = some c) :
    Behind m str (walkSymbol m w v) d := by
  have hfirst : (str c).take 1 = (str w.cur).take 1 := by
    obtain ⟨a, l, hal⟩ := List.exists_cons_of_ne_nil (hs.nonempty w.cur)
    rw [hs.child _ _ _ hd, hal]
    rfl
  rw [walkSymbol_hit hd]
  refine ⟨h.table, h.width, h.lag.imp id fun ⟨p, hp, havail, hlow, hprev, hentry⟩ => ?_⟩
  exact ⟨p, hp, havail, hlow, hprev, hfirst ▸ hentry⟩

/-! ### The decoder's run -/

theorem run_more {d' : Decoder} (h : d.turn X m = .more d') (f : Nat) :
    Decoder.run X m (f + 1) d = Decoder.run X m f d' := by
  rw [Decoder.run, h]

theorem run_done (h : d.turn X m = .done B) (f : Nat) : Decoder.run X m (f + 1) d = some B := by
  rw [Decoder.run, h]

/-- Turns enough for some codes are one turn for the first and enough for the others. -/
theorem exists_turns {x : Nat × Nat} {S : List (Nat × Nat)} (hf : (x :: S).length ≤ f) :
    ∃ k, f = k + 1 ∧ S.length ≤ k := by
  obtain ⟨k, rfl⟩ := Nat.exists_eq_add_of_le' (Nat.le_trans (Nat.succ_pos _) hf)
  exact ⟨k, rfl, Nat.le_of_succ_le_succ hf⟩

/-- The walk, the strings of its codes, and the decoder behind it. -/
structure Follows (m : Nat) (str : Nat → List Nat) (w : Walk) (d : Decoder) : Prop where
  walk : WalkOk m w
  strings : Spells m str w
  behind : Behind m str w d

theorem Follows.hit (h : Follows m str w d) (hhi : m ≤ 8) (hv : v < 2 ^ m)
    (hd : w.dict.lookup (w.cur, v) = some c) :
    Follows m str (walkSymbol m w v) d where
  walk := h.walk.turn hhi hv (walkSymbol_turnResult m w v)
  strings := h.strings.hit hd
  behind := h.behind.hit h.strings hd

/-- Of the codes at the decoder's position the first is the match code. -/
theorem Follows.read_match (h : Follows m str w d) (hlo : 2 ≤ m) (hhi : m ≤ 8)
    {S : List (Nat × Nat)} (hreads : Reads X d.pos ((w.cur, codeWidth w.next) :: S)) :
    ∃ d', d.turn X m = .more d' ∧ CaughtUp m str w d' ∧ Reads X d'.pos S ∧
      d'.decoded = d.decoded ++ str w.cur := by
  have hfits := (h.walk.fits h.walk.cur_lt_next).lt_two_pow
  have hwidth := h.behind.width_eq hlo hhi
  obtain ⟨d', hturn, hcaught, hpos, hdecoded⟩ := h.behind.turn_match h.walk h.strings (X := X)
    (hwidth ▸ hreads.head hfits)
  refine ⟨d', hturn, hcaught, ?_, hdecoded⟩
  rw [hpos, hwidth]
  exact hreads.tail hfits

theorem Follows.room (h : Follows m str w d) (hhi : m ≤ 8) (hv : v < 2 ^ m)
    (hd : w.dict.lookup (w.cur, v) = none) (hn : w.next < 4096) {d' : Decoder} (hcaught : CaughtUp m str w d') :
    Follows m (extend str w v) (walkSymbol m w v) d' where
  walk := h.walk.turn hhi hv (walkSymbol_turnResult m w v)
  strings := h.strings.room h.walk hd hn
  behind := hcaught.room h.walk h.strings hd hn hv

theorem Follows.full (h : Follows m str w d) (hlo : 2 ≤ m) (hhi : m ≤ 8) (hv : v < 2 ^ m)
    (hd : w.dict.lookup (w.cur, v) = none) (hn : 4096 ≤ w.next) (pos : Nat) (decoded : List Nat) :
    Follows m str (walkSymbol m w v) ⟨pos, m + 1, 2 ^ m + 2, [], none, decoded⟩ where
  walk := h.walk.turn hhi hv (walkSymbol_turnResult m w v)
  strings := h.strings.full hd hn
  behind := behind_after_clear hlo hhi (by rw [walkSymbol_full hd hn]) pos decoded

/-- The code after the last match code fits the decoder's width, which may be one above the encoder's. -/
theorem CaughtUp.lt_two_pow_width (h : CaughtUp m str w d) (hcap : w.next ≤ 4096) (hc : c < w.next) :
    c < 2 ^ d.width := by
  rw [h.width]
  by_cases hn : w.next < 4096
  · exact (Nat.lt_succ_of_lt hc).trans_le (le_two_pow_codeWidth hn)
  · rw [codeWidth_of_cap_le (by omega)]
    omega

/-- From any point of the walk the decoder decodes the match and the symbols still to come. -/
theorem Follows.run_eq (h : Follows m str w d) (hlo : 2 ≤ m) (hhi : m ≤ 8) (hrest : ∀ v ∈ rest, v < 2 ^ m)
    (hreads : Reads X d.pos (codesFrom m w rest)) (hf : (codesFrom m w rest).length ≤ f) :
    Decoder.run X m f d = some (d.decoded ++ str w.cur ++ rest) := by
  induction rest generalizing w str d f with
  | nil =>
    have hlow := h.walk.next_low
    obtain ⟨j, rfl, hj⟩ := exists_turns hf
    obtain ⟨k, rfl, -⟩ := exists_turns hj
    obtain ⟨d', hturn, hcaught, hreads', hdecoded⟩ := h.read_match hlo hhi hreads
    have hend := hreads'.last (hcaught.lt_two_pow_width h.walk.next_high (show 2 ^ m + 1 < w.next by omega))
    rw [List.append_nil, ← hdecoded]
    exact (run_more hturn _).trans (run_done (turn_end hend) _)
  | cons v rest ih =>
    obtain ⟨hv, hrest⟩ := List.forall_mem_cons.mp hrest
    have hlow := h.walk.next_low
    rw [codesFrom] at hreads hf
    cases hd : w.dict.lookup (w.cur, v) with
    | some c =>
      rw [turnCodes_hit hd, List.nil_append] at hreads hf
      rw [ih (h.hit hhi hv hd) hrest hreads hf, walkSymbol_hit hd, h.strings.child _ _ _ hd]
      simp only [List.append_assoc, List.singleton_append]
    | none =>
      by_cases hn : w.next < 4096
      · rw [turnCodes_room hd hn, List.cons_append, List.nil_append] at hreads hf
        obtain ⟨k, rfl, hk⟩ := exists_turns hf
        obtain ⟨d', hturn, hcaught, hreads', hdecoded⟩ := h.read_match hlo hhi hreads
        have hroom := h.room hhi hv hd hn hcaught
        have hcur : (walkSymbol m w v).cur = v := by rw [walkSymbol_room hd hn]
        refine (run_more hturn _).trans ?_
        rw [ih hroom hrest hreads' hk, hcur, hroom.strings.literal v hv, hdecoded, List.append_assoc _ [v],
          List.singleton_append]
      · have hn := Nat.not_lt.mp hn
        rw [turnCodes_full hd hn, List.cons_append, List.cons_append, List.nil_append] at hreads hf
        obtain ⟨j, rfl, hj⟩ := exists_turns hf
        obtain ⟨k, rfl, hk⟩ := exists_turns hj
        obtain ⟨d', hturn, hcaught, hreads', hdecoded⟩ := h.read_match hlo hhi hreads
        have hwidth : d'.width = codeWidth w.next := by
          rw [hcaught.width, codeWidth_of_cap_le hn, codeWidth_of_cap_le (hn.trans (Nat.le_succ _))]
        have hclear : 2 ^ m < 2 ^ codeWidth w.next := (h.walk.fits (by omega)).lt_two_pow
        have hcur : (walkSymbol m w v).cur = v := by rw [walkSymbol_full hd hn]
        have hfull := h.full hlo hhi hv hd hn (d'.pos + d'.width) d'.decoded
        refine (run_more hturn _).trans ((run_more (turn_clear (hwidth ▸ hreads'.head hclear)) _).trans ?_)
        rw [ih hfull hrest (hwidth ▸ hreads'.tail hclear) hk, hcur,
          hfull.strings.literal v hv, hdecoded, List.append_assoc _ [v], List.singleton_append]

/-- The decoder once it has read the first Clear. -/
def afterFirstClear (m : Nat) : Decoder := ⟨0 + (m + 1), m + 1, 2 ^ m + 2, [], none, []⟩

theorem follows_first {b : Nat} (hlo : 2 ≤ m) (hhi : m ≤ 8) (hb : b < 2 ^ m) :
    Follows m (fun c => [c]) (Batch.walk m b []) (afterFirstClear m) where
  walk := walkOk_first hhi hb
  strings := ⟨fun _ _ => rfl, nofun, fun c => List.cons_ne_nil c []⟩
  behind := behind_after_clear hlo hhi rfl _ _

/-- After the first Clear the decoder decodes the frame. -/
theorem run_afterFirstClear {S : List (Nat × Nat)} (hlo : 2 ≤ m) (hhi : m ≤ 8) (hB : ∀ b ∈ B, b < 2 ^ m)
    (hS : lzwCodes B m = (2 ^ m, m + 1) :: S) (hreads : Reads X (0 + (m + 1)) S) (hf : S.length ≤ f) :
    Decoder.run X m f (afterFirstClear m) = some B := by
  cases B with
  | nil =>
    rw [lzwCodes_nil hlo hhi] at hS
    obtain rfl := (List.cons.inj hS).2
    obtain ⟨k, rfl, -⟩ := exists_turns hf
    have hlt : 2 ^ m + 1 < 2 ^ (m + 1) := Nat.lt_of_succ_lt (first_lt_two_pow hlo)
    exact run_done (turn_end (d := afterFirstClear m) (hreads.head hlt)) k
  | cons b rest =>
    obtain ⟨hb, hrest⟩ := List.forall_mem_cons.mp hB
    rw [lzwCodes_eq_codesFrom] at hS
    obtain rfl := (List.cons.inj hS).2
    exact (follows_first hlo hhi hb).run_eq hlo hhi hrest hreads hf

theorem lzwDecode_eq_run (h : readBits X 0 (m + 1) = 2 ^ m) :
    Batch.lzwDecode X m = Decoder.run X m (8 * X.length) (afterFirstClear m) := by
  have hturn : Decoder.turn X m ⟨0, m + 1, 2 ^ m + 2, [], none, []⟩ = .more (afterFirstClear m) :=
    turn_clear (d := ⟨0, m + 1, 2 ^ m + 2, [], none, []⟩) h
  exact run_more hturn _

/-- `LzwDecode` inverts the codes and their packing; each turn reads a code, and no code is without bits (rule R168). -/
theorem lzwDecode_packBits_lzwCodes (hlo : 2 ≤ m) (hhi : m ≤ 8) (hB : ∀ b ∈ B, b < 2 ^ m) :
    Batch.lzwDecode (packBits (lzwCodes B m)) m = some B := by
  have hfit := lzwCodes_fit hhi hB
  have hreads := reads_packBits fun cw hcw => (hfit cw hcw).lt_two_pow
  have hbits : (lzwCodes B m).length ≤ 8 * (packBits (lzwCodes B m)).length := by
    have hpos : ∀ w ∈ (lzwCodes B m).map Prod.snd, 1 ≤ w :=
      List.forall_mem_map.mpr fun cw hcw => Nat.le_of_add_left_le ((hfit cw hcw).le_width hlo hhi)
    have hlen := List.length_le_sum_of_one_le _ hpos
    rw [List.length_map] at hlen
    rw [packBits_length]
    omega
  obtain ⟨S, hS⟩ : ∃ S, lzwCodes B m = (2 ^ m, m + 1) :: S := by
    cases B with
    | nil => exact ⟨_, lzwCodes_nil hlo hhi⟩
    | cons b rest => exact ⟨_, codeWidth_first hlo hhi ▸ lzwCodes_eq_codesFrom m b rest⟩
  have hclear : 2 ^ m < 2 ^ (m + 1) := Nat.pow_lt_pow_right (by decide) (Nat.lt_succ_self m)
  generalize packBits (lzwCodes B m) = X at hreads hbits
  rw [hS] at hreads hbits
  rw [lzwDecode_eq_run (hreads.head hclear)]
  exact run_afterFirstClear hlo hhi hB hS (hreads.tail hclear) (Nat.le_of_succ_le hbits)

/-- Settles O43: `Deblockify` gives back the packed bytes, `LzwDecode` their symbols. -/
theorem roundTrip : Obligations.RoundTrip := by
  intro m B hlo hhi hB
  rw [Batch.encodeFrame, deblockifyOfBlockify, Option.bind_some]
  exact lzwDecode_packBits_lzwCodes hlo hhi hB

end Sys2Proof.Machine
end

section
/-! The legal words (30_encoding.md rule R84) are those of the host commands. An illegal word faults or is dropped, and
Fault mode is left by `ABORT` and hardware reset alone (60_exceptions.md rules R182, R184, R186, R187, R197). -/

namespace Sys2Proof.Machine

variable {s : State} {cw : CommandWord}

/-- The 274 legal words are the words of the host commands (rules R72 to R75, R84). -/
theorem legalWord_iff_encode : legalWord cw = true ↔ ∃ i : Instr, i.format = .h ∧ encode i = cw := by
  constructor
  · intro h
    simp only [legalWord, Bool.or_eq_true, decide_eq_true_eq] at h
    obtain ((hstart | hsym) | hfinish) | habort := h
    · refine ⟨.start (cw.setWidth 4), rfl, BitVec.eq_of_toNat_eq ?_⟩
      rw [encode_start_toNat, BitVec.toNat_setWidth]
      omega
    · refine ⟨.sym (cw.setWidth 8), rfl, BitVec.eq_of_toNat_eq ?_⟩
      rw [encode_sym_toNat, BitVec.toNat_setWidth]
      omega
    · exact ⟨.finish, rfl, BitVec.eq_of_toNat_eq hfinish.symm⟩
    · exact ⟨.abort, rfl, BitVec.eq_of_toNat_eq habort.symm⟩
  · rintro ⟨i, hf, rfl⟩
    exact legalWord_encode hf

/-- A word is legal exactly when the host port decodes it (rules R84, R85). -/
theorem legalWord_iff_decodes : legalWord cw = true ↔ ∃ i, decodeCommand cw = .ok i := by
  rw [legalWord_iff_encode]
  constructor
  · rintro ⟨i, hf, rfl⟩
    exact ⟨i, decodeCommand_encode hf⟩
  · rintro ⟨i, hd⟩
    exact ⟨i, decodeCommand_ok hd⟩

/-- Fault entry makes the three writes of rule R185. -/
theorem raiseFault_eq_faulted (x : Cause) (cw : CommandWord) (s : State) : raiseFault x cw s = faulted x cw s := rfl

/-- Outside Fault mode an illegal word raises `IllegalCommand` (rule R182). -/
theorem executeWord_illegal_of_not_fault (hl : legalWord cw = false) (hs : s.mode ≠ .fault) :
    executeWord cw s = .next (faulted .illegalCommand cw s) := by
  rw [executeWord_illegal hl, illegalWord_of_not_fault hs, raiseFault_eq_faulted]

/-- Settles O10: an undecoded word is an illegal one, and `illegalWord` says what it does in each mode. -/
theorem illegalWords : Obligations.IllegalWords := fun _ _ =>
  ⟨executeWord_illegal_of_not_fault,
    fun hl hs => (executeWord_illegal hl).trans (congrArg _ (illegalWord_of_fault hs)),
    legalWord_iff_decodes⟩

/-- Settles O26: a decoded command is dropped by its own meaning, an illegal word by `illegalWord`. -/
theorem faultModeDropsAllButAbort : Obligations.FaultModeDropsAllButAbort := fun _ _ => executeWord_of_fault

/-- Settles O27: reset and `ABORT` lead to the reset values, and any other word leaves the block in Fault mode. -/
theorem exitsFromFaultMode : Obligations.ExitsFromFaultMode := by
  intro j s t hs h
  cases j with
  | reset =>
    obtain rfl : hardwareReset s = t := next_unique rfl h
    exact ⟨iff_of_true nofun (.inl rfl), fun _ => ⟨rfl, rfl, rfl⟩⟩
  | command cw =>
    by_cases ha : cw = 0xF000
    · subst ha
      obtain rfl := next_unique ((executeWord_ok decodeCommand_abort).trans (exec_abort s)) h
      exact ⟨iff_of_true nofun (.inr rfl), fun _ => ⟨rfl, rfl, rfl⟩⟩
    · obtain rfl := next_unique (executeWord_of_fault hs ha) h
      have hj : ¬(Input.command cw = .reset ∨ Input.command cw = .command 0xF000) := by simpa using ha
      exact ⟨iff_of_false (not_not_intro hs) hj, fun hn => absurd hs hn⟩

/-- Settles O31: a host command that ends in Fault mode wrote the status registers alone. -/
theorem faultingCommandFrame : Obligations.FaultingCommandFrame := by
  intro i s t hf h ht
  rw [(exec_commandResult hf h).eq_of_mode_fault ht]

/-- Settles O7: an idle state that has the invariant differs from reset in its output and the host's inputs alone. -/
theorem idleBlockMayBePoweredDown : Obligations.IdleBlockMayBePoweredDown := by
  intro s h hs
  have hreset : { s with out := [] } = hardwareReset s := by
    rw [h.eq_reset hs]
    rfl
  rw [hreset]
  rfl

end Sys2Proof.Machine
end

section
/-! Which fault each word raises (60_exceptions.md rules R180, R183): the table `faultOf`, read off the word as a
number, row by row beside the commands' own tests. -/

namespace Sys2Proof.Machine

variable {s : State} {i : Instr} {cw : CommandWord} {x : Cause}

/-! ### The rows of the table -/

theorem faultOf_of_fault (cw : CommandWord) (hs : s.mode = .fault) : faultOf cw s = none := by
  simp [faultOf, hs]

theorem mode_ne_fault_of_faultOf (h : faultOf cw s = some x) : s.mode ≠ .fault := by
  intro hs
  rw [faultOf_of_fault cw hs] at h
  cases h

theorem faultOf_illegal (hl : legalWord cw = false) (hs : s.mode ≠ .fault) :
    faultOf cw s = some .illegalCommand := by
  simp [faultOf, hs, hl]

/-- The row of `START`: a frame must not be open, then `m` must be in 2 to 8. -/
theorem faultOf_start (m : MinCodeSize) (hs : s.mode ≠ .fault) :
    faultOf (encode (.start m)) s =
      if s.mode = .active then some .protocolError else if ¬legalMcs m = true then some .paramError else none := by
  have hlt := m.isLt
  have hop : (0x1000 + m.toNat) / 0x1000 = 1 := by omega
  have hm : (0x1000 + m.toNat) % 16 = m.toNat := by omega
  have hrange : ¬legalMcs m = true ↔ m.toNat < 2 ∨ 8 < m.toNat := by rw [legalMcs_iff]; omega
  simp only [faultOf, legalWord_encode (i := .start m) rfl, encode_start_toNat, hop, hm, hrange]
  simp [hs]

/-- The row of `SYM`: a frame must be open, then the symbol must be one of its literals. -/
theorem faultOf_sym (b : Symbol) (hs : s.mode ≠ .fault) :
    faultOf (encode (.sym b)) s =
      if s.mode = .idle then some .protocolError
      else if ¬symbolInRange s.mcs b = true then some .encodingError else none := by
  have hlt := b.isLt
  have hop : (0x2000 + b.toNat) / 0x1000 = 2 := by omega
  have hb : (0x2000 + b.toNat) % 256 = b.toNat := by omega
  have hrange : ¬symbolInRange s.mcs b = true ↔ 2 ^ s.mcs.toNat ≤ b.toNat := by rw [symbolInRange_iff, Nat.not_lt]
  simp only [faultOf, legalWord_encode (i := .sym b) rfl, encode_sym_toNat, hop, hb, hrange]
  simp [hs]

/-- The row of `FINISH`: a frame must be open. -/
theorem faultOf_finish (hs : s.mode ≠ .fault) :
    faultOf (encode .finish) s = if s.mode = .idle then some .protocolError else none := by
  simp [faultOf, legalWord, encode, hs]

/-- `ABORT` raises nothing, whatever the mode. -/
theorem faultOf_abort (s : State) : faultOf (encode .abort) s = none := by
  simp [faultOf, legalWord, encode]

/-! ### The commands do as the table says -/

theorem mode_eq_idle (hs : s.mode ≠ .fault) (hm : s.mode ≠ .active) : s.mode = .idle := by
  cases h : s.mode with
  | idle => rfl
  | active => exact absurd h hm
  | fault => exact absurd h hs

theorem mode_eq_active (hs : s.mode ≠ .fault) (hm : s.mode ≠ .idle) : s.mode = .active := by
  cases h : s.mode with
  | idle => exact absurd h hm
  | active => rfl
  | fault => exact absurd h hs

/-- A command that the table gives a fault raises it, and emits no code (rules R183 to R185). -/
theorem exec_of_faultOf_some (hf : i.format = .h) (h : faultOf (encode i) s = some x) :
    exec i s = .next (faulted x (encode i) s) ∧ emittedCodes i s = [] := by
  have hs := mode_ne_fault_of_faultOf h
  cases i with
  | start m =>
    rw [faultOf_start m hs] at h
    split_ifs at h with hm hl <;> obtain rfl := Option.some.inj h
    · exact ⟨exec_start_active m hm, emittedCodes_start_of_ne_idle m (by simp [hm])⟩
    · exact ⟨exec_start_illegal (mode_eq_idle hs hm) hl, emittedCodes_start_illegal hl s⟩
  | sym b =>
    rw [faultOf_sym b hs] at h
    split_ifs at h with hm hb <;> obtain rfl := Option.some.inj h
    · exact ⟨exec_sym_idle b hm, congrArg _ (emissions_sym_of_ne_active b (by simp [hm]))⟩
    · exact ⟨exec_sym_outOfRange (mode_eq_active hs hm) hb, congrArg _ (emissions_sym_outOfRange hb)⟩
  | finish =>
    rw [faultOf_finish hs] at h
    split_ifs at h with hm
    obtain rfl := Option.some.inj h
    exact ⟨exec_finish_idle hm, congrArg _ (emissions_finish_of_ne_active (by simp [hm]))⟩
  | abort => rw [faultOf_abort] at h; cases h
  | pinit m => cases hf
  | put c => cases hf
  | pflush => cases hf

/-- A command that the table gives no fault is accepted, and an accepted command does not end in Fault mode
(rule R183). -/
theorem exec_of_faultOf_none (hf : i.format = .h) (h : faultOf (encode i) s = none) (hs : s.mode ≠ .fault) :
    ∃ t, exec i s = .next t ∧ t.mode ≠ .fault := by
  cases i with
  | start m =>
    rw [faultOf_start m hs] at h
    split_ifs at h with hm hl
    exact ⟨_, exec_start_legal (mode_eq_idle hs hm) hl, by rw [openFrame_mode]; exact nofun⟩
  | sym b =>
    rw [faultOf_sym b hs] at h
    split_ifs at h with hm hb
    exact ⟨_, exec_sym_inRange (mode_eq_active hs hm) hb, by rwa [consumeSymbol_mode]⟩
  | finish =>
    rw [faultOf_finish hs] at h
    split_ifs at h with hm
    exact ⟨_, exec_finish_active (mode_eq_active hs hm), nofun⟩
  | abort => exact ⟨_, exec_abort s, nofun⟩
  | pinit m => cases hf
  | put c => cases hf
  | pflush => cases hf

/-- Settles O25: an illegal word outside Fault mode raises `IllegalCommand`; a legal word is a command's, and the
command does as its row of the table says. -/
theorem faultEntryAndPriority : Obligations.FaultEntryAndPriority := by
  intro cw s
  cases hl : legalWord cw with
  | false =>
    refine ⟨fun x h => ?_, fun t h _ hs => ?_⟩
    · have hs := mode_ne_fault_of_faultOf h
      obtain rfl := Option.some.inj ((faultOf_illegal hl hs).symm.trans h)
      refine ⟨executeWord_illegal_of_not_fault hl hs, rfl, fun i hd => ?_⟩
      cases hl.symm.trans (legalWord_iff_decodes.mpr ⟨i, hd⟩)
    · rw [faultOf_illegal hl hs] at h
      cases h
  | true =>
    obtain ⟨i, hf, rfl⟩ := legalWord_iff_encode.mp hl
    rw [executeWord_ok (decodeCommand_encode hf)]
    refine ⟨fun x h => ?_, fun t h he hs => ?_⟩
    · obtain ⟨hexec, hcodes⟩ := exec_of_faultOf_some hf h
      refine ⟨hexec, rfl, fun j hj => ?_⟩
      obtain rfl := Except.ok.inj ((decodeCommand_encode hf).symm.trans hj)
      exact hcodes
    · obtain ⟨u, hu, hmode⟩ := exec_of_faultOf_none hf h hs
      exact next_unique hu he ▸ hmode

end Sys2Proof.Machine
end

section
/-! Several blocks share nothing (60_exceptions.md rules R192, R193): a step of one block is its own, and leaves every
other block as it is. -/

namespace Sys2Proof.Machine

/-- Block `k` steps as it does alone, and no other block changes. -/
theorem stepBlock_next (k : Nat) (bs : Blocks) :
    ∃ bs', stepBlock k bs = .next bs' ∧ bs'.length = bs.length ∧ (∀ j, k ≠ j → bs'[j]? = bs[j]?) ∧
      ∀ s, bs[k]? = some s → ∃ t, step s = .next t ∧ bs'[k]? = some t := by
  cases hk : bs[k]? with
  | none => exact ⟨bs, by simp [stepBlock, hk], rfl, fun _ _ => rfl, nofun⟩
  | some s =>
    obtain ⟨t, ht⟩ := step_total s
    obtain ⟨hlt, -⟩ := List.getElem?_eq_some_iff.mp hk
    refine ⟨bs.set k t, by simp [stepBlock, hk, ht], List.length_set, fun j hj => List.getElem?_set_ne hj, ?_⟩
    rintro _ ⟨⟩
    exact ⟨t, ht, List.getElem?_set_self hlt⟩

theorem runBlocks_cons (ks : List Nat) {k : Nat} {bs bs' : Blocks} (h : stepBlock k bs = .next bs') :
    runBlocks (k :: ks) bs = runBlocks ks bs' := by
  rw [runBlocks, h]

/-- Settles O49: by induction on the interleaving. The first step counts for its own block only. -/
theorem blocksAreIndependent : Obligations.BlocksAreIndependent := by
  intro ks
  induction ks with
  | nil => exact fun bs => ⟨bs, rfl, rfl, fun _ s hs => ⟨s, hs, rfl⟩⟩
  | cons k ks ih =>
    intro bs
    obtain ⟨bs₁, hstep, hlen₁, hother, hself⟩ := stepBlock_next k bs
    obtain ⟨bs', hrun, hlen, hblocks⟩ := ih bs₁
    refine ⟨bs', (runBlocks_cons ks hstep).trans hrun, hlen.trans hlen₁, fun j s hs => ?_⟩
    by_cases hj : k = j
    · subst hj
      obtain ⟨u, hu, hu'⟩ := hself s hs
      rw [List.count_cons_self, run_succ _ hu]
      exact hblocks k u hu'
    · rw [List.count_cons_of_ne hj]
      exact hblocks j s ((hother j hj).trans hs)

end Sys2Proof.Machine
end

section
/-! The reset state and the ways back to it (70_reset_and_hazards.md rules R200 to R203). -/

namespace Sys2Proof.Machine

variable {s : State}

/-- The dictionary is empty at reset (rule R201). -/
theorem dictLookup_reset (p : Code) (b : Symbol) : dictLookup p b State.reset = none := Memory.read_nil _

/-- An accepted `FINISH` keeps the output and what the host will present, and resets the rest (rules R106, R201). -/
theorem BlockInvariant.closeFrame_eq_reset (h : BlockInvariant s) (hs : s.mode = .active) :
    closeFrame s = { State.reset with out := (closeFrame s).out, pending := s.pending } := by
  obtain ⟨-, -, hpending⟩ := closeFrame_status s
  have heq := (CommandResult.closed hs).eq_reset h (closeFrame_mode s)
  rwa [hpending] at heq

/-- Settles O1: the table's rows are the fields of `State.reset`; `ABORT` ends in `returnToIdle`, and `FINISH` in a
closed frame. -/
theorem resetValues : Obligations.ResetValues := by
  refine ⟨?_, fun s t h => ?_, fun s t hi hs h => ?_⟩
  · exact ⟨rfl, rfl, rfl, rfl, rfl, rfl, rfl, rfl, rfl, dictLookup_reset, rfl, rfl, rfl, rfl, rfl, rfl, rfl⟩
  · obtain rfl := next_unique (exec_abort s) h
    exact returnToIdle_eq s
  · obtain rfl := next_unique (exec_finish_active hs) h
    exact hi.closeFrame_eq_reset hs

/-- A presented hardware reset is taken from `pending` and clears all but what is behind it (rules R200, R201). -/
theorem step_resets {rest : List Input} (hp : s.pending = .reset :: rest) :
    step s = .next { State.reset with pending := rest } := by
  rw [step_of_pending hp]
  rfl

/-- Settles O11: a reset presented is a reset executed, and with nothing presented the step waits. -/
theorem stepResetsAndWaits : Obligations.StepResetsAndWaits := ⟨fun _ _ => step_resets, fun _ => step_waits⟩

end Sys2Proof.Machine
end
